-- ==== Sys2Proof/Word.lean ====
section
/-! DEFINITION. The byte, the widths of operands, the Results and the capability record: the plain types every
other file speaks of (30_encoding.md R55, R62, R63; 00_scope.md R7). -/

namespace Sys2Proof

/-- One byte, bit 7 the most significant (R7). -/
abbrev Byte := BitVec 8

/-- An unsigned 16-bit value: `value`, `enabled`, `mode` and the codec's value (10_state.md R20, D20). -/
abbrev Half := BitVec 16

/-- The payload `b[6:0]` of a data byte (R50). -/
abbrev Data7 := BitVec 7

/-- A channel, port or pin of four bits (R52). -/
abbrev Nibble := BitVec 4

/-- A 14-bit value (R56). -/
abbrev Value14 := BitVec 14

/-- What an operation reports: `OK` or one of the six errors (R63, 60_exceptions.md R160). -/
inductive Result where
  | ok
  | nullReference
  | unsupportedCommand
  | invalidFrame
  | outOfBounds
  | bufferFull
  | invalidArgument
  deriving DecidableEq, Repr, Inhabited

/-- A capability record (00_scope.md R9, R62): one pairing of mode and resolution for a pin. -/
structure CapRecord where
  pin : Byte
  mode : Byte
  resolution : Byte
  deriving DecidableEq, Repr

end Sys2Proof
end

