-- ==== Sys2Proof/Config.lean ====
section
/-! DEFINITION. The constants the spec fixes, the parameters it leaves to the implementation (00_scope.md R6), and
the two free values. -/

namespace Sys2Proof

namespace Config

/-- The first byte of a SysEx frame or message (R6, R57). -/
def sysexStart : Byte := 0xF0#8

/-- The SysEx terminator (R6, R50). -/
def sysexEnd : Byte := 0xF7#8

/-- The separator of a capability response, and the "not analog" entry of a mapping (R61). -/
def separator : Byte := 0x7F#8

/-- Sub-id of the analog mapping response (R58). -/
def mappingResponseId : Byte := 0x6A#8

/-- Sub-id of the capability query (R58), a data byte. -/
def capabilityQueryId : Data7 := 0x6B#7

/-- Sub-id of the capability response (R58). -/
def capabilityResponseId : Byte := 0x6C#8

/-- Protocol version reported on the wire: major 2 (R1, R61). -/
def versionMajor : Byte := 0x02#8

/-- Protocol version reported on the wire: minor 6 (R1, R61). -/
def versionMinor : Byte := 0x06#8

/-- The largest pin, port or channel of a message (R6). -/
def maxPin : Byte := 0x0F#8

/-- The largest 14-bit value (R6, R56). -/
def maxValue : Half := 0x3FFF#16

/-- Mode codes read off the source's worked example (R61). The engine copies modes through and never tests them. -/
def modeInput : Byte := 0x00#8
def modeOutput : Byte := 0x01#8
def modeAnalog : Byte := 0x02#8

end Config

/-- `ENC_FAIL_POLICY` (R138): what a composite encoder does with buffered bytes when it fails in mid-message. -/
inductive EncFailPolicy where
  | leave
  | flush
  | discard
  deriving DecidableEq, Repr

/-- `CAP_RECORD_VALID` (R134, U10): the spec's default predicate, or whatever the implementation tests instead
(log 13, DESIGN CHOICE: the other predicate is the free value `Config.capRecordValid`). -/
inductive CapRule where
  | dataBytes
  | implementation
  deriving DecidableEq, Repr

/-- The parameters of one engine instance (R6), fixed for the life of the Context (10_state.md R10). They are data
that no step writes, so that a statement about every state is a statement about every engine (log 8). -/
structure Params where
  /-- `IN_CAP` (D5). -/
  inCap : Nat
  /-- `OUT_CAP` (D5). -/
  outCap : Nat
  /-- `SYSEX_ANALOG_MAPPING_QUERY`, a data byte (D12). -/
  analogMappingQueryId : Data7
  /-- `SYSEX_STRING_DATA`, a data byte (D12). -/
  stringDataId : Data7
  /-- `SINK_RESULT_PROPAGATES` (D16). -/
  sinkResultPropagates : Bool
  /-- `ENC_FAIL_POLICY` (D17). -/
  encFailPolicy : EncFailPolicy
  /-- `CAP_RECORD_VALID` (D18). -/
  capRule : CapRule
  inCap_ge : 3 ≤ inCap
  outCap_ge : 1 ≤ outCap
  mappingQuery_ne : analogMappingQueryId ≠ Config.capabilityQueryId
  deriving DecidableEq, Repr

/-- The parameters of the machine that `State.reset` describes: R6's own values, and the two capacities, which R6
leaves open, at 64 (log 7, DESIGN CHOICE). 0x69 and 0x71 are the spec's "from general knowledge" (log 14, PRESUMED). -/
def Config.default : Params where
  inCap := 64
  outCap := 64
  analogMappingQueryId := 0x69#7
  stringDataId := 0x71#7
  sinkResultPropagates := false
  encFailPolicy := .leave
  capRule := .dataBytes
  inCap_ge := by decide
  outCap_ge := by decide
  mappingQuery_ne := by decide

/-- FREE VALUE (log 11): the Result the sink answers at its n-th invocation (R123, U11 "the sink may return
anything"). It has no body. -/
opaque Config.sinkResult : Nat → Result

/-- FREE VALUE (log 13): the validity predicate of an implementation that does not use the default one (R134, U10).
It has no body. -/
opaque Config.capRecordValid : CapRecord → Bool

end Sys2Proof
end

