-- ==== Sys2Proof/Syntax.lean ====
section
/-! DEFINITION. The instructions: one constructor for each row of spec/opcode_table.json, their operands, and the
words they are fetched from (30_encoding.md R51 to R62). -/

namespace Sys2Proof

/-- A reference operand to the Context: the engine's one Context, or no reference at all (60_exceptions.md R161). -/
inductive Ref where
  | present
  | absent
  deriving DecidableEq, Repr

/-- The identity of a callback, opaque to the engine (10_state.md R20, log 15). -/
abbrev Callback := Nat

/-- The Handler Table: nine optional slots (10_state.md R20). -/
structure HandlerTable where
  output : Option Callback
  analogIO : Option Callback
  digitalIO : Option Callback
  reportAnalog : Option Callback
  reportDigital : Option Callback
  setPinMode : Option Callback
  setPinValue : Option Callback
  analogMappingQuery : Option Callback
  capabilityQuery : Option Callback
  deriving DecidableEq, Repr

/-- A table with every slot absent: what zeroing leaves (10_state.md R20, D28). -/
def HandlerTable.empty : HandlerTable :=
  ⟨none, none, none, none, none, none, none, none, none⟩

/-- How many body bytes a frame still needs: the values of `remaining_count` and of `BodyLen` (10_state.md R13,
40_frame_decoder.md R71). -/
inductive Remaining where
  | zero
  | one
  | two
  | unbounded
  deriving DecidableEq, Repr

/-- A mode and a resolution byte of a capability response (R60), each a data byte. -/
abbrev CapPair := Data7 × Data7

/-- The instructions, one constructor for each row of the opcode table. -/
inductive Instr where
  -- inbound frames (R53)
  | analogIo (channel : Nibble) (value : Value14)
  | digitalIo (channel : Nibble) (value : Value14)
  | reportAnalog (channel : Nibble) (enabled : Data7)
  | reportDigital (channel : Nibble) (enabled : Data7)
  | setPinMode (pin mode : Data7)
  | setPinValue (pin value : Data7)
  | protocolVersion
  | systemReset
  /-- The body of a SysEx frame before the terminator: the sub-id, then the payload. An empty body is `F0 F7`. -/
  | sysex (body : List Data7)
  -- SysEx sub-commands (R58)
  | analogMappingQuery
  | capabilityQuery
  -- outbound messages (R60)
  | analogMessage (pin : Nibble) (value : Value14)
  | digitalMessage (port : Nibble) (value : Value14)
  | versionReply
  | stringData (chars : List Byte)
  /-- One list of pairs for each run of records with the same pin. -/
  | capabilityResponse (groups : List (List CapPair))
  /-- One entry a pin: an analog channel, or none for "not analog". -/
  | analogMappingResponse (entries : List (Option Nibble))
  -- interface operations (R62)
  | init (ctx : Ref)
  | attach (ctx : Ref) (table : Option HandlerTable)
  | feed (ctx : Ref) (b : Byte)
  | feedBulk (ctx : Ref) (bytes : List Byte)
  | decode14 (buf len : Nat) (offset : Int)
  | encode14 (buf len : Nat) (offset : Int) (value : Half)
  | append (ctx : Ref) (b : Byte)
  | flush (ctx : Ref)
  | sendAnalog (ctx : Ref) (pin : Byte) (value : Half)
  | sendDigital (ctx : Ref) (port : Byte) (value : Half)
  | sendString (ctx : Ref) (s : List Byte)
  | sendCapability (ctx : Ref) (recs : List CapRecord)
  | sendAnalogMapping (ctx : Ref) (map : List Byte)
  deriving DecidableEq, Repr

/-- The operands the caller passes beside an operation-select code. The spec gives operands no bits (R62), so they
are passed by value (log 3, DESIGN CHOICE). An operation reads the ones it has and ignores the others. -/
structure Args where
  ctx : Ref := .present
  table : Option HandlerTable := some HandlerTable.empty
  /-- `byte`, `pin` or `port`. -/
  byte : Byte := 0#8
  /-- `bytes`, `s` or `map`. -/
  bytes : List Byte := []
  buf : Nat := 0
  len : Nat := 0
  offset : Int := 0
  value : Half := 0#16
  recs : List CapRecord := []
  deriving DecidableEq, Repr

/-- Operand registers that hold zero. -/
def Args.zero : Args := {}

/-- What an instruction is fetched from (log 3): an operation-select code with its operands (R62), the bytes the
transport puts on the inbound line (R51), or the bytes of an outbound message to compose (R60). -/
inductive InstrWord where
  | op (code : BitVec 4) (args : Args)
  | wire (bytes : List Byte)
  | message (bytes : List Byte)
  deriving DecidableEq, Repr

/-- Why the decoder refuses a word. -/
inductive DecodeError where
  /-- Operation-select codes 0xD to 0xF (R62, U5). -/
  | unassignedOperation (code : BitVec 4)
  /-- No byte at all. -/
  | empty
  /-- A data byte where a command is expected (R59). -/
  | dataByteFirst (b : Byte)
  /-- A command byte that is not in the map (R59). -/
  | noSuchCommand (b : Byte)
  /-- Fewer or more body bytes than the command has (R53). -/
  | wrongLength
  /-- A byte with bit 7 set inside the body (R50). -/
  | commandByteInBody
  /-- A SysEx frame or message that does not end with 0xF7 (R57). -/
  | unterminated
  /-- An outbound message of no kind the engine emits (R60). -/
  | noSuchMessage
  deriving DecidableEq, Repr

end Sys2Proof
end

