-- ==== Sys2Proof/Machine/State.lean ====
section
/-! DEFINITION. The machine's state: the Context of 10_state.md R10 and R11, the parameters, the caller's storage,
the outputs, and the environment's choices; why a step can stop; the state after reset. -/

namespace Sys2Proof.Machine

/-- The decoder's state register (R12): CMD = 0, CMD_DATA = 1, READY = 2. -/
inductive DecoderState where
  | cmd
  | cmdData
  | ready
  deriving DecidableEq, Repr

/-- A memory: the bytes that differ from 0x00, what an unlisted address reads as (10_state.md R27 for the two
buffers, log 17 for the caller's storage), at strictly rising addresses (log 20). -/
abbrev Memory := List Host.Cell

/-- The Context: all mutable state of one engine instance (R10, R11). -/
structure Context where
  state : DecoderState
  remainingCount : Remaining
  inputCursor : Nat
  /-- `input_buf`, indices 0 to IN_CAP - 1 (R18). -/
  inputBuf : Memory
  outputCursor : Nat
  /-- `output_buf`, indices 0 to OUT_CAP - 1 (R19). -/
  outputBuf : Memory
  /-- The nine slots (R20). -/
  handlers : HandlerTable
  /-- The opaque caller word (R21, log 15). -/
  userData : Nat
  deriving DecidableEq, Repr

/-- The Context after INIT (R27, 45_context_lifecycle.md R145). -/
def Context.zero : Context where
  state := .cmd
  remainingCount := .zero
  inputCursor := 0
  inputBuf := []
  outputCursor := 0
  outputBuf := []
  handlers := HandlerTable.empty
  userData := 0

/-- The six handler slots that take three arguments (R20, R23). -/
inductive CommandSlot where
  | analogIO
  | digitalIO
  | reportAnalog
  | reportDigital
  | setPinMode
  | setPinValue
  deriving DecidableEq, Repr

/-- The two SysEx query slots (R20, R23). -/
inductive QuerySlot where
  | analogMappingQuery
  | capabilityQuery
  deriving DecidableEq, Repr

/-- One callback invocation (R23): which slot, the callback that stood in it, the `user_data` it was given (R21),
and the arguments after the engine reference (which is this Context: log 15). -/
inductive Event where
  | sink (callee : Callback) (userData : Nat) (bytes : List Byte)
  | handler (slot : CommandSlot) (callee : Callback) (userData : Nat) (cmd a : Byte) (b : Half)
  | query (slot : QuerySlot) (callee : Callback) (userData : Nat) (cmd id : Byte)
  deriving DecidableEq, Repr

/-- What an operation hands back to the caller (30_encoding.md R62, R63): its Result, and DECODE14's value. -/
structure Reply where
  result : Result
  value : Option Half := none
  deriving DecidableEq, Repr

/-- What a command handler may issue on its Context from inside a FEED (70_reset_and_hazards.md R187). FEED,
FEED_BULK, INIT and ATTACH are forbidden there and have no constructor (U3, log 10). -/
inductive HandlerOp where
  | append (b : Byte)
  | flush
  | sendAnalog (pin : Byte) (value : Half)
  | sendDigital (port : Byte) (value : Half)
  | sendString (s : List Byte)
  | sendCapability (recs : List CapRecord)
  | sendAnalogMapping (map : List Byte)
  | decode14 (buf len : Nat) (offset : Int)
  | encode14 (buf len : Nat) (offset : Int) (value : Half)
  deriving DecidableEq, Repr

/-- What the caller asks for next (60_exceptions.md R174): an instruction, a write of `user_data` (10_state.md R21),
or a write to its own storage, where the codec's buffers lie (20_memory.md R40). -/
inductive Request where
  | instr (w : InstrWord)
  | setUserData (value : Nat)
  | storeByte (addr : Nat) (b : Byte)
  deriving DecidableEq, Repr

/-- The machine's state. -/
structure State where
  /-- The parameters of this engine instance; no step writes them (log 8). -/
  params : Params
  ctx : Context
  /-- The caller's storage: byte `i` of a codec buffer `buf` is the byte at `buf + i` (20_memory.md R40, log 17). -/
  callerMem : Memory
  /-- The event trace, oldest first (10_state.md R23). -/
  trace : List Event
  /-- The Results returned to the caller, oldest first (log 18). -/
  replies : List Reply
  /-- What the operations issued by handlers handed back to them, oldest first (60_exceptions.md R171, log 18). -/
  handlerReplies : List Reply
  /-- The model's own: how often the sink was invoked (log 11). -/
  sinkCalls : Nat
  /-- The model's own: what the coming handler invocations will issue, the next one first (log 10). -/
  scripts : List (List HandlerOp)
  /-- The model's own: what the caller asks for next, the next one first (log 2). -/
  requests : List Request
  deriving DecidableEq, Repr

/-- Why the machine stops with a fault. No condition the spec describes is fatal (60_exceptions.md R160). -/
inductive Fault where
  /-- Raised by an operation that reads or writes the Context when a cursor lies beyond its buffer's capacity, so
  that the access would be to a byte that does not exist (10_state.md R14, R15; R25 says no operation leaves such a
  Context). Safe: the machine stops. -/
  | cursorOutsideBuffer
  deriving DecidableEq, Repr

/-- Why an instruction is refused. -/
inductive Refusal where
  /-- Raised by an arm of `exec` whose instruction has no meaning yet. Safe. -/
  | notModelled (mnemonic : String)
  /-- Raised by an operation on a Context whose state is READY between operations (40_frame_decoder.md R83, U4
  "refuse"; no operation leaves one, R25). Safe. -/
  | decoderReady
  /-- Raised by an operation other than INIT on a Context that INIT and the operations can not have left: one never
  initialised (10_state.md R27, U1 "refuse"). Safe. -/
  | uninitialisedContext
  /-- Raised by `step` on operation-select codes 0xD to 0xF (30_encoding.md R62 "a model refuses them", U5). Safe. -/
  | unassignedOperation (code : BitVec 4)
  deriving DecidableEq, Repr

/-- The machine right after INIT, for an engine with the given parameters (10_state.md R27; 70_reset_and_hazards.md
R180). The fields outside the Context start empty (log 2, 10, 11, 17, 18, 19). -/
def State.initial (p : Params) : State where
  params := p
  ctx := Context.zero
  callerMem := []
  trace := []
  replies := []
  handlerReplies := []
  sinkCalls := 0
  scripts := []
  requests := []

/-- The machine right after reset, with the parameters of `Config.default` (log 7). -/
def State.reset : State := State.initial Config.default

end Sys2Proof.Machine
end

