-- ==== Sys2Proof/Machine/Flags.lean ====
section
/-! DEFINITION. The engine has no flag and no condition code (10_state.md R17). What it reports is the Result of the
operation (60_exceptions.md R160); this file holds how Results combine, and the numeric codes of R12 and R63. -/

namespace Sys2Proof.Machine

/-- "the first non-OK Result it met" (43_output_buffer.md R123). -/
def firstError (r r' : Result) : Result :=
  match r with
  | .ok => r'
  | _ => r

/-- The 3-bit code of a Result (30_encoding.md R63). -/
def resultCode : Result → BitVec 3
  | .ok => 0#3
  | .nullReference => 1#3
  | .unsupportedCommand => 2#3
  | .invalidFrame => 3#3
  | .outOfBounds => 4#3
  | .bufferFull => 5#3
  | .invalidArgument => 6#3

/-- The 2-bit code of the decoder's state register (10_state.md R12). -/
def stateCode : DecoderState → BitVec 2
  | .cmd => 0#2
  | .cmdData => 1#2
  | .ready => 2#2

end Sys2Proof.Machine
end

