-- ==== Sys2Proof/WellFormed.lean ====
section
/-! DEFINITION. Which instructions are well formed: those that an encoding stands for and that no other row of the
opcode table stands for. Operand widths are in the types; what is left is checked here. -/

namespace Sys2Proof

/-- A group of a capability response has a first pair, and no later pair's mode is 0x7F, which a reader of the
message takes for the separator (R60, log 21, DESIGN CHOICE: the encoder emits such a mode, the decoder of
messages cannot read it back). -/
def groupWellFormed : List CapPair → Bool
  | [] => false
  | _ :: later => later.all fun pair => pair.1 != 0x7F#7

/-- Well-formedness of an instruction under the engine's parameters. -/
def wellFormed (p : Params) : Instr → Bool
  | .analogIo _ _ => true
  | .digitalIo _ _ => true
  | .reportAnalog _ _ => true
  | .reportDigital _ _ => true
  | .setPinMode _ _ => true
  | .setPinValue _ _ => true
  | .protocolVersion => true
  | .systemReset => true
  -- The two query frames have rows of their own (R101, R102).
  | .sysex body => body != [p.analogMappingQueryId] && body != [Config.capabilityQueryId]
  | .analogMappingQuery => true
  | .capabilityQuery => true
  | .analogMessage _ _ => true
  | .digitalMessage _ _ => true
  | .versionReply => true
  -- STRING_DATA has one pair at least; its sub-id tells it from the two responses (log 28).
  | .stringData chars =>
    !chars.isEmpty && p.stringDataId.setWidth 8 != Config.mappingResponseId
      && p.stringDataId.setWidth 8 != Config.capabilityResponseId
  | .capabilityResponse groups => !groups.isEmpty && groups.all groupWellFormed
  | .analogMappingResponse entries => !entries.isEmpty
  | .init _ => true
  | .attach _ _ => true
  | .feed _ _ => true
  | .feedBulk _ _ => true
  | .decode14 _ _ _ => true
  | .encode14 _ _ _ _ => true
  | .append _ _ => true
  | .flush _ => true
  | .sendAnalog _ _ _ => true
  | .sendDigital _ _ _ => true
  | .sendString _ _ => true
  | .sendCapability _ _ => true
  | .sendAnalogMapping _ _ => true

/-- The parameters' own check: what `Params` carries as proofs, on raw numbers (R6, D5, D12). -/
def paramsWellFormed (inCap outCap : Nat) (analogMappingQueryId : Data7) : Bool :=
  3 ≤ inCap && 1 ≤ outCap && analogMappingQueryId != Config.capabilityQueryId

end Sys2Proof
end

