-- ==== Sys2Proof/Decode.lean ====
section
/-! DEFINITION. The decoder, total on every word, and the encoder beside it, both written from the formats of
30_encoding.md R51 to R62. The bit-field helpers stand here too. -/

namespace Sys2Proof

/-! ### Bit fields (R7, R50, R52) -/

/-- `b[7:4]`. -/
def hiNibble (b : Byte) : Nibble := b.extractLsb' 4 4

/-- `b[3:0]`, the channel of a nibble-addressed command (R52). -/
def loNibble (b : Byte) : Nibble := b.extractLsb' 0 4

/-- A command byte has bit 7 set (R50). -/
def isCommand (b : Byte) : Bool := b.msb

/-- The payload `b[6:0]` of a data byte. -/
def payload7 (b : Byte) : Data7 := b.setWidth 7

/-- The data byte with that payload: bit 7 clear. -/
def dataByte (d : Data7) : Byte := d.setWidth 8

/-- The payload of a data byte, nothing for a command byte. -/
def dataOf? (b : Byte) : Option Data7 := if isCommand b then none else some (payload7 b)

/-- Value bits 6:0 as a data byte: `value & 0x7F` (R56). -/
def low7 (v : Half) : Byte := (v &&& 0x7F#16).setWidth 8

/-- Value bits 13:7 as a data byte: `(value >> 7) & 0x7F` (R56). -/
def high7 (v : Half) : Byte := ((v >>> 7) &&& 0x7F#16).setWidth 8

/-- `(msb << 7) | lsb` over 16 bits, with no masking (42_value_codec.md R110). -/
def joinPair (lsb msb : Byte) : Half := (msb.setWidth 16 <<< 7) ||| lsb.setWidth 16

/-- `base | nibble` (42_value_codec.md R113). -/
def nibbleCommand (base : Byte) (n : Nibble) : Byte := base ||| n.setWidth 8

/-- A character widened to its pair: `c & 0x7F`, `(c >> 7) & 0x7F` (44_output_encoders.md R133, D19). -/
def charPair (c : Byte) : List Byte := [c &&& 0x7F#8, (c >>> 7) &&& 0x7F#8]

/-- `BodyLen(b)` (40_frame_decoder.md R71, 30_encoding.md R53). -/
def bodyLen (b : Byte) : Option Remaining :=
  if hiNibble b = 0xE#4 ∨ hiNibble b = 0x9#4 ∨ b = 0xF4#8 ∨ b = 0xF5#8 then some .two
  else if hiNibble b = 0xC#4 ∨ hiNibble b = 0xD#4 then some .one
  else if b = 0xF9#8 ∨ b = 0xFF#8 then some .zero
  else if b = Config.sysexStart then some .unbounded
  else none

/-! ### The bytes of frames and messages (R51, R60) -/

/-- Format F3N, and the analog and digital messages: a nibble command and a 14-bit value. -/
def valueFrame (base : Byte) (n : Nibble) (v : Value14) : List Byte :=
  [nibbleCommand base n, low7 (v.setWidth 16), high7 (v.setWidth 16)]

/-- Format F2N. -/
def reportFrame (base : Byte) (n : Nibble) (enabled : Data7) : List Byte :=
  [nibbleCommand base n, dataByte enabled]

/-- Format F3B. -/
def pinFrame (cmd : Byte) (pin x : Data7) : List Byte := [cmd, dataByte pin, dataByte x]

/-- Format FX. -/
def sysexFrame (body : List Data7) : List Byte :=
  Config.sysexStart :: (body.map dataByte ++ [Config.sysexEnd])

/-- VERSION_REPLY (R60). -/
def versionMessage : List Byte := [0xF9#8, Config.versionMajor, Config.versionMinor]

/-- STRING_DATA (R60). -/
def stringMessage (p : Params) (chars : List Byte) : List Byte :=
  Config.sysexStart :: dataByte p.stringDataId :: (chars.flatMap charPair ++ [Config.sysexEnd])

/-- The pairs of one pin, and the separator after them (R60). -/
def groupBytes (group : List CapPair) : List Byte :=
  (group.flatMap fun pair => [dataByte pair.1, dataByte pair.2]) ++ [Config.separator]

/-- CAPABILITY_RESPONSE (R60). -/
def capabilityMessage (groups : List (List CapPair)) : List Byte :=
  Config.sysexStart :: Config.capabilityResponseId :: (groups.flatMap groupBytes ++ [Config.sysexEnd])

/-- One entry of a mapping: 0x7F for "not analog", else the channel (R60, R61). -/
def entryByte : Option Nibble → Byte
  | none => Config.separator
  | some channel => channel.setWidth 8

/-- ANALOG_MAPPING_RESPONSE (R60). -/
def mappingMessage (entries : List (Option Nibble)) : List Byte :=
  Config.sysexStart :: Config.mappingResponseId :: (entries.map entryByte ++ [Config.sysexEnd])

/-! ### Inbound frames (R51 to R58) -/

/-- The data bytes before a terminator that ends the list. -/
def untilTerminator : List Byte → Except DecodeError (List Data7)
  | [] => .error .unterminated
  | b :: rest =>
    match dataOf? b with
    | some d =>
      match untilTerminator rest with
      | .ok body => .ok (d :: body)
      | .error e => .error e
    | none =>
      if b = Config.sysexEnd then
        match rest with
        | [] => .ok []
        | _ :: _ => .error .wrongLength
      else .error .commandByteInBody

/-- Which SysEx row a body stands for (R58, R99). -/
def sysexInstr (p : Params) (body : List Data7) : Instr :=
  if body = [p.analogMappingQueryId] then .analogMappingQuery
  else if body = [Config.capabilityQueryId] then .capabilityQuery
  else .sysex body

/-- The row of a frame with two body bytes, from its command byte (R53). -/
def twoByteInstr (c : Byte) (x y : Data7) : Instr :=
  if hiNibble c = 0xE#4 then .analogIo (loNibble c) ((joinPair (dataByte x) (dataByte y)).setWidth 14)
  else if hiNibble c = 0x9#4 then .digitalIo (loNibble c) ((joinPair (dataByte x) (dataByte y)).setWidth 14)
  else if c = 0xF4#8 then .setPinMode x y
  else .setPinValue x y

/-- One whole inbound frame (R51, R53). -/
def decodeFrame (p : Params) : List Byte → Except DecodeError Instr
  | [] => .error .empty
  | c :: body =>
    if isCommand c = false then .error (.dataByteFirst c)
    else
      match bodyLen c with
      | none => .error (.noSuchCommand c)
      | some .two =>
        match body with
        | [b, b'] =>
          match dataOf? b, dataOf? b' with
          | some x, some y => .ok (twoByteInstr c x y)
          | _, _ => .error .commandByteInBody
        | _ => .error .wrongLength
      | some .one =>
        match body with
        | [b] =>
          match dataOf? b with
          | some x => .ok (if hiNibble c = 0xC#4 then .reportAnalog (loNibble c) x else .reportDigital (loNibble c) x)
          | none => .error .commandByteInBody
        | _ => .error .wrongLength
      | some .zero =>
        match body with
        | [] => .ok (if c = 0xF9#8 then .protocolVersion else .systemReset)
        | _ :: _ => .error .wrongLength
      | some .unbounded =>
        match untilTerminator body with
        | .ok body => .ok (sysexInstr p body)
        | .error e => .error e

/-! ### Outbound messages (R60) -/

/-- The character of a pair; the engine's characters are bytes, so the second byte is 0 or 1 (R133). -/
def pairChar? (l h : Byte) : Option Byte :=
  if isCommand l = false ∧ h ≤ 1#8 then some ((h <<< 7) ||| l) else none

/-- The pairs of STRING_DATA up to the terminator. -/
def decodeChars : List Byte → Except DecodeError (List Byte)
  | [] => .error .unterminated
  | [b] => if b = Config.sysexEnd then .ok [] else .error .unterminated
  | l :: h :: rest =>
    match pairChar? l h with
    | some c =>
      match decodeChars rest with
      | .ok cs => .ok (c :: cs)
      | .error e => .error e
    | none => .error .noSuchMessage

/-- The groups of CAPABILITY_RESPONSE up to the terminator; `cur` holds the pairs of the group being read, and is
empty at a group's start, where 0x7F is no separator. -/
def decodeGroups (cur : List CapPair) : List Byte → Except DecodeError (List (List CapPair))
  | [] => .error .unterminated
  | [b] => if b = Config.sysexEnd ∧ cur = [] then .ok [] else .error .unterminated
  | b :: c :: rest =>
    if b = Config.separator ∧ cur ≠ [] then
      match decodeGroups [] (c :: rest) with
      | .ok gs => .ok (cur :: gs)
      | .error e => .error e
    else
      match dataOf? b, dataOf? c with
      | some m, some r => decodeGroups (cur ++ [(m, r)]) rest
      | _, _ => .error .noSuchMessage

/-- A mapping entry: 0x7F, or a channel up to 0x0F (R135). -/
def entryOf? (b : Byte) : Option (Option Nibble) :=
  if b = Config.separator then some none
  else if b ≤ Config.maxPin then some (some (loNibble b))
  else none

/-- The entries of ANALOG_MAPPING_RESPONSE up to the terminator. -/
def decodeEntries : List Byte → Except DecodeError (List (Option Nibble))
  | [] => .error .unterminated
  | b :: rest =>
    match entryOf? b with
    | some e =>
      match decodeEntries rest with
      | .ok es => .ok (e :: es)
      | .error why => .error why
    | none =>
      if b = Config.sysexEnd ∧ rest = [] then .ok [] else .error .noSuchMessage

/-- A non-empty list, or no such message (R133 to R135: an empty one is never composed). -/
def nonEmpty {α : Type} (x : Except DecodeError (List α)) (make : List α → Instr) : Except DecodeError Instr :=
  match x with
  | .ok [] => .error .noSuchMessage
  | .ok (a :: as) => .ok (make (a :: as))
  | .error e => .error e

/-- One whole outbound message (R60). -/
def decodeMessage (p : Params) : List Byte → Except DecodeError Instr
  | [] => .error .empty
  | c :: body =>
    if hiNibble c = 0xE#4 ∨ hiNibble c = 0x9#4 then
      match body with
      | [b, b'] =>
        match dataOf? b, dataOf? b' with
        | some x, some y =>
          let v : Value14 := (joinPair (dataByte x) (dataByte y)).setWidth 14
          .ok (if hiNibble c = 0xE#4 then .analogMessage (loNibble c) v else .digitalMessage (loNibble c) v)
        | _, _ => .error .commandByteInBody
      | _ => .error .wrongLength
    else if c = 0xF9#8 then
      if c :: body = versionMessage then .ok .versionReply else .error .noSuchMessage
    else if c = Config.sysexStart then
      match body with
      | [] => .error .unterminated
      | id :: rest =>
        if id = Config.mappingResponseId then nonEmpty (decodeEntries rest) .analogMappingResponse
        else if id = Config.capabilityResponseId then nonEmpty (decodeGroups [] rest) .capabilityResponse
        else if id = dataByte p.stringDataId then nonEmpty (decodeChars rest) .stringData
        else .error .noSuchMessage
    else .error .noSuchMessage

/-! ### Interface operations (R62) -/

/-- The operation a select code stands for, with the operands it has. -/
def decodeOp (code : BitVec 4) (a : Args) : Except DecodeError Instr :=
  if code = 0x0#4 then .ok (.init a.ctx)
  else if code = 0x1#4 then .ok (.attach a.ctx a.table)
  else if code = 0x2#4 then .ok (.feed a.ctx a.byte)
  else if code = 0x3#4 then .ok (.feedBulk a.ctx a.bytes)
  else if code = 0x4#4 then .ok (.decode14 a.buf a.len a.offset)
  else if code = 0x5#4 then .ok (.encode14 a.buf a.len a.offset a.value)
  else if code = 0x6#4 then .ok (.append a.ctx a.byte)
  else if code = 0x7#4 then .ok (.flush a.ctx)
  else if code = 0x8#4 then .ok (.sendAnalog a.ctx a.byte a.value)
  else if code = 0x9#4 then .ok (.sendDigital a.ctx a.byte a.value)
  else if code = 0xA#4 then .ok (.sendString a.ctx a.bytes)
  else if code = 0xB#4 then .ok (.sendCapability a.ctx a.recs)
  else if code = 0xC#4 then .ok (.sendAnalogMapping a.ctx a.bytes)
  else .error (.unassignedOperation code)

/-- The instruction a word stands for. -/
def decode (p : Params) : InstrWord → Except DecodeError Instr
  | .op code args => decodeOp code args
  | .wire bytes => decodeFrame p bytes
  | .message bytes => decodeMessage p bytes

/-! ### The encoder -/

/-- The word of an instruction, from the same tables. -/
def encode (p : Params) : Instr → InstrWord
  | .analogIo channel value => .wire (valueFrame 0xE0#8 channel value)
  | .digitalIo channel value => .wire (valueFrame 0x90#8 channel value)
  | .reportAnalog channel enabled => .wire (reportFrame 0xC0#8 channel enabled)
  | .reportDigital channel enabled => .wire (reportFrame 0xD0#8 channel enabled)
  | .setPinMode pin mode => .wire (pinFrame 0xF4#8 pin mode)
  | .setPinValue pin value => .wire (pinFrame 0xF5#8 pin value)
  | .protocolVersion => .wire [0xF9#8]
  | .systemReset => .wire [0xFF#8]
  | .sysex body => .wire (sysexFrame body)
  | .analogMappingQuery => .wire (sysexFrame [p.analogMappingQueryId])
  | .capabilityQuery => .wire (sysexFrame [Config.capabilityQueryId])
  | .analogMessage pin value => .message (valueFrame 0xE0#8 pin value)
  | .digitalMessage port value => .message (valueFrame 0x90#8 port value)
  | .versionReply => .message versionMessage
  | .stringData chars => .message (stringMessage p chars)
  | .capabilityResponse groups => .message (capabilityMessage groups)
  | .analogMappingResponse entries => .message (mappingMessage entries)
  | .init ctx => .op 0x0#4 { ctx := ctx }
  | .attach ctx table => .op 0x1#4 { ctx := ctx, table := table }
  | .feed ctx b => .op 0x2#4 { ctx := ctx, byte := b }
  | .feedBulk ctx bytes => .op 0x3#4 { ctx := ctx, bytes := bytes }
  | .decode14 buf len offset => .op 0x4#4 { buf := buf, len := len, offset := offset }
  | .encode14 buf len offset value => .op 0x5#4 { buf := buf, len := len, offset := offset, value := value }
  | .append ctx b => .op 0x6#4 { ctx := ctx, byte := b }
  | .flush ctx => .op 0x7#4 { ctx := ctx }
  | .sendAnalog ctx pin value => .op 0x8#4 { ctx := ctx, byte := pin, value := value }
  | .sendDigital ctx port value => .op 0x9#4 { ctx := ctx, byte := port, value := value }
  | .sendString ctx s => .op 0xA#4 { ctx := ctx, bytes := s }
  | .sendCapability ctx recs => .op 0xB#4 { ctx := ctx, recs := recs }
  | .sendAnalogMapping ctx map => .op 0xC#4 { ctx := ctx, bytes := map }

/-! ### The opcode table's numbering (log 25) -/

/-- The first bytes of a frame, continued by zero operand bytes to a whole frame; a SysEx frame is closed by its
fixed terminator, after a zero sub-id where it has none. -/
def completeFrame : List Byte → List Byte
  | [] => []
  | c :: body =>
    match bodyLen c with
    | some .two => c :: (body ++ List.replicate (2 - body.length) 0#8)
    | some .one => c :: (body ++ List.replicate (1 - body.length) 0#8)
    | some .unbounded =>
      if body.getLast? = some Config.sysexEnd then c :: body
      else if body = [] then [c, 0#8, Config.sysexEnd]
      else c :: (body ++ [Config.sysexEnd])
    | _ => c :: body

/-- The first `n` bytes of a number, the least significant first. -/
def numberBytes : Nat → Nat → List Byte
  | 0, _ => []
  | n + 1, w => BitVec.ofNat 8 w :: numberBytes n (w / 256)

/-- A message of format FX with zero operand bytes, from its first two bytes. -/
def completeMessage (c id : Byte) : List Byte :=
  if id = Config.capabilityResponseId then [c, id, 0#8, 0#8, Config.separator, Config.sysexEnd]
  else if id = Config.mappingResponseId then [c, id, 0#8, Config.sysexEnd]
  else [c, id, 0#8, 0#8, Config.sysexEnd]

/-- The word that `nbits` bits of the opcode table stand for. The table's rows match on different things: the 4-bit
select code, the first byte of a frame, the sub-id of a SysEx frame, or (in 16 bits, "byte 0 in the high half") the
first two bytes of a message. Rows whose bits are the same are read as the inbound frame (log 25). -/
def tableWord (nbits w : Nat) : InstrWord :=
  let b : Byte := BitVec.ofNat 8 w
  if nbits ≤ 8 then
    if hiNibble b = 0#4 then .op (loNibble b) Args.zero
    else if isCommand b then .wire (completeFrame [b])
    else .wire (sysexFrame [payload7 b])
  else if nbits ≤ 16 ∧ isCommand b = false then .message (completeMessage (BitVec.ofNat 8 (w / 256)) b)
  else .wire (completeFrame (numberBytes ((nbits + 7) / 8) w))

/-- What the decoder reads from an opcode-table word, under the parameters of the reset machine. -/
def decodeTableWord (nbits w : Nat) : Option Instr :=
  match decode Config.default (tableWord nbits w) with
  | .ok i => some i
  | .error _ => none

end Sys2Proof
end

