-- ==== Sys2Proof/Machine/Operands.lean ====
section
/-! DEFINITION. The operand forms of 30_encoding.md R55: how an operand is assembled from bytes, which callback a
slot names, and how the records and entries of a composite encoder become bytes. -/

namespace Sys2Proof.Machine

/-- `channel`: the command byte's low nibble, zero-extended to a byte (R55). -/
def channelOf (cmd : Byte) : Byte := (loNibble cmd).setWidth 8

/-- `enabled`, `mode` and `value` of a single body byte, widened to 16 bits (R55). -/
def widen (b : Byte) : Half := b.setWidth 16

/-- The callback in a three-argument slot (10_state.md R20). -/
def commandCallback (t : HandlerTable) : CommandSlot → Option Callback
  | .analogIO => t.analogIO
  | .digitalIO => t.digitalIO
  | .reportAnalog => t.reportAnalog
  | .reportDigital => t.reportDigital
  | .setPinMode => t.setPinMode
  | .setPinValue => t.setPinValue

/-- The callback in a SysEx query slot (10_state.md R20). -/
def queryCallback (t : HandlerTable) : QuerySlot → Option Callback
  | .analogMappingQuery => t.analogMappingQuery
  | .capabilityQuery => t.capabilityQuery

/-- A pin or port, and a value, that a status message can carry (44_output_encoders.md R131). -/
def statusInRange (pin : Byte) (value : Half) : Bool := pin ≤ Config.maxPin && value ≤ Config.maxValue

/-- The bytes of a status message: `base | pin` and the two value bytes (R131, R132). -/
def statusBytes (base pin : Byte) (value : Half) : List Byte := [base ||| pin, low7 value, high7 value]

/-- `CAP_RECORD_VALID` (R134, D18): the default predicate, or the implementation's own (a free value, log 13). -/
def capRecordValid (p : Params) (r : CapRecord) : Bool :=
  match p.capRule with
  | .dataBytes => r.mode ≤ 0x7F#8 && r.resolution ≤ 0x7F#8
  | .implementation => Config.capRecordValid r

/-- The separator that stands before a record: one where the pin differs from the record before it (R134). -/
def separatorBefore (previous : Option Byte) (r : CapRecord) : List Byte :=
  match previous with
  | none => []
  | some pin => if r.pin = pin then [] else [Config.separator]

/-- What SEND_CAPABILITY appends for each record in turn, or nothing where the record is not valid (R134). Validation
of a record precedes its separator (D18). -/
def capPieces (p : Params) (previous : Option Byte) : List CapRecord → List (Option (List Byte))
  | [] => []
  | r :: rest =>
    (if capRecordValid p r then some (separatorBefore previous r ++ [r.mode, r.resolution]) else none)
      :: capPieces p (some r.pin) rest

/-- An entry of a mapping table that SEND_ANALOG_MAPPING accepts (R135). -/
def mappingEntryValid (e : Byte) : Bool := e = Config.separator || e ≤ Config.maxPin

/-- What SEND_ANALOG_MAPPING appends for each entry in turn, or nothing where the entry is not valid (R135). -/
def mapPieces (map : List Byte) : List (Option (List Byte)) :=
  map.map fun e => if mappingEntryValid e then some [e] else none

end Sys2Proof.Machine
end

