-- ==== Sys2Proof/Machine/Ops.lean ====
section
/-! DEFINITION. The named operations over memory and registers that every meaning is made of: the byte memories
(00_scope.md R8), the named updates of the state, the codec's pair access (42_value_codec.md), the decoder's reset,
abort and store (40_frame_decoder.md R72, R73), the output buffer (43_output_buffer.md), the composition of messages
(44_output_encoders.md R130, R138), and how an operation enters a Context and returns its Result. -/

namespace Sys2Proof.Machine

/-! ### Byte memories (R8, R30) -/

/-- `M[a]`: an unlisted address reads as 0x00. -/
def memRead : Memory → Nat → Byte
  | [], _ => 0#8
  | (k, b) :: rest, a => if k = a then b else memRead rest a

/-- `M[a] <- b`, keeping the canonical form: 0x00 is never listed. -/
def memWrite : Memory → Nat → Byte → Memory
  | [], a, b => if b = 0#8 then [] else [(a, b)]
  | (k, x) :: rest, a, b =>
    if a < k then (if b = 0#8 then (k, x) :: rest else (a, b) :: (k, x) :: rest)
    else if a = k then (if b = 0#8 then rest else (a, b) :: rest)
    else (k, x) :: memWrite rest a b

/-- `MemRead(M, a, n)`: the `n` bytes from `a`, in index order. -/
def memSlice (m : Memory) (a : Nat) : Nat → List Byte
  | 0 => []
  | n + 1 => memRead m a :: memSlice m (a + 1) n

/-- Every listed address is at least `lo`, the addresses rise strictly, and no listed byte is 0x00. -/
def memWfFrom (lo : Nat) : Memory → Bool
  | [] => true
  | (a, b) :: rest => decide (lo ≤ a) && b != 0#8 && memWfFrom (a + 1) rest

/-- The canonical form of a memory. -/
def Memory.wf (m : Memory) : Bool := memWfFrom 0 m

/-- No byte at or above the capacity is listed. -/
def memWithin (cap : Nat) (m : Memory) : Bool := m.all fun cell => cell.1 < cap

/-! ### Named updates of the Context -/

/-- The three decoder registers (R72). -/
def Context.setDecoder (c : Context) (st : DecoderState) (n : Remaining) (cursor : Nat) : Context :=
  { c with state := st, remainingCount := n, inputCursor := cursor }

/-- `in[input_cursor] <- b; input_cursor <- input_cursor + 1` (R73). -/
def Context.pushIn (c : Context) (b : Byte) : Context :=
  { c with inputBuf := memWrite c.inputBuf c.inputCursor b, inputCursor := c.inputCursor + 1 }

/-- `out[output_cursor] <- b; output_cursor <- output_cursor + 1` (R120). -/
def Context.pushOut (c : Context) (b : Byte) : Context :=
  { c with outputBuf := memWrite c.outputBuf c.outputCursor b, outputCursor := c.outputCursor + 1 }

/-- `output_cursor <- n`. -/
def Context.setOutputCursor (c : Context) (n : Nat) : Context := { c with outputCursor := n }

/-- The whole handler table at once (R20, R146). -/
def Context.setHandlers (c : Context) (t : HandlerTable) : Context := { c with handlers := t }

/-- `user_data`, written by the caller (R21). -/
def Context.setUserData (c : Context) (v : Nat) : Context := { c with userData := v }

/-! ### Named updates of the state -/

def State.setCtx (s : State) (c : Context) : State := { s with ctx := c }

def State.setCallerMem (s : State) (m : Memory) : State := { s with callerMem := m }

/-- One more event at the end of the trace (10_state.md R23). -/
def State.emit (s : State) (e : Event) : State := { s with trace := s.trace ++ [e] }

/-- One more reply to the caller. -/
def State.answer (s : State) (r : Reply) : State := { s with replies := s.replies ++ [r] }

/-- One more reply to the handler that issued the operation (60_exceptions.md R171). -/
def State.answerHandler (s : State) (r : Reply) : State := { s with handlerReplies := s.handlerReplies ++ [r] }

/-- One more invocation of the sink (log 11). -/
def State.countSink (s : State) : State := { s with sinkCalls := s.sinkCalls + 1 }

def State.setScripts (s : State) (l : List (List HandlerOp)) : State := { s with scripts := l }

def State.setRequests (s : State) (l : List Request) : State := { s with requests := l }

/-! ### The codec's access to a pair of bytes (42_value_codec.md R110, R111) -/

/-- `InBounds(len, offset)`, over the integers (R110). -/
def inBounds (len : Nat) (offset : Int) : Bool := decide (0 ≤ offset) && decide (offset + 1 < (len : Int))

/-- DECODE14 on the array that begins at `buf` in `m`: nothing when out of bounds (R110). -/
def decodePair (m : Memory) (buf len : Nat) (offset : Int) : Option Half :=
  if inBounds len offset then
    some (joinPair (memRead m (buf + offset.toNat)) (memRead m (buf + offset.toNat + 1)))
  else none

/-- ENCODE14 on the array that begins at `buf` in `m`: nothing when out of bounds, both bytes otherwise (R111). -/
def encodePair (m : Memory) (buf len : Nat) (offset : Int) (value : Half) : Option Memory :=
  if inBounds len offset then
    some (memWrite (memWrite m (buf + offset.toNat) (low7 value)) (buf + offset.toNat + 1) (high7 value))
  else none

/-- DECODE14 as an operation on the caller's storage: its Result and its value. -/
def decode14 (buf len : Nat) (offset : Int) (s : State) : Reply :=
  match decodePair s.callerMem buf len offset with
  | some v => { result := .ok, value := some v }
  | none => { result := .outOfBounds }

/-- ENCODE14 as an operation on the caller's storage. -/
def encode14 (buf len : Nat) (offset : Int) (value : Half) (s : State) : Result × State :=
  match encodePair s.callerMem buf len offset value with
  | some m => (.ok, s.setCallerMem m)
  | none => (.outOfBounds, s)

/-! ### The decoder's reset, abort and store (40_frame_decoder.md R72, R73) -/

/-- RESET_DECODER: exactly the three decoder registers (R72). -/
def resetDecoder (s : State) : State := s.setCtx (s.ctx.setDecoder .cmd .zero 0)

/-- TAKING AN ERROR in the decoder, `ABORT(E)` (R72, 60_exceptions.md R169): the decoder resets, the error is the
result, and nothing else changes. -/
def abort (e : Result) (s : State) : Result × State := (e, resetDecoder s)

/-- IN_APPEND (R73): the error is raised before anything is stored. -/
def inAppend (b : Byte) (s : State) : Except Result State :=
  if s.ctx.inputCursor = s.params.inCap then .error .bufferFull
  else .ok (s.setCtx (s.ctx.pushIn b))

/-- `remaining_count - 1`; `UNBOUNDED` is never decremented (10_state.md R13). -/
def countDown : Remaining → Remaining
  | .zero => .zero
  | .one => .zero
  | .two => .one
  | .unbounded => .unbounded

/-! ### The output buffer (43_output_buffer.md) -/

/-- The bytes appended and not yet flushed, `out[0..output_cursor-1]` (20_memory.md R32). -/
def pendingOut (s : State) : List Byte := memSlice s.ctx.outputBuf 0 s.ctx.outputCursor

/-- What FLUSH and APPEND return of a sink call: the sink's Result only under `SINK_RESULT_PROPAGATES` (R123). -/
def sinkAnswer (s : State) : Result :=
  if s.params.sinkResultPropagates then Config.sinkResult s.sinkCalls else .ok

/-- FLUSH (R121, R122): one sink call with the pending bytes when there are any and a sink is present; the cursor is
reset in every case. -/
def flush (s : State) : Result × State :=
  match s.ctx.handlers.output with
  | none => (.ok, s.setCtx (s.ctx.setOutputCursor 0))
  | some callee =>
    if s.ctx.outputCursor = 0 then (.ok, s.setCtx (s.ctx.setOutputCursor 0))
    else
      (sinkAnswer s,
        (((s.emit (.sink callee s.ctx.userData (pendingOut s))).countSink).setCtx (s.ctx.setOutputCursor 0)))

/-- The store at the end of APPEND (R120). -/
def storeOut (b : Byte) (s : State) : State := s.setCtx (s.ctx.pushOut b)

/-- APPEND (R120): a full buffer is flushed before the byte is stored; the Result is the inner FLUSH's (R123). -/
def append (b : Byte) (s : State) : Result × State :=
  if s.ctx.outputCursor = s.params.outCap then ((flush s).1, storeOut b (flush s).2)
  else (.ok, storeOut b s)

/-- Two operations in sequence; the first error of the two is the Result (R123). -/
def andThen (x : Result × State) (f : State → Result × State) : Result × State :=
  (firstError x.1 (f x.2).1, (f x.2).2)

/-- APPEND of each byte in turn. -/
def appendAll : List Byte → State → Result × State
  | [], s => (.ok, s)
  | b :: rest, s => andThen (append b s) (appendAll rest)

/-- A whole message of a composite encoder: APPEND of each byte, then the unconditional FLUSH (44_output_encoders.md
R130); the first error met is the Result (R123). -/
def emitMessage (bytes : List Byte) (s : State) : Result × State := andThen (appendAll bytes s) flush

/-- The engine's own reply: APPEND of each byte, then `return FLUSH()` (41_dispatch.md R97): the last FLUSH's Result. -/
def emitReply (bytes : List Byte) (s : State) : Result × State := flush (appendAll bytes s).2

/-! ### Composing with validation on the way (44_output_encoders.md R134, R135, R138) -/

/-- How the pieces of a message went: all appended, or one found invalid after the earlier ones were appended. -/
inductive Composed where
  | done (r : Result) (s : State)
  | failed (s : State)

/-- APPEND the bytes of each piece in turn, up to the first piece that is not valid. -/
def appendPieces : List (Option (List Byte)) → Result → State → Composed
  | [], r, s => .done r s
  | none :: _, _, s => .failed s
  | some bytes :: rest, r, s => appendPieces rest (firstError r (appendAll bytes s).1) (appendAll bytes s).2

/-- FAIL_MID (R138): what happens to the bytes still buffered, by `ENC_FAIL_POLICY`; the error is returned (log 12). -/
def failMid (e : Result) (s : State) : Result × State :=
  match s.params.encFailPolicy with
  | .leave => (e, s)
  | .flush => (e, (flush s).2)
  | .discard => (e, s.setCtx (s.ctx.setOutputCursor 0))

/-- The head of a message, its pieces, its tail, and the final FLUSH; FAIL_MID at the first invalid piece. -/
def composeChecked (head : List Byte) (pieces : List (Option (List Byte))) (tail : List Byte) (s : State) :
    Result × State :=
  match appendPieces pieces (appendAll head s).1 (appendAll head s).2 with
  | .failed s' => failMid .invalidArgument s'
  | .done r s' => andThen (r, s') (emitMessage tail)

/-! ### The Context between operations (10_state.md R25) -/

/-- A frame is pending as R25 says: the cursor within the buffer, an accepted command byte with a body at `in[0]`,
data bytes after it, and `remaining_count` what the frame still needs. -/
def pendingFrame (p : Params) (c : Context) : Bool :=
  decide (1 ≤ c.inputCursor) && decide (c.inputCursor ≤ p.inCap) && isCommand (memRead c.inputBuf 0)
    && (memSlice c.inputBuf 1 (c.inputCursor - 1)).all (fun b => !isCommand b)
    && match bodyLen (memRead c.inputBuf 0), c.remainingCount with
      | some .unbounded, .unbounded => true
      | some .two, .two => c.inputCursor == 1
      | some .two, .one => c.inputCursor == 2
      | some .one, .one => c.inputCursor == 1
      | _, _ => false

/-- What holds of the Context after INIT and after every later operation has returned (R25). -/
def betweenOperations (p : Params) (c : Context) : Bool :=
  decide (c.outputCursor ≤ p.outCap)
    && match c.state with
      | .cmd => c.remainingCount == .zero && c.inputCursor == 0
      | .cmdData => pendingFrame p c
      | .ready => false

/-- How an operation enters the Context. A Context that INIT and the operations can not have left has no defined
meaning (R27, U1; R83, U4; R14, R15) and stops the machine (log 9). -/
def enter (s : State) (k : State → Host.Outcome State Fault Refusal) : Host.Outcome State Fault Refusal :=
  if s.params.inCap < s.ctx.inputCursor ∨ s.params.outCap < s.ctx.outputCursor then .fault .cursorOutsideBuffer
  else if s.ctx.state = .ready then .refused .decoderReady
  else if betweenOperations s.params s.ctx then k s
  else .refused .uninitialisedContext

/-- An operation returns: its reply goes to the caller (60_exceptions.md R160). -/
def finish (r : Reply) (s : State) : Host.Outcome State Fault Refusal := .next (s.answer r)

/-- An operation that ended with a Result and a state. -/
def finishWith (x : Result × State) : Host.Outcome State Fault Refusal := finish { result := x.1 } x.2

/-- An operation on a Context reference: an absent one is `NullReference`, tested first, with no other effect
(60_exceptions.md R161, R168). -/
def withContext (ctx : Ref) (s : State) (f : State → Result × State) : Host.Outcome State Fault Refusal :=
  match ctx with
  | .absent => finish { result := .nullReference } s
  | .present => enter s fun s => finishWith (f s)

/-- The next request of the caller, and the state without it (log 2). -/
def fetch (s : State) : Option (Request × State) :=
  match s.requests with
  | [] => none
  | r :: rest => some (r, s.setRequests rest)

/-- The caller writes `user_data` (10_state.md R21). -/
def callerSetsUserData (v : Nat) (s : State) : State := s.setCtx (s.ctx.setUserData v)

/-- The caller writes a byte of its own storage. -/
def callerStores (addr : Nat) (b : Byte) (s : State) : State := s.setCallerMem (memWrite s.callerMem addr b)

end Sys2Proof.Machine
end

