-- ==== Sys2Proof/Machine/Buffer.lean ====
section
/-! DEFINITION. APPEND and FLUSH as interface operations (43_output_buffer.md R120, R121, R126). -/

namespace Sys2Proof.Machine

/-- APPEND (R120). -/
def execAppend (ctx : Ref) (b : Byte) (s : State) : Host.Outcome State Fault Refusal :=
  withContext ctx s (append b)

/-- FLUSH (R121, R122). -/
def execFlush (ctx : Ref) (s : State) : Host.Outcome State Fault Refusal := withContext ctx s flush

end Sys2Proof.Machine
end

