-- ==== Sys2Proof/Machine/Codec.lean ====
section
/-! DEFINITION. DECODE14 and ENCODE14 (42_value_codec.md R110, R111). They touch no field of the Context and need no
initialised one (70_reset_and_hazards.md R182). -/

namespace Sys2Proof.Machine

/-- DECODE14 (R110). -/
def execDecode14 (buf len : Nat) (offset : Int) (s : State) : Host.Outcome State Fault Refusal :=
  finish (decode14 buf len offset s) s

/-- ENCODE14 (R111). -/
def execEncode14 (buf len : Nat) (offset : Int) (value : Half) (s : State) : Host.Outcome State Fault Refusal :=
  finishWith (encode14 buf len offset value s)

end Sys2Proof.Machine
end

