-- ==== Sys2Proof/Machine/Encoders.lean ====
section
/-! DEFINITION. The composite output encoders (44_output_encoders.md R130 to R139). Each is an operation on the state
first, since a command handler may issue it too, and an interface operation over it. -/

namespace Sys2Proof.Machine

/-- The two status messages (R131, R132): both ranges are tested before any write. -/
def sendStatus (base pin : Byte) (value : Half) (s : State) : Result × State :=
  if statusInRange pin value then emitMessage (statusBytes base pin value) s else (.invalidArgument, s)

/-- SEND_ANALOG's effect (R131). -/
def sendAnalog (pin : Byte) (value : Half) (s : State) : Result × State := sendStatus 0xE0#8 pin value s

/-- SEND_DIGITAL's effect (R132). -/
def sendDigital (port : Byte) (value : Half) (s : State) : Result × State := sendStatus 0x90#8 port value s

/-- SEND_STRING's effect (R133): an empty string is refused before any write. -/
def sendString (str : List Byte) (s : State) : Result × State :=
  if str = [] then (.invalidArgument, s) else emitMessage (stringMessage s.params str) s

/-- SEND_CAPABILITY's effect (R134). -/
def sendCapability (recs : List CapRecord) (s : State) : Result × State :=
  if recs = [] then (.invalidArgument, s)
  else
    composeChecked [Config.sysexStart, Config.capabilityResponseId] (capPieces s.params none recs)
      [Config.separator, Config.sysexEnd] s

/-- SEND_ANALOG_MAPPING's effect (R135). -/
def sendAnalogMapping (map : List Byte) (s : State) : Result × State :=
  if map = [] then (.invalidArgument, s)
  else composeChecked [Config.sysexStart, Config.mappingResponseId] (mapPieces map) [Config.sysexEnd] s

/-- SEND_ANALOG (R131). -/
def execSendAnalog (ctx : Ref) (pin : Byte) (value : Half) (s : State) : Host.Outcome State Fault Refusal :=
  withContext ctx s (sendAnalog pin value)

/-- SEND_DIGITAL (R132). -/
def execSendDigital (ctx : Ref) (port : Byte) (value : Half) (s : State) : Host.Outcome State Fault Refusal :=
  withContext ctx s (sendDigital port value)

/-- SEND_STRING (R133). -/
def execSendString (ctx : Ref) (str : List Byte) (s : State) : Host.Outcome State Fault Refusal :=
  withContext ctx s (sendString str)

/-- SEND_CAPABILITY (R134). -/
def execSendCapability (ctx : Ref) (recs : List CapRecord) (s : State) : Host.Outcome State Fault Refusal :=
  withContext ctx s (sendCapability recs)

/-- SEND_ANALOG_MAPPING (R135). -/
def execSendAnalogMapping (ctx : Ref) (map : List Byte) (s : State) : Host.Outcome State Fault Refusal :=
  withContext ctx s (sendAnalogMapping map)

end Sys2Proof.Machine
end

