-- ==== Sys2Proof/Machine/Handlers.lean ====
section
/-! DEFINITION. Invoking a command handler (41_dispatch.md R104): the event, then the output operations the handler
issues on its Context (70_reset_and_hazards.md R187), then the return. -/

namespace Sys2Proof.Machine

/-- An operation that hands back its Result and no value. -/
def asReply (x : Result × State) : Reply × State := ({ result := x.1 }, x.2)

/-- What one operation of a handler hands back and does: the interface operation of its name (R187). -/
def handlerOp (op : HandlerOp) (s : State) : Reply × State :=
  match op with
  | .append b => asReply (append b s)
  | .flush => asReply (flush s)
  | .sendAnalog pin value => asReply (sendAnalog pin value s)
  | .sendDigital port value => asReply (sendDigital port value s)
  | .sendString str => asReply (sendString str s)
  | .sendCapability recs => asReply (sendCapability recs s)
  | .sendAnalogMapping map => asReply (sendAnalogMapping map s)
  | .decode14 buf len offset => (decode14 buf len offset s, s)
  | .encode14 buf len offset value => asReply (encode14 buf len offset value s)

/-- One operation a handler issues. Its reply goes to the handler and to nothing else (60_exceptions.md R171). -/
def runHandlerOp (op : HandlerOp) (s : State) : State := (handlerOp op s).2.answerHandler (handlerOp op s).1

/-- A handler's operations in order. -/
def runScript : List HandlerOp → State → State
  | [], s => s
  | op :: rest, s => runScript rest (runHandlerOp op s)

/-- What the environment has the next handler invocation do; with no script left the handler does nothing (log 10). -/
def runNextScript (s : State) : State :=
  match s.scripts with
  | [] => s
  | script :: rest => runScript script (s.setScripts rest)

/-- `call h(cmd, a, b)` for the six three-argument slots (R104): an absent slot is a no-op. -/
def callCommand (slot : CommandSlot) (cmd a : Byte) (b : Half) (s : State) : State :=
  match commandCallback s.ctx.handlers slot with
  | none => s
  | some callee => runNextScript (s.emit (.handler slot callee s.ctx.userData cmd a b))

/-- `call h(cmd, id)` for the two SysEx query slots (R104). -/
def callQuery (slot : QuerySlot) (cmd id : Byte) (s : State) : State :=
  match queryCallback s.ctx.handlers slot with
  | none => s
  | some callee => runNextScript (s.emit (.query slot callee s.ctx.userData cmd id))

end Sys2Proof.Machine
end

