-- ==== Sys2Proof/Machine/Commands.lean ====
section
/-! DEFINITION. The command dispatcher and the SysEx sub-dispatcher (41_dispatch.md R90 to R103): the meaning of each
completed frame, read from `in`. -/

namespace Sys2Proof.Machine

/-- `in[k]`. -/
def frameByte (s : State) (k : Nat) : Byte := memRead s.ctx.inputBuf k

/-- DO_ANALOG_IO and DO_DIGITAL_IO (R91, R92) differ in the slot only. -/
def doValueIo (slot : CommandSlot) (s : State) : Result × State :=
  match decodePair s.ctx.inputBuf 0 s.ctx.inputCursor 1 with
  | none => (.outOfBounds, s)
  | some v => (.ok, callCommand slot (frameByte s 0) (channelOf (frameByte s 0)) v s)

/-- DO_ANALOG_IO (R91). -/
def doAnalogIo (s : State) : Result × State := doValueIo .analogIO s

/-- DO_DIGITAL_IO (R92). -/
def doDigitalIo (s : State) : Result × State := doValueIo .digitalIO s

/-- DO_REPORT_ANALOG (R93). -/
def doReportAnalog (s : State) : Result × State :=
  (.ok, callCommand .reportAnalog (frameByte s 0) (channelOf (frameByte s 0)) (widen (frameByte s 1)) s)

/-- DO_REPORT_DIGITAL (R94): no range validation. -/
def doReportDigital (s : State) : Result × State :=
  (.ok, callCommand .reportDigital (frameByte s 0) (channelOf (frameByte s 0)) (widen (frameByte s 1)) s)

/-- DO_SET_PIN_MODE (R95). -/
def doSetPinMode (s : State) : Result × State :=
  (.ok, callCommand .setPinMode (frameByte s 0) (frameByte s 1) (widen (frameByte s 2)) s)

/-- DO_SET_PIN_VALUE (R96). -/
def doSetPinValue (s : State) : Result × State :=
  (.ok, callCommand .setPinValue (frameByte s 0) (frameByte s 1) (widen (frameByte s 2)) s)

/-- DO_PROTOCOL_VERSION (R97): the engine itself replies; no handler. -/
def doProtocolVersion (s : State) : Result × State := emitReply versionMessage s

/-- DO_ANALOG_MAPPING_QUERY (R101). -/
def doAnalogMappingQuery (id : Byte) (s : State) : Result × State :=
  if s.ctx.inputCursor = 3 then (.ok, callQuery .analogMappingQuery Config.sysexStart id s) else (.invalidFrame, s)

/-- DO_CAPABILITY_QUERY (R102). -/
def doCapabilityQuery (id : Byte) (s : State) : Result × State :=
  if s.ctx.inputCursor = 3 then (.ok, callQuery .capabilityQuery Config.sysexStart id s) else (.invalidFrame, s)

/-- DO_SYSEX (R99): the sub-id first, then the length, then the handler (R100). -/
def doSysex (s : State) : Result × State :=
  if frameByte s 1 = dataByte s.params.analogMappingQueryId then doAnalogMappingQuery (frameByte s 1) s
  else if frameByte s 1 = dataByte Config.capabilityQueryId then doCapabilityQuery (frameByte s 1) s
  else (.unsupportedCommand, s)

/-- DISPATCH (R90): by the command byte; 0xFF ends at the last line (R98). -/
def dispatch (s : State) : Result × State :=
  let c := frameByte s 0
  if hiNibble c = 0xE#4 then doAnalogIo s
  else if hiNibble c = 0x9#4 then doDigitalIo s
  else if hiNibble c = 0xC#4 then doReportAnalog s
  else if hiNibble c = 0xD#4 then doReportDigital s
  else if c = 0xF4#8 then doSetPinMode s
  else if c = 0xF5#8 then doSetPinValue s
  else if c = 0xF9#8 then doProtocolVersion s
  else if c = Config.sysexStart then doSysex s
  else (.unsupportedCommand, s)

end Sys2Proof.Machine
end

