-- ==== Sys2Proof/Machine/Decoder.lean ====
section
/-! DEFINITION. The frame decoder: FEED and FEED_BULK (40_frame_decoder.md R70 to R78). -/

namespace Sys2Proof.Machine

/-- FEED_CMD (R71). -/
def feedCmd (b : Byte) (s : State) : Except Result State :=
  if isCommand b = false then .error .unsupportedCommand
  else
    match bodyLen b with
    | none => .error .unsupportedCommand
    | some n =>
      match inAppend b s with
      | .error e => .error e
      | .ok s' => .ok (s'.setCtx (s'.ctx.setDecoder (if n = .zero then .ready else .cmdData) n s'.ctx.inputCursor))

/-- The count of an accepted body byte: `remaining_count` goes down, and READY at zero (R74). -/
def countBodyByte (s : State) : State :=
  match s.ctx.remainingCount with
  | .unbounded => s
  | n =>
    s.setCtx (s.ctx.setDecoder (if countDown n = .zero then .ready else s.ctx.state) (countDown n) s.ctx.inputCursor)

/-- FEED_DATA (R74): the SysEx terminator first, then bit 7, then the capacity (60_exceptions.md R168). -/
def feedData (b : Byte) (s : State) : Except Result State :=
  if frameByte s 0 = Config.sysexStart ∧ b = Config.sysexEnd then
    match inAppend b s with
    | .error e => .error e
    | .ok s' => .ok (s'.setCtx (s'.ctx.setDecoder .ready s'.ctx.remainingCount s'.ctx.inputCursor))
  else if isCommand b then .error .unsupportedCommand
  else
    match inAppend b s with
    | .error e => .error e
    | .ok s' => .ok (countBodyByte s')

/-- The byte taken by the state the decoder is in (R70). -/
def takeByte (b : Byte) (s : State) : Except Result State :=
  match s.ctx.state with
  | .cmd => feedCmd b s
  | .cmdData => feedData b s
  | .ready => .ok s

/-- What follows an accepted byte (R70, R76): at READY, DISPATCH and then the unconditional reset. -/
def completeByte (s : State) : Result × State :=
  if s.ctx.state = .ready then ((dispatch s).1, resetDecoder (dispatch s).2) else (.ok, s)

/-- FEED's effect (R70). -/
def feed (b : Byte) (s : State) : Result × State :=
  match takeByte b s with
  | .error e => abort e s
  | .ok s' => completeByte s'

/-- FEED_BULK's effect (R78): FEED of each byte, up to the first error. -/
def feedAll : List Byte → State → Result × State
  | [], s => (.ok, s)
  | b :: rest, s => if (feed b s).1 = .ok then feedAll rest (feed b s).2 else feed b s

/-- FEED (R70, R82). -/
def execFeed (ctx : Ref) (b : Byte) (s : State) : Host.Outcome State Fault Refusal := withContext ctx s (feed b)

/-- FEED_BULK (R78, R82). -/
def execFeedBulk (ctx : Ref) (bytes : List Byte) (s : State) : Host.Outcome State Fault Refusal :=
  withContext ctx s (feedAll bytes)

end Sys2Proof.Machine
end

