-- ==== Sys2Proof/Machine/Frames.lean ====
section
/-! DEFINITION. The inbound frames run as instructions (30_encoding.md R51 to R58): the transport delivers the frame's
bytes, in order, each by a FEED of its own, whatever each returns (60_exceptions.md R174, log 4). What a completed
frame does is in Commands.lean. -/

namespace Sys2Proof.Machine

/-- FEED of each byte in turn, one reply each. -/
def feedEach : List Byte → State → State
  | [], s => s
  | b :: rest, s => feedEach rest ((feed b s).2.answer { result := (feed b s).1 })

/-- The transport delivers bytes. -/
def deliver (bytes : List Byte) (s : State) : Host.Outcome State Fault Refusal := enter s fun s => .next (feedEach bytes s)

/-- ANALOG_IO (R91). -/
def execAnalogIo (channel : Nibble) (value : Value14) (s : State) : Host.Outcome State Fault Refusal :=
  deliver (valueFrame 0xE0#8 channel value) s

/-- DIGITAL_IO (R92). -/
def execDigitalIo (channel : Nibble) (value : Value14) (s : State) : Host.Outcome State Fault Refusal :=
  deliver (valueFrame 0x90#8 channel value) s

/-- REPORT_ANALOG (R93). -/
def execReportAnalog (channel : Nibble) (enabled : Data7) (s : State) : Host.Outcome State Fault Refusal :=
  deliver (reportFrame 0xC0#8 channel enabled) s

/-- REPORT_DIGITAL (R94). -/
def execReportDigital (channel : Nibble) (enabled : Data7) (s : State) : Host.Outcome State Fault Refusal :=
  deliver (reportFrame 0xD0#8 channel enabled) s

/-- SET_PIN_MODE (R95). -/
def execSetPinMode (pin mode : Data7) (s : State) : Host.Outcome State Fault Refusal :=
  deliver (pinFrame 0xF4#8 pin mode) s

/-- SET_PIN_VALUE (R96). -/
def execSetPinValue (pin value : Data7) (s : State) : Host.Outcome State Fault Refusal :=
  deliver (pinFrame 0xF5#8 pin value) s

/-- PROTOCOL_VERSION (R97). -/
def execProtocolVersion (s : State) : Host.Outcome State Fault Refusal := deliver [0xF9#8] s

/-- SYSTEM_RESET (R98): accepted by the decoder, UnsupportedCommand from the dispatcher, nothing reset. -/
def execSystemReset (s : State) : Host.Outcome State Fault Refusal := deliver [0xFF#8] s

/-- SYSEX (R99, R103). -/
def execSysex (body : List Data7) (s : State) : Host.Outcome State Fault Refusal := deliver (sysexFrame body) s

/-- ANALOG_MAPPING_QUERY (R101). -/
def execAnalogMappingQuery (s : State) : Host.Outcome State Fault Refusal :=
  deliver (sysexFrame [s.params.analogMappingQueryId]) s

/-- CAPABILITY_QUERY (R102). -/
def execCapabilityQuery (s : State) : Host.Outcome State Fault Refusal :=
  deliver (sysexFrame [Config.capabilityQueryId]) s

/-- A word that is no instruction of the opcode table. Bytes on the inbound line are fed all the same, and the engine
answers each (30_encoding.md R59, log 5); bytes to compose that are none of its own messages are composed all the same,
since APPEND takes every byte (43_output_buffer.md R120, log 5); an unassigned select code is refused (R62, U5). -/
def runUndecoded (w : InstrWord) (s : State) : Host.Outcome State Fault Refusal :=
  match w with
  | .wire bytes => deliver bytes s
  | .op code _ => .refused (.unassignedOperation code)
  | .message bytes => withContext .present s (emitMessage bytes)

end Sys2Proof.Machine
end

