-- ==== Sys2Proof/Machine/Lifecycle.lean ====
section
/-! DEFINITION. INIT and ATTACH (45_context_lifecycle.md R145, R146). -/

namespace Sys2Proof.Machine

/-- INIT's effect on a present Context: every field zeroed, no event (R145). -/
def initContext (s : State) : State := s.setCtx Context.zero

/-- ATTACH's effect: the whole table replaced (R146). -/
def attachTable (t : HandlerTable) (s : State) : State := s.setCtx (s.ctx.setHandlers t)

/-- INIT (R145): legal on storage in any condition. -/
def execInit (ctx : Ref) (s : State) : Host.Outcome State Fault Refusal :=
  match ctx with
  | .absent => finish { result := .nullReference } s
  | .present => finish { result := .ok } (initContext s)

/-- ATTACH (R146): an absent table is `NullReference` too. -/
def execAttach (ctx : Ref) (table : Option HandlerTable) (s : State) : Host.Outcome State Fault Refusal :=
  match table with
  | none => finish { result := .nullReference } s
  | some t => withContext ctx s fun s => (.ok, attachTable t s)

end Sys2Proof.Machine
end

