-- ==== Sys2Proof/Machine/Messages.lean ====
section
/-! DEFINITION. The outbound messages (30_encoding.md R60) run as instructions: APPEND of each byte of the message and
the FLUSH that completes it (44_output_encoders.md R130; 41_dispatch.md R97; log 6). -/

namespace Sys2Proof.Machine

/-- ANALOG_MESSAGE (R60, R131). -/
def execAnalogMessage (pin : Nibble) (value : Value14) (s : State) : Host.Outcome State Fault Refusal :=
  withContext .present s (emitMessage (valueFrame 0xE0#8 pin value))

/-- DIGITAL_MESSAGE (R60, R132). -/
def execDigitalMessage (port : Nibble) (value : Value14) (s : State) : Host.Outcome State Fault Refusal :=
  withContext .present s (emitMessage (valueFrame 0x90#8 port value))

/-- VERSION_REPLY (R60, R97). -/
def execVersionReply (s : State) : Host.Outcome State Fault Refusal :=
  withContext .present s (emitReply versionMessage)

/-- STRING_DATA (R60, R133). -/
def execStringData (chars : List Byte) (s : State) : Host.Outcome State Fault Refusal :=
  withContext .present s fun s => emitMessage (stringMessage s.params chars) s

/-- CAPABILITY_RESPONSE (R60, R134). -/
def execCapabilityResponse (groups : List (List CapPair)) (s : State) : Host.Outcome State Fault Refusal :=
  withContext .present s (emitMessage (capabilityMessage groups))

/-- ANALOG_MAPPING_RESPONSE (R60, R135). -/
def execAnalogMappingResponse (entries : List (Option Nibble)) (s : State) : Host.Outcome State Fault Refusal :=
  withContext .present s (emitMessage (mappingMessage entries))

end Sys2Proof.Machine
end

