-- ==== Sys2Proof/Machine/Dispatch.lean ====
section
/-! DEFINITION. The meaning of each instruction, one arm each. -/

namespace Sys2Proof.Machine

def exec (i : Instr) (s : State) : Host.Outcome State Fault Refusal :=
  match i with
  | .analogIo channel value => Sys2Proof.Machine.execAnalogIo channel value s
  | .digitalIo channel value => Sys2Proof.Machine.execDigitalIo channel value s
  | .reportAnalog channel enabled => Sys2Proof.Machine.execReportAnalog channel enabled s
  | .reportDigital channel enabled => Sys2Proof.Machine.execReportDigital channel enabled s
  | .setPinMode pin mode => Sys2Proof.Machine.execSetPinMode pin mode s
  | .setPinValue pin value => Sys2Proof.Machine.execSetPinValue pin value s
  | .protocolVersion => Sys2Proof.Machine.execProtocolVersion s
  | .systemReset => Sys2Proof.Machine.execSystemReset s
  | .sysex body => Sys2Proof.Machine.execSysex body s
  | .analogMappingQuery => Sys2Proof.Machine.execAnalogMappingQuery s
  | .capabilityQuery => Sys2Proof.Machine.execCapabilityQuery s
  | .analogMessage pin value => Sys2Proof.Machine.execAnalogMessage pin value s
  | .digitalMessage port value => Sys2Proof.Machine.execDigitalMessage port value s
  | .versionReply => Sys2Proof.Machine.execVersionReply s
  | .stringData chars => Sys2Proof.Machine.execStringData chars s
  | .capabilityResponse groups => Sys2Proof.Machine.execCapabilityResponse groups s
  | .analogMappingResponse entries => Sys2Proof.Machine.execAnalogMappingResponse entries s
  | .init ctx => Sys2Proof.Machine.execInit ctx s
  | .attach ctx table => Sys2Proof.Machine.execAttach ctx table s
  | .feed ctx b => Sys2Proof.Machine.execFeed ctx b s
  | .feedBulk ctx bytes => Sys2Proof.Machine.execFeedBulk ctx bytes s
  | .decode14 buf len offset => Sys2Proof.Machine.execDecode14 buf len offset s
  | .encode14 buf len offset value => Sys2Proof.Machine.execEncode14 buf len offset value s
  | .append ctx b => Sys2Proof.Machine.execAppend ctx b s
  | .flush ctx => Sys2Proof.Machine.execFlush ctx s
  | .sendAnalog ctx pin value => Sys2Proof.Machine.execSendAnalog ctx pin value s
  | .sendDigital ctx port value => Sys2Proof.Machine.execSendDigital ctx port value s
  | .sendString ctx str => Sys2Proof.Machine.execSendString ctx str s
  | .sendCapability ctx recs => Sys2Proof.Machine.execSendCapability ctx recs s
  | .sendAnalogMapping ctx map => Sys2Proof.Machine.execSendAnalogMapping ctx map s

end Sys2Proof.Machine
end

