-- ==== Sys2Proof/Machine/Step.lean ====
section
/-! DEFINITION. One step: the caller's next request (70_reset_and_hazards.md R182 step 5, 60_exceptions.md R174), one
whole interface operation, frame or message a step (D1). -/

namespace Sys2Proof.Machine

/-- A word as an instruction: decoded and run, or what `runUndecoded` says. -/
def runWord (w : InstrWord) (s : State) : Host.Outcome State Fault Refusal :=
  match decode s.params w with
  | .ok i => exec i s
  | .error _ => runUndecoded w s

/-- One request of the caller. -/
def runRequest (r : Request) (s : State) : Host.Outcome State Fault Refusal :=
  match r with
  | .instr w => runWord w s
  | .setUserData v => .next (callerSetsUserData v s)
  | .storeByte addr b => .next (callerStores addr b s)

/-- One step. With no request waiting the engine is idle and holds its state (60_exceptions.md R175). -/
def step (s : State) : Host.Outcome State Fault Refusal :=
  match fetch s with
  | none => .next s
  | some (r, s') => runRequest r s'

/-- The state with that opcode-table word as the caller's next request (log 2, log 25). -/
def State.withFetchWord (s : State) (nbits w : Nat) : State := s.setRequests (.instr (tableWord nbits w) :: s.requests)

end Sys2Proof.Machine
end

