-- ==== Sys2Proof/Safety.lean ====
section
/-! DEFINITION. What claims speak of: the invariant of 10_state.md R25 with the canonical form of the memories, what the
sink has been given, and what an output operation appends. -/

namespace Sys2Proof.Machine

/-- The Context is one that INIT and the operations leave behind (R25). Every operation completes on it. -/
def State.Usable (s : State) : Prop := betweenOperations s.params s.ctx = true

/-- The three memories are in canonical form, and the two buffers list no byte at or beyond their capacity: nothing was
ever stored outside them (10_state.md R14, R15, R18, R19). -/
def State.MemoriesOk (s : State) : Prop :=
  Memory.wf s.ctx.inputBuf = true ∧ memWithin s.params.inCap s.ctx.inputBuf = true
    ∧ Memory.wf s.ctx.outputBuf = true ∧ memWithin s.params.outCap s.ctx.outputBuf = true
    ∧ Memory.wf s.callerMem = true

/-- The invariant every step keeps. -/
def State.Inv (s : State) : Prop := s.Usable ∧ s.MemoriesOk

/-- The chunk an event hands to the sink. -/
def sinkChunk : Event → Option (List Byte)
  | .sink _ _ bytes => some bytes
  | .handler _ _ _ _ _ _ => none
  | .query _ _ _ _ _ => none

/-- The chunks the sink was given, in order (R23, 43_output_buffer.md R125). -/
def chunks (s : State) : List (List Byte) := s.trace.filterMap sinkChunk

/-- The outbound stream: the concatenation of all chunks (R23, D30). -/
def delivered (s : State) : List Byte := (chunks s).flatten

/-- What has been appended and is either delivered or still pending. -/
def outbound (s : State) : List Byte := delivered s ++ pendingOut s

/-- The bytes of the valid pieces before the first invalid one. -/
def validBytes : List (Option (List Byte)) → List Byte
  | [] => []
  | none :: _ => []
  | some bytes :: rest => bytes ++ validBytes rest

/-- The bytes a checked message appends: all of them, or those before the first invalid piece (44_output_encoders.md
R137). -/
def checkedBytes (head : List Byte) (pieces : List (Option (List Byte))) (tail : List Byte) : List Byte :=
  head ++ validBytes pieces ++ (if pieces.all Option.isSome then tail else [])

/-- The bytes an instruction appends to the output buffer on a present Context, for the output operations and the
outbound messages; nothing for every other instruction. -/
def appendedBytes (p : Params) : Instr → List Byte
  | .append .present b => [b]
  | .sendAnalog .present pin value => if statusInRange pin value then statusBytes 0xE0#8 pin value else []
  | .sendDigital .present port value => if statusInRange port value then statusBytes 0x90#8 port value else []
  | .sendString .present str => if str = [] then [] else stringMessage p str
  | .sendCapability .present recs =>
    if recs = [] then []
    else
      checkedBytes [Config.sysexStart, Config.capabilityResponseId] (capPieces p none recs)
        [Config.separator, Config.sysexEnd]
  | .sendAnalogMapping .present map =>
    if map = [] then [] else checkedBytes [Config.sysexStart, Config.mappingResponseId] (mapPieces map) [Config.sysexEnd]
  | .analogMessage pin value => valueFrame 0xE0#8 pin value
  | .digitalMessage port value => valueFrame 0x90#8 port value
  | .versionReply => versionMessage
  | .stringData chars => stringMessage p chars
  | .capabilityResponse groups => capabilityMessage groups
  | .analogMappingResponse entries => mappingMessage entries
  | _ => []

/-- The instructions that read or write the Context: all but INIT, the codec, and the forms that find a reference absent
(60_exceptions.md R161). -/
def usesContext : Instr → Bool
  | .init _ | .decode14 _ _ _ | .encode14 _ _ _ _ => false
  | .attach ctx table => ctx == .present && table.isSome
  | .feed ctx _ | .feedBulk ctx _ | .append ctx _ | .flush ctx | .sendAnalog ctx _ _ | .sendDigital ctx _ _
  | .sendString ctx _ | .sendCapability ctx _ | .sendAnalogMapping ctx _ => ctx == .present
  | .analogIo _ _ | .digitalIo _ _ | .reportAnalog _ _ | .reportDigital _ _ | .setPinMode _ _ | .setPinValue _ _
  | .protocolVersion | .systemReset | .sysex _ | .analogMappingQuery | .capabilityQuery | .analogMessage _ _
  | .digitalMessage _ _ | .versionReply | .stringData _ | .capabilityResponse _ | .analogMappingResponse _ => true

/-- The interface operation a handler's operation stands for, on the handler's own Context (70_reset_and_hazards.md
R187). -/
def HandlerOp.instr : HandlerOp → Instr
  | .append b => .append .present b
  | .flush => .flush .present
  | .sendAnalog pin value => .sendAnalog .present pin value
  | .sendDigital port value => .sendDigital .present port value
  | .sendString str => .sendString .present str
  | .sendCapability recs => .sendCapability .present recs
  | .sendAnalogMapping map => .sendAnalogMapping .present map
  | .decode14 buf len offset => .decode14 buf len offset
  | .encode14 buf len offset value => .encode14 buf len offset value

/-- What the sink returned in its calls between two states, in order (43_output_buffer.md R123, log 11). -/
def sinkResults (s t : State) : List Result :=
  (List.range' s.sinkCalls (t.sinkCalls - s.sinkCalls)).map Config.sinkResult

/-- The output operations and the outbound messages. -/
def isOutput : Instr → Bool
  | .append _ _ | .flush _ | .sendAnalog _ _ _ | .sendDigital _ _ _ | .sendString _ _ | .sendCapability _ _
  | .sendAnalogMapping _ _ | .analogMessage _ _ | .digitalMessage _ _ | .versionReply | .stringData _
  | .capabilityResponse _ | .analogMappingResponse _ => true
  | _ => false

/-- Instructions run one after the other, each on the state the one before it left. -/
def execAll : List Instr → State → Host.Outcome State Fault Refusal
  | [], s => .next s
  | i :: rest, s =>
    match exec i s with
    | .next t => execAll rest t
    | .fault r => .fault r
    | .refused r => .refused r

/-- Only the output buffer, its cursor, the trace, the replies and the count of sink calls may differ. -/
def OnlyOutputChanges (s t : State) : Prop :=
  t = { s with
    ctx := { s.ctx with outputBuf := t.ctx.outputBuf, outputCursor := t.ctx.outputCursor }
    trace := t.trace
    replies := t.replies
    sinkCalls := t.sinkCalls }

/-- The cells of the output buffer that appending `n` bytes does not store to: those that do not follow the cursor
round the buffer (43_output_buffer.md R120). Each reads as before. -/
def OtherCellsKept (n : Nat) (s t : State) : Prop :=
  ∀ a, (∀ k, k < n → (s.ctx.outputCursor + k) % s.params.outCap ≠ a) →
    memRead t.ctx.outputBuf a = memRead s.ctx.outputBuf a

/-- The trace grew by calls of the sink that stands in the table, and by nothing else. -/
def OnlySinkCalls (s t : State) : Prop :=
  ∃ evs, t.trace = s.trace ++ evs
    ∧ ∀ e ∈ evs, ∃ callee chunk, s.ctx.handlers.output = some callee ∧ e = .sink callee s.ctx.userData chunk

/-- Exactly one reply more, with this Result. -/
def Replies (s t : State) (r : Result) : Prop := t.replies = s.replies ++ [{ result := r }]

/-- An instruction completes, and its effect is that one whole message leaves: behind what was pending, in order, to
the sink when one is present, with the buffer empty afterwards (44_output_encoders.md R130). -/
def SendsMessage (i : Instr) (bytes : List Byte) (s : State) : Prop :=
  ∃ t, exec i s = .next t ∧ OnlyOutputChanges s t ∧ t.ctx.outputCursor = 0
    ∧ (s.ctx.handlers.output.isSome = true → delivered t = delivered s ++ pendingOut s ++ bytes)
    ∧ OnlySinkCalls s t
    ∧ (∃ r, Replies s t r ∧ (s.params.sinkResultPropagates = false → r = .ok))
    ∧ OtherCellsKept bytes.length s t

/-- An outbound message row: its word is those bytes, and they are what it sends (30_encoding.md R60). -/
def SendsItsMessage (i : Instr) (bytes : List Byte) (s : State) : Prop :=
  encode s.params i = .message bytes ∧ SendsMessage i bytes s

/-- A composite encoder fails in mid-message, after it has appended `sent`: `InvalidArgument`, nothing but the output side
changed, and FAIL_MID by `ENC_FAIL_POLICY` (44_output_encoders.md R137, R138): the APPENDs of `sent` and then, but for
the replies, nothing, a FLUSH, or the cursor's reset. So what was appended is delivered, or pending, or (under
`discard`) partly dropped; without a sink no event is emitted. That `InvalidArgument` is the Result even where the sink
had returned an error before is DEDUCED (log 12). -/
def FailsMidMessage (i : Instr) (sent : List Byte) (s : State) : Prop :=
  let failed : State → State := fun u => { u with replies := s.replies ++ [{ result := .invalidArgument }] }
  ∃ t, exec i s = .next t ∧ OnlyOutputChanges s t ∧ Replies s t .invalidArgument
    ∧ OtherCellsKept sent.length s t
    ∧ (∃ u, execAll (sent.map fun b => .append .present b) s = .next u
      ∧ (s.params.encFailPolicy = .leave → t = failed u)
      ∧ (s.params.encFailPolicy = .flush → ∃ w, exec (.flush .present) u = .next w ∧ t = failed w)
      ∧ (s.params.encFailPolicy = .discard → t = failed { u with ctx := { u.ctx with outputCursor := 0 } }))
    ∧ (s.params.encFailPolicy ≠ .leave → t.ctx.outputCursor = 0)
    ∧ (s.ctx.handlers.output = none → t.trace = s.trace)
    ∧ (s.ctx.handlers.output.isSome = true →
      (s.params.encFailPolicy = .leave → delivered t ++ pendingOut t = delivered s ++ pendingOut s ++ sent)
        ∧ (s.params.encFailPolicy = .flush → delivered t = delivered s ++ pendingOut s ++ sent)
        ∧ (s.params.encFailPolicy = .discard →
          ∃ dropped, delivered t ++ dropped = delivered s ++ pendingOut s ++ sent
            ∧ dropped.length ≤ s.params.outCap))

/-- The frame `bytes` stands at the start of the input buffer and no other byte of it changed. -/
def FrameStored (bytes : List Byte) (s t : State) : Prop :=
  memSlice t.ctx.inputBuf 0 bytes.length = bytes
    ∧ ∀ a, bytes.length ≤ a → memRead t.ctx.inputBuf a = memRead s.ctx.inputBuf a

/-- The three decoder registers at their reset values (40_frame_decoder.md R72). -/
def DecoderReset (t : State) : Prop :=
  t.ctx.state = .cmd ∧ t.ctx.remainingCount = .zero ∧ t.ctx.inputCursor = 0

/-- What no FEED changes (10_state.md R11: the fields FEED does not write). -/
def FeedKeeps (s t : State) : Prop :=
  t.params = s.params ∧ t.ctx.handlers = s.ctx.handlers ∧ t.ctx.userData = s.ctx.userData ∧ t.requests = s.requests

/-- The output side, the caller's storage, the scripts and what handlers were handed back are as before. -/
def OutputKept (s t : State) : Prop :=
  t.ctx.outputBuf = s.ctx.outputBuf ∧ t.ctx.outputCursor = s.ctx.outputCursor ∧ t.callerMem = s.callerMem
    ∧ t.sinkCalls = s.sinkCalls ∧ t.scripts = s.scripts ∧ t.handlerReplies = s.handlerReplies

/-- A frame, whose word is `bytes`, completes: every byte is accepted, the one event `ev` (none where the slot is absent) is emitted, the decoder
is reset; whatever else happens is what the handler issues, and nothing does where it issues nothing (log 10). -/
def FrameHandled (i : Instr) (bytes : List Byte) (ev : Option Event) (s : State) : Prop :=
  encode s.params i = .wire bytes ∧ ∃ t, exec i s = .next t ∧ DecoderReset t ∧ FrameStored bytes s t ∧ FeedKeeps s t
    ∧ t.replies = s.replies ++ List.replicate bytes.length { result := .ok }
    ∧ (∃ evs, t.trace = s.trace ++ ev.toList ++ evs ∧ ∀ e ∈ evs, (sinkChunk e).isSome = true)
    ∧ (ev = none ∨ s.scripts = [] → t.trace = s.trace ++ ev.toList ∧ OutputKept s t)

/-- The mode and resolution of a record, as data bytes. -/
def pairOf (r : CapRecord) : CapPair := (payload7 r.mode, payload7 r.resolution)

/-- Records grouped by runs of the same pin (44_output_encoders.md R134). -/
def groupsOf : List CapRecord → List (List CapPair)
  | [] => []
  | r :: rest =>
    match groupsOf rest with
    | [] => [[pairOf r]]
    | g :: gs => if (rest.head?.map CapRecord.pin) = some r.pin then (pairOf r :: g) :: gs else [pairOf r] :: g :: gs

/-- What one turn of R134's loop appends for the valid record `recs[i]`. -/
def recordBytesAt (recs : List CapRecord) (i : Nat) : List Byte :=
  match recs[i]?, recs[i - 1]? with
  | some r, some before => (if 0 < i ∧ r.pin ≠ before.pin then [0x7F#8] else []) ++ [r.mode, r.resolution]
  | _, _ => []

/-- The bytes SEND_CAPABILITY appends for valid records, by R134's own loop over indices. -/
def recordBytes (recs : List CapRecord) : List Byte := (List.range recs.length).flatMap (recordBytesAt recs)

/-- The state without `user_data`: the word and every copy of it handed to a callback. -/
def forgetUserData (s : State) : State :=
  { s with
    ctx := { s.ctx with userData := 0 }
    trace := s.trace.map fun e =>
      match e with
      | .sink callee _ bytes => .sink callee 0 bytes
      | .handler slot callee _ cmd a b => .handler slot callee 0 cmd a b
      | .query slot callee _ cmd id => .query slot callee 0 cmd id }

end Sys2Proof.Machine
end

