-- ==== Sys2Proof/Certificates/Slice0/Obligations.lean ====
section
/-! DEFINITION. The statements for the provers. Each docstring names the rule of spec/ it formalises; OBLIGATIONS.json
lists them. -/

open Sys2Proof Sys2Proof.Machine

/-! ### Reset, lifecycle and the invariant -/

/-- R27, R180: after reset (INIT) every field of the Context has the value R27 tabulates, whatever the parameters. That
`State.reset` stands for the parameters of `Config.default` is the model's choice (log 7). -/
def Obligations.ResetLeavesEveryContextFieldZero : Prop :=
  State.reset = State.initial Config.default
    ∧ ∀ p : Params,
      let c := (State.initial p).ctx
      c.state = .cmd ∧ stateCode c.state = 0#2 ∧ c.remainingCount = .zero ∧ c.inputCursor = 0 ∧ c.outputCursor = 0
        ∧ (∀ i, i < p.inCap → memRead c.inputBuf i = 0x00#8)
        ∧ (∀ i, i < p.outCap → memRead c.outputBuf i = 0x00#8)
        ∧ c.handlers.output = none ∧ c.handlers.analogIO = none ∧ c.handlers.digitalIO = none
        ∧ c.handlers.reportAnalog = none ∧ c.handlers.reportDigital = none ∧ c.handlers.setPinMode = none
        ∧ c.handlers.setPinValue = none ∧ c.handlers.analogMappingQuery = none
        ∧ c.handlers.capabilityQuery = none ∧ c.userData = 0

/-- The invariant of R25, with canonical memories, holds at reset under every choice of the parameters. -/
def Obligations.ResetMeetsTheInvariant : Prop := ∀ p : Params, (State.initial p).Inv

/-- R25: what holds between operations is kept by every step: every operation, frame and message, and every write of the
caller. -/
def Obligations.EveryStepKeepsTheInvariant : Prop := ∀ s t : State, s.Inv → step s = .next t → t.Inv

/-- R25, clause by clause: the model's test of a Context between operations says exactly what R25 says. -/
def Obligations.BetweenOperationsIsWhatR25Says : Prop :=
  ∀ (p : Params) (c : Context), betweenOperations p c = true ↔
    c.state ≠ .ready
      ∧ (c.state = .cmd → c.remainingCount = .zero ∧ c.inputCursor = 0)
      ∧ (c.state = .cmdData →
        1 ≤ c.inputCursor ∧ c.inputCursor ≤ p.inCap
          ∧ (memRead c.inputBuf 0).msb = true
          ∧ (∃ n, bodyLen (memRead c.inputBuf 0) = some n ∧ n ≠ .zero)
          ∧ (∀ i, 1 ≤ i → i < c.inputCursor → (memRead c.inputBuf i).msb = false)
          ∧ (c.remainingCount = .unbounded ↔ memRead c.inputBuf 0 = 0xF0#8)
          ∧ c.remainingCount ≠ .zero
          ∧ (c.remainingCount = .one → bodyLen (memRead c.inputBuf 0) = some .two ∧ c.inputCursor + 1 = 3
              ∨ bodyLen (memRead c.inputBuf 0) = some .one ∧ c.inputCursor + 1 = 2)
          ∧ (c.remainingCount = .two → bodyLen (memRead c.inputBuf 0) = some .two ∧ c.inputCursor + 2 = 3))
      ∧ c.outputCursor ≤ p.outCap

/-- R145: INIT, on storage in any condition, zeroes every field of the Context, emits no event and touches nothing else. -/
def Obligations.InitZeroesTheContextSilently : Prop :=
  ∀ s : State,
    (∀ a, decode s.params (.op 0x0#4 a) = .ok (.init a.ctx))
    ∧ (∃ t, exec (.init .present) s = .next t
      ∧ t.ctx.state = .cmd ∧ t.ctx.remainingCount = .zero ∧ t.ctx.inputCursor = 0 ∧ t.ctx.outputCursor = 0
      ∧ (∀ i, memRead t.ctx.inputBuf i = 0x00#8) ∧ (∀ i, memRead t.ctx.outputBuf i = 0x00#8)
      ∧ t.ctx.handlers = ⟨none, none, none, none, none, none, none, none, none⟩ ∧ t.ctx.userData = 0
      ∧ Replies s t .ok
      ∧ t = { s with ctx := t.ctx, replies := t.replies })
    ∧ exec (.init .absent) s = .next (s.answer { result := .nullReference })

/-- R146: ATTACH replaces all nine slots together and touches nothing else; an absent reference is `NullReference` with
no other effect. -/
def Obligations.AttachReplacesTheWholeTable : Prop :=
  ∀ s : State,
    (∀ a, decode s.params (.op 0x1#4 a) = .ok (.attach a.ctx a.table))
    ∧ (s.Usable → ∀ table, exec (.attach .present (some table)) s
      = .next ({ s with ctx := { s.ctx with handlers := table } }.answer { result := .ok }))
    ∧ (∀ ctx, exec (.attach ctx none) s = .next (s.answer { result := .nullReference }))
    ∧ (∀ table, exec (.attach .absent (some table)) s = .next (s.answer { result := .nullReference }))

/-- R161: an absent reference gives `NullReference` (code 1), before anything else is tested, with no other effect, on
every operation that has one, whatever the state of the Context. -/
def Obligations.AbsentReferenceIsNullReference : Prop :=
  resultCode .nullReference = 1#3
    ∧ ∀ s : State,
      let refused := Host.Outcome.next (φ := Fault) (ρ := Refusal) (s.answer { result := .nullReference })
      exec (.init .absent) s = refused
        ∧ (∀ table, exec (.attach .absent table) s = refused)
        ∧ (∀ ctx, exec (.attach ctx none) s = refused)
        ∧ (∀ b, exec (.feed .absent b) s = refused)
        ∧ (∀ bytes, exec (.feedBulk .absent bytes) s = refused)
        ∧ (∀ b, exec (.append .absent b) s = refused)
        ∧ exec (.flush .absent) s = refused
        ∧ (∀ pin value, exec (.sendAnalog .absent pin value) s = refused)
        ∧ (∀ port value, exec (.sendDigital .absent port value) s = refused)
        ∧ (∀ str, exec (.sendString .absent str) s = refused)
        ∧ (∀ recs, exec (.sendCapability .absent recs) s = refused)
        ∧ ∀ map, exec (.sendAnalogMapping .absent map) s = refused

/-- The model's choice (log 9), after U1, U4 and R14, R15: on a Context that INIT and the operations can not have left
every instruction that uses the Context (every one but INIT, the codec and the absent-reference forms) stops, by name;
INIT, the codec and the absent-reference forms complete all the same, and INIT leaves a usable Context. -/
def Obligations.UninitialisedContextStopsEveryOtherOperation : Prop :=
  ∀ s : State, ¬ s.Usable →
    (∀ i, usesContext i = true →
      (s.params.inCap < s.ctx.inputCursor ∨ s.params.outCap < s.ctx.outputCursor →
        exec i s = .fault .cursorOutsideBuffer)
      ∧ (¬ (s.params.inCap < s.ctx.inputCursor ∨ s.params.outCap < s.ctx.outputCursor) → s.ctx.state = .ready →
        exec i s = .refused .decoderReady)
      ∧ (¬ (s.params.inCap < s.ctx.inputCursor ∨ s.params.outCap < s.ctx.outputCursor) → s.ctx.state ≠ .ready →
        exec i s = .refused .uninitialisedContext))
    ∧ (∀ i, usesContext i = false → ∃ t, exec i s = .next t)
    ∧ (∃ t, exec (.init .present) s = .next t ∧ t.Usable)
    ∧ (∀ buf len offset, ∃ t, exec (.decode14 buf len offset) s = .next t)
    ∧ ∀ buf len offset value, ∃ t, exec (.encode14 buf len offset value) s = .next t

/-! ### The value codec -/

/-- R110: DECODE14's Result and value, with no masking, and that it changes nothing. -/
def Obligations.Decode14ReadsThePairOrIsOutOfBounds : Prop :=
  ∀ (s : State) (buf len : Nat) (offset : Int),
    (∀ a, decode s.params (.op 0x4#4 a) = .ok (.decode14 a.buf a.len a.offset))
    ∧ exec (.decode14 buf len offset) s = .next (s.answer
      (if 0 ≤ offset ∧ offset + 1 < (len : Int) then
        { result := .ok
          value := some (((memRead s.callerMem (buf + offset.toNat + 1)).setWidth 16 <<< 7)
            ||| (memRead s.callerMem (buf + offset.toNat)).setWidth 16) }
      else { result := .outOfBounds }))

/-- R111: ENCODE14 writes the two masked bytes, both or neither, and no other byte of the caller's storage; nothing but
that storage and the reply changes. -/
def Obligations.Encode14WritesThePairOrNothing : Prop :=
  ∀ (s : State) (buf len : Nat) (offset : Int) (value : Half), Memory.wf s.callerMem = true →
    (∀ a, decode s.params (.op 0x5#4 a) = .ok (.encode14 a.buf a.len a.offset a.value))
    ∧ ∃ m r, exec (.encode14 buf len offset value) s = .next ({ s with callerMem := m }.answer { result := r })
      ∧ (0 ≤ offset ∧ offset + 1 < (len : Int) →
        r = .ok
          ∧ memRead m (buf + offset.toNat) = (value &&& 0x7F#16).setWidth 8
          ∧ memRead m (buf + offset.toNat + 1) = ((value >>> 7) &&& 0x7F#16).setWidth 8
          ∧ ∀ a, a ≠ buf + offset.toNat → a ≠ buf + offset.toNat + 1 → memRead m a = memRead s.callerMem a)
      ∧ (¬ (0 ≤ offset ∧ offset + 1 < (len : Int)) → r = .outOfBounds ∧ m = s.callerMem)

/-- R112: decoding what was encoded gives the value back, masked to 14 bits; encoding what was decoded from two data
bytes leaves the storage as it was. -/
def Obligations.CodecRoundTripsBothWays : Prop :=
  ∀ (s : State) (buf len : Nat) (offset : Int), Memory.wf s.callerMem = true → 0 ≤ offset →
    offset + 1 < (len : Int) →
    (∀ value : Half, ∃ t, exec (.encode14 buf len offset value) s = .next t
      ∧ exec (.decode14 buf len offset) t = .next (t.answer { result := .ok, value := some (value &&& 0x3FFF#16) })
      ∧ (value ≤ 0x3FFF#16 → value &&& 0x3FFF#16 = value))
    ∧ ((memRead s.callerMem (buf + offset.toNat)).msb = false →
      (memRead s.callerMem (buf + offset.toNat + 1)).msb = false →
      ∃ value t t', exec (.decode14 buf len offset) s = .next t
        ∧ t = s.answer { result := .ok, value := some value }
        ∧ exec (.encode14 buf len offset value) t = .next t' ∧ t'.callerMem = s.callerMem)

/-! ### The output buffer -/

/-- R120: APPEND stores its byte at the cursor, or flushes a full buffer first and stores at index 0; no other byte of
the buffer changes. The Result is OK, or the inner FLUSH's under `SINK_RESULT_PROPAGATES` (R123). -/
def Obligations.AppendStoresOneByteAfterFlushingAFullBuffer : Prop :=
  ∀ (s : State) (b : Byte), s.Inv →
    (∀ a, decode s.params (.op 0x6#4 a) = .ok (.append a.ctx a.byte))
    ∧ ∃ t, exec (.append .present b) s = .next t ∧ OnlyOutputChanges s t
      ∧ (s.ctx.outputCursor ≠ s.params.outCap →
        t.ctx.outputCursor = s.ctx.outputCursor + 1
          ∧ (∀ a, memRead t.ctx.outputBuf a = if a = s.ctx.outputCursor then b else memRead s.ctx.outputBuf a)
          ∧ t.trace = s.trace ∧ t.sinkCalls = s.sinkCalls ∧ Replies s t .ok)
      ∧ (s.ctx.outputCursor = s.params.outCap →
        t.ctx.outputCursor = 1
          ∧ (∀ a, memRead t.ctx.outputBuf a = if a = 0 then b else memRead s.ctx.outputBuf a)
          ∧ (s.ctx.handlers.output = none → t.trace = s.trace ∧ t.sinkCalls = s.sinkCalls ∧ Replies s t .ok)
          ∧ ∀ callee, s.ctx.handlers.output = some callee →
            t.trace = s.trace ++ [Event.sink callee s.ctx.userData (memSlice s.ctx.outputBuf 0 s.params.outCap)]
              ∧ t.sinkCalls = s.sinkCalls + 1
              ∧ Replies s t (if s.params.sinkResultPropagates then Config.sinkResult s.sinkCalls else .ok))

/-- R121, R122: FLUSH hands the pending bytes to a present sink in one call, drops them where the slot is absent, calls
nothing for an empty buffer, and resets the cursor in every case. The Result of R123 is stated too. -/
def Obligations.FlushDeliversExactlyThePendingBytes : Prop :=
  ∀ s : State, s.Usable →
    (∀ a, decode s.params (.op 0x7#4 a) = .ok (.flush a.ctx))
    ∧ (s.ctx.outputCursor = 0 ∨ s.ctx.handlers.output = none →
      exec (.flush .present) s
        = .next ({ s with ctx := { s.ctx with outputCursor := 0 } }.answer { result := .ok }))
    ∧ ∀ callee, s.ctx.handlers.output = some callee → s.ctx.outputCursor ≠ 0 →
      exec (.flush .present) s
        = .next ({ s with
            ctx := { s.ctx with outputCursor := 0 }
            trace := s.trace
              ++ [Event.sink callee s.ctx.userData (memSlice s.ctx.outputBuf 0 s.ctx.outputCursor)]
            sinkCalls := s.sinkCalls + 1 }.answer
          { result := if s.params.sinkResultPropagates then Config.sinkResult s.sinkCalls else .ok })

/-- R124: for any sequence of APPEND and FLUSH operations that ends in a FLUSH, started with an empty buffer and a sink,
the concatenation of the chunks is the sequence of appended bytes, whatever the capacity. -/
def Obligations.ChunkingIsInvisibleInTheConcatenation : Prop :=
  ∀ (s : State) (ops : List (Option Byte)), s.Inv → s.ctx.outputCursor = 0 → s.ctx.handlers.output.isSome = true →
    ∃ t, execAll ((ops.map fun op => op.elim (Instr.flush .present) fun b => Instr.append .present b)
        ++ [.flush .present]) s = .next t
      ∧ delivered t = delivered s ++ ops.filterMap id

/-- R125: a message of `L` bytes appended to an empty buffer and flushed leaves in `ceil(L / OUT_CAP)` chunks, all but
the last of exactly OUT_CAP bytes. -/
def Obligations.MessageLeavesInFullChunksButTheLast : Prop :=
  ∀ (s : State) (bytes : List Byte), s.Inv → s.ctx.outputCursor = 0 → s.ctx.handlers.output.isSome = true →
    bytes ≠ [] →
    ∃ t cs last, execAll ((bytes.map fun b => Instr.append .present b) ++ [.flush .present]) s = .next t
      ∧ chunks t = chunks s ++ cs ++ [last]
      ∧ (cs ++ [last]).flatten = bytes
      ∧ (∀ c ∈ cs, c.length = s.params.outCap)
      ∧ last.length = bytes.length - cs.length * s.params.outCap
      ∧ 1 ≤ last.length ∧ last.length ≤ s.params.outCap
      ∧ cs.length + 1 = (bytes.length + s.params.outCap - 1) / s.params.outCap

/-- R15, R19, R23: what any output operation or outbound message may change, on any operands, valid or not: the cells it
appends to, the output cursor, sink events, one reply. -/
def Obligations.OutputOperationsTouchOnlyTheOutputSide : Prop :=
  ∀ (i : Instr) (s t : State), isOutput i = true → s.Inv → exec i s = .next t →
    OnlyOutputChanges s t ∧ OnlySinkCalls s t ∧ OtherCellsKept (appendedBytes s.params i).length s t
      ∧ ∃ r, Replies s t r

/-- R123, D16: the sink's Result never changes the state, only what is returned: two engines that differ in
`SINK_RESULT_PROPAGATES` alone go through the same states under every output operation, and each hands back one Result;
only in that Result may they differ. -/
def Obligations.TheSinksResultNeverChangesTheState : Prop :=
  ∀ (i : Instr) (s t : State) (propagates : Bool), isOutput i = true → exec i s = .next t →
    let other : Params := { s.params with sinkResultPropagates := propagates }
    (∃ r, Replies s t r)
      ∧ ∃ r', exec i { s with params := other }
        = .next { t with params := other, replies := s.replies ++ [{ result := r' }] }

/-! ### The composite encoders and the outbound messages -/

/-- R131. -/
def Obligations.SendAnalogSendsOneStatusMessage : Prop :=
  ∀ (s : State) (pin : Byte) (value : Half), s.Inv →
    (∀ a, decode s.params (.op 0x8#4 a) = .ok (.sendAnalog a.ctx a.byte a.value))
    ∧ (pin ≤ 0x0F#8 ∧ value ≤ 0x3FFF#16 →
      SendsMessage (.sendAnalog .present pin value)
        [0xE0#8 ||| pin, (value &&& 0x7F#16).setWidth 8, ((value >>> 7) &&& 0x7F#16).setWidth 8] s)
    ∧ (¬ (pin ≤ 0x0F#8 ∧ value ≤ 0x3FFF#16) →
      exec (.sendAnalog .present pin value) s = .next (s.answer { result := .invalidArgument }))

/-- R132. -/
def Obligations.SendDigitalSendsOneStatusMessage : Prop :=
  ∀ (s : State) (port : Byte) (value : Half), s.Inv →
    (∀ a, decode s.params (.op 0x9#4 a) = .ok (.sendDigital a.ctx a.byte a.value))
    ∧ (port ≤ 0x0F#8 ∧ value ≤ 0x3FFF#16 →
      SendsMessage (.sendDigital .present port value)
        [0x90#8 ||| port, (value &&& 0x7F#16).setWidth 8, ((value >>> 7) &&& 0x7F#16).setWidth 8] s)
    ∧ (¬ (port ≤ 0x0F#8 ∧ value ≤ 0x3FFF#16) →
      exec (.sendDigital .present port value) s = .next (s.answer { result := .invalidArgument }))

/-- R133. -/
def Obligations.SendStringSendsEachCharacterAsAPair : Prop :=
  ∀ (s : State) (str : List Byte), s.Inv →
    (∀ a, decode s.params (.op 0xA#4 a) = .ok (.sendString a.ctx a.bytes))
    ∧ (str ≠ [] →
      SendsMessage (.sendString .present str)
        ([0xF0#8, s.params.stringDataId.setWidth 8]
          ++ (str.flatMap fun c => [c &&& 0x7F#8, (c >>> 7) &&& 0x7F#8]) ++ [0xF7#8]) s)
    ∧ (str = [] → exec (.sendString .present str) s = .next (s.answer { result := .invalidArgument }))

/-- R134: SEND_CAPABILITY on valid records, on the empty array, and at the first record that fails `CAP_RECORD_VALID`,
where it ends by FAIL_MID (R138); and the default predicate. That the failing clause answers `InvalidArgument` even where
the sink had returned an error before, under `SINK_RESULT_PROPAGATES`, is read from R138 and R123 by inference
(log 12, DEDUCED). -/
def Obligations.SendCapabilitySeparatesRunsOfOnePin : Prop :=
  ∀ (s : State) (recs : List CapRecord), s.Inv →
    (∀ a, decode s.params (.op 0xB#4 a) = .ok (.sendCapability a.ctx a.recs))
    ∧ (recs ≠ [] → (∀ r ∈ recs, capRecordValid s.params r = true) →
      SendsMessage (.sendCapability .present recs)
        ([0xF0#8, 0x6C#8] ++ recordBytes recs ++ [0x7F#8, 0xF7#8]) s)
    ∧ (recs = [] → exec (.sendCapability .present recs) s = .next (s.answer { result := .invalidArgument }))
    ∧ (∀ before bad after, recs = before ++ bad :: after → (∀ r ∈ before, capRecordValid s.params r = true) →
      capRecordValid s.params bad = false →
      FailsMidMessage (.sendCapability .present recs) ([0xF0#8, 0x6C#8] ++ recordBytes before) s)
    ∧ (s.params.capRule = .dataBytes →
      ∀ r, capRecordValid s.params r = true ↔ r.mode ≤ 0x7F#8 ∧ r.resolution ≤ 0x7F#8)

/-- R135: SEND_ANALOG_MAPPING on accepted entries, on the empty map, and at the first entry that is not accepted, where
it ends by FAIL_MID (R138). That the failing clause answers `InvalidArgument` even where the sink had returned an error
before, under `SINK_RESULT_PROPAGATES`, is read from R138 and R123 by inference (log 12, DEDUCED). -/
def Obligations.SendAnalogMappingSendsTheMap : Prop :=
  ∀ (s : State) (map : List Byte), s.Inv →
    (∀ a, decode s.params (.op 0xC#4 a) = .ok (.sendAnalogMapping a.ctx a.bytes))
    ∧ (map ≠ [] → (∀ e ∈ map, e = 0x7F#8 ∨ e ≤ 0x0F#8) →
      SendsMessage (.sendAnalogMapping .present map) ([0xF0#8, 0x6A#8] ++ map ++ [0xF7#8]) s)
    ∧ (map = [] → exec (.sendAnalogMapping .present map) s = .next (s.answer { result := .invalidArgument }))
    ∧ ∀ before bad after, map = before ++ bad :: after → (∀ e ∈ before, e = 0x7F#8 ∨ e ≤ 0x0F#8) →
      ¬ (bad = 0x7F#8 ∨ bad ≤ 0x0F#8) →
      FailsMidMessage (.sendAnalogMapping .present map) ([0xF0#8, 0x6A#8] ++ before) s

/-- R60: each of the six outbound messages, composed, puts exactly its bytes on the outbound stream. That a message is
composed by APPEND of its bytes and a FLUSH when it is run as an instruction is the model's choice (log 6). -/
def Obligations.EachMessageLeavesAsItsFormatSays : Prop :=
  ∀ s : State, s.Inv →
    (∀ (pin : Nibble) (value : Value14), SendsItsMessage (.analogMessage pin value)
      [0xE0#8 ||| pin.setWidth 8, (value.extractLsb' 0 7).setWidth 8, (value.extractLsb' 7 7).setWidth 8] s)
    ∧ (∀ (port : Nibble) (value : Value14), SendsItsMessage (.digitalMessage port value)
      [0x90#8 ||| port.setWidth 8, (value.extractLsb' 0 7).setWidth 8, (value.extractLsb' 7 7).setWidth 8] s)
    ∧ SendsItsMessage .versionReply [0xF9#8, 0x02#8, 0x06#8] s
    ∧ (∀ chars, SendsItsMessage (.stringData chars)
      ([0xF0#8, s.params.stringDataId.setWidth 8]
        ++ (chars.flatMap fun c => [c &&& 0x7F#8, (c >>> 7) &&& 0x7F#8]) ++ [0xF7#8]) s)
    ∧ (∀ groups, SendsItsMessage (.capabilityResponse groups)
      ([0xF0#8, 0x6C#8]
        ++ (groups.flatMap fun g => (g.flatMap fun pair => [pair.1.setWidth 8, pair.2.setWidth 8]) ++ [0x7F#8])
        ++ [0xF7#8]) s)
    ∧ ∀ entries, SendsItsMessage (.analogMappingResponse entries)
      ([0xF0#8, 0x6A#8]
        ++ (entries.map fun e => e.elim 0x7F#8 fun channel => channel.setWidth 8) ++ [0xF7#8]) s

/-- R60, R130 to R135: a composite encoder on arguments that pass its validation is the message row it produces. -/
def Obligations.EncodersProduceTheirMessageRows : Prop :=
  ∀ s : State,
    (∀ (pin : Byte) (value : Half), pin ≤ 0x0F#8 → value ≤ 0x3FFF#16 →
      exec (.sendAnalog .present pin value) s = exec (.analogMessage (pin.setWidth 4) (value.setWidth 14)) s)
    ∧ (∀ (port : Byte) (value : Half), port ≤ 0x0F#8 → value ≤ 0x3FFF#16 →
      exec (.sendDigital .present port value) s = exec (.digitalMessage (port.setWidth 4) (value.setWidth 14)) s)
    ∧ (∀ str, str ≠ [] → exec (.sendString .present str) s = exec (.stringData str) s)
    ∧ (∀ recs, recs ≠ [] → s.params.capRule = .dataBytes →
      (∀ r ∈ recs, r.mode ≤ 0x7F#8 ∧ r.resolution ≤ 0x7F#8) →
      exec (.sendCapability .present recs) s = exec (.capabilityResponse (groupsOf recs)) s)
    ∧ ∀ entries : List (Option Nibble), entries ≠ [] →
      exec (.sendAnalogMapping .present (entries.map fun e => e.elim 0x7F#8 fun channel => channel.setWidth 8)) s
        = exec (.analogMappingResponse entries) s

/-- R60, R50: every byte of a message after the first has bit 7 clear, except the 0xF7 that ends a SysEx message; and so
for the inbound frames. -/
def Obligations.OnlyTheFirstByteAndTheTerminatorHaveBit7 : Prop :=
  ∀ (p : Params) (i : Instr) (bytes : List Byte),
    encode p i = .message bytes ∨ encode p i = .wire bytes →
    ∃ first rest, bytes = first :: rest ∧ first.msb = true
      ∧ (first ≠ 0xF0#8 → ∀ b ∈ rest, b.msb = false)
      ∧ (first = 0xF0#8 → ∃ body, rest = body ++ [0xF7#8] ∧ ∀ b ∈ body, b.msb = false)

/-! ### The frame decoder -/

/-- R53, R71: `BodyLen`, value by value. -/
def Obligations.BodyLengthOfEveryFirstByte : Prop :=
  ∀ b : Byte,
    (bodyLen b = some .two ↔ (0xE0#8 ≤ b ∧ b ≤ 0xEF#8) ∨ (0x90#8 ≤ b ∧ b ≤ 0x9F#8) ∨ b = 0xF4#8 ∨ b = 0xF5#8)
      ∧ (bodyLen b = some .one ↔ (0xC0#8 ≤ b ∧ b ≤ 0xCF#8) ∨ (0xD0#8 ≤ b ∧ b ≤ 0xDF#8))
      ∧ (bodyLen b = some .zero ↔ b = 0xF9#8 ∨ b = 0xFF#8)
      ∧ (bodyLen b = some .unbounded ↔ b = 0xF0#8)

/-- R84: the complete transition relation of the decoder's state, row by row, with the side effects of each row: the
bytes that leave CMD and CMD_DATA as they are or move between them, the bytes that reach READY and then, in the same
FEED, DISPATCH (R90) and the reset, and INIT from any state. -/
def Obligations.FeedFollowsTheTransitionTable : Prop :=
  ∀ (s : State) (b : Byte), s.Inv →
    let n := s.ctx.inputCursor
    let sysex := memRead s.ctx.inputBuf 0 = 0xF0#8
    let stored := memWrite s.ctx.inputBuf n b
    let toCmd : State → State := fun u =>
      { u with ctx := { u.ctx with state := .cmd, remainingCount := .zero, inputCursor := 0 } }
    let atReady : Remaining → State := fun k =>
      { s with ctx := { s.ctx with state := .ready, remainingCount := k, inputCursor := n + 1, inputBuf := stored } }
    let dispatched : Remaining → State := fun k =>
      (toCmd (dispatch (atReady k)).2).answer { result := (dispatch (atReady k)).1 }
    exec (.init .present) s = .next ({ s with ctx := Context.zero }.answer { result := .ok })
    ∧ ∃ t, exec (.feed .present b) s = .next t
      ∧ (s.ctx.state = .cmd → b.msb = false ∨ bodyLen b = none → t = s.answer { result := .unsupportedCommand })
      ∧ (s.ctx.state = .cmd → ∀ k, bodyLen b = some k → k ≠ .zero →
        t = { s with ctx := { s.ctx with
          state := .cmdData, remainingCount := k, inputCursor := 1, inputBuf := memWrite s.ctx.inputBuf 0 b } }.answer
            { result := .ok })
      ∧ (s.ctx.state = .cmd → bodyLen b = some .zero → n = 0 ∧ t = dispatched .zero)
      ∧ (s.ctx.state = .cmdData → sysex → b = 0xF7#8 → n < s.params.inCap → t = dispatched .unbounded)
      ∧ (s.ctx.state = .cmdData → b.msb = true → ¬ (sysex ∧ b = 0xF7#8) →
        t = (toCmd s).answer { result := .unsupportedCommand })
      ∧ (s.ctx.state = .cmdData → sysex → b.msb = false ∨ b = 0xF7#8 → n = s.params.inCap →
        t = (toCmd s).answer { result := .bufferFull })
      ∧ (s.ctx.state = .cmdData → sysex → b.msb = false → n < s.params.inCap →
        t = { s with ctx := { s.ctx with inputCursor := n + 1, inputBuf := stored } }.answer { result := .ok })
      ∧ (s.ctx.state = .cmdData → ¬ sysex → b.msb = false → s.ctx.remainingCount = .two →
        t = { s with ctx := { s.ctx with
          remainingCount := .one, inputCursor := n + 1, inputBuf := stored } }.answer { result := .ok })
      ∧ (s.ctx.state = .cmdData → ¬ sysex → b.msb = false → s.ctx.remainingCount = .one → t = dispatched .zero)

/-- R184: the bytes that force the decoder to CMD from any state, and what they leave alone. -/
def Obligations.UnmappedCommandBytesForceTheDecoderToCmd : Prop :=
  ∀ (s : State) (b : Byte), s.Inv →
    (b.msb = true ∧ b ≠ 0xF7#8 ∧ bodyLen b = none) ∨ b = 0xFF#8 →
    ∃ t, exec (.feed .present b) s = .next t ∧ Replies s t .unsupportedCommand ∧ DecoderReset t
      ∧ t = { s with ctx := { s.ctx with state := .cmd, remainingCount := .zero, inputCursor := 0,
                                         inputBuf := t.ctx.inputBuf }
                     replies := t.replies }

/-- R72, R169: a FEED that returns an error has reset the decoder and emitted no event, and has changed no handler, no
`user_data`, no byte and no cursor of the output side (with `SINK_RESULT_PROPAGATES = false`). -/
def Obligations.FeedErrorsOnlyResetTheDecoder : Prop :=
  ∀ (s t : State) (b : Byte) (e : Result), s.Inv → s.params.sinkResultPropagates = false →
    exec (.feed .present b) s = .next t → Replies s t e → e ≠ .ok →
    DecoderReset t
      ∧ t = { s with ctx := { s.ctx with state := .cmd, remainingCount := .zero, inputCursor := 0,
                                         inputBuf := t.ctx.inputBuf }
                     replies := t.replies }
      ∧ (∀ a, a ≠ s.ctx.inputCursor → memRead t.ctx.inputBuf a = memRead s.ctx.inputBuf a)
      ∧ (e = .unsupportedCommand ∨ e = .bufferFull ∨ e = .invalidFrame)

/-- R11, R18: what FEED leaves alone, whatever the byte: the parameters, the handlers, `user_data`, the requests, and
every byte of the input buffer but the one at the cursor; and where no handler issues anything and the byte is no
version query, the whole output side and the caller's storage. -/
def Obligations.FeedStoresAtTheCursorAndNowhereElse : Prop :=
  ∀ (s t : State) (b : Byte), s.Inv → exec (.feed .present b) s = .next t →
    FeedKeeps s t ∧ (∃ r, Replies s t r)
      ∧ (∀ a, a ≠ s.ctx.inputCursor → memRead t.ctx.inputBuf a = memRead s.ctx.inputBuf a)
      ∧ (s.scripts = [] → ¬ (s.ctx.state = .cmd ∧ b = 0xF9#8) → OutputKept s t)

/-- R78: FEED_BULK completes, is FEED of each byte in turn, and stops at the first error. -/
def Obligations.FeedBulkIsFeedUntilTheFirstError : Prop :=
  ∀ s : State, s.Inv →
    (∀ a, decode s.params (.op 0x3#4 a) = .ok (.feedBulk a.ctx a.bytes))
      ∧ (∀ bytes, exec (.feedBulk .absent bytes) s = .next (s.answer { result := .nullReference }))
      ∧ exec (.feedBulk .present []) s = .next (s.answer { result := .ok })
      ∧ ∀ (b : Byte) (rest : List Byte), ∃ u r,
        exec (.feed .present b) s = .next (u.answer { result := r }) ∧ u.Inv ∧ u.replies = s.replies
          ∧ (r = .ok → exec (.feedBulk .present (b :: rest)) s = exec (.feedBulk .present rest) u)
          ∧ (r ≠ .ok → exec (.feedBulk .present (b :: rest)) s = exec (.feed .present b) s)
          ∧ ∃ t, exec (.feedBulk .present (b :: rest)) s = .next t

/-- R80: a frame that arrives while a frame is pending is lost whole: its command byte aborts the pending frame and is
discarded, and each of its other bytes fails in CMD. The next command byte starts a frame. -/
def Obligations.AFrameInsideAFrameIsLost : Prop :=
  ∀ s : State, s.Inv → s.ctx.state = .cmdData →
    let reset : State := { s with ctx := { s.ctx with state := .cmd, remainingCount := .zero, inputCursor := 0 } }
    let failed : Nat → State := fun k =>
      { reset with replies := s.replies ++ List.replicate k { result := .unsupportedCommand } }
    (∀ channel value, exec (.analogIo channel value) s = .next (failed 3))
      ∧ (∀ channel value, exec (.digitalIo channel value) s = .next (failed 3))
      ∧ (∀ channel enabled, exec (.reportAnalog channel enabled) s = .next (failed 2))
      ∧ (∀ channel enabled, exec (.reportDigital channel enabled) s = .next (failed 2))
      ∧ (∀ pin mode, exec (.setPinMode pin mode) s = .next (failed 3))
      ∧ (∀ pin value, exec (.setPinValue pin value) s = .next (failed 3))
      ∧ exec .protocolVersion s = .next (failed 1) ∧ exec .systemReset s = .next (failed 1)
      ∧ (∀ body, exec (.sysex body) s = .next (failed (body.length + 2)))
      ∧ exec .analogMappingQuery s = .next (failed 3) ∧ exec .capabilityQuery s = .next (failed 3)
      ∧ ∀ k b n, bodyLen b = some n → n ≠ .zero → ∃ t, exec (.feed .present b) (failed k) = .next t
        ∧ t.ctx.state = .cmdData ∧ t.ctx.remainingCount = n ∧ t.ctx.inputCursor = 1 ∧ Replies (failed k) t .ok

/-! ### The dispatcher -/

/-- R91, R92: an analog or digital IO frame invokes its handler with the command byte, the channel and the 14-bit value;
an absent handler is a no-op. -/
def Obligations.ValueFramesInvokeTheirHandlers : Prop :=
  ∀ s : State, s.Inv → s.ctx.state = .cmd →
    (∀ (channel : Nibble) (value : Value14), FrameHandled (.analogIo channel value)
      [0xE0#8 ||| channel.setWidth 8, (value.extractLsb' 0 7).setWidth 8, (value.extractLsb' 7 7).setWidth 8]
      (s.ctx.handlers.analogIO.map fun h =>
        Event.handler .analogIO h s.ctx.userData (0xE0#8 ||| channel.setWidth 8) (channel.setWidth 8) (value.setWidth 16)) s)
    ∧ ∀ (channel : Nibble) (value : Value14), FrameHandled (.digitalIo channel value)
      [0x90#8 ||| channel.setWidth 8, (value.extractLsb' 0 7).setWidth 8, (value.extractLsb' 7 7).setWidth 8]
      (s.ctx.handlers.digitalIO.map fun h =>
        Event.handler .digitalIO h s.ctx.userData (0x90#8 ||| channel.setWidth 8) (channel.setWidth 8) (value.setWidth 16)) s

/-- R93, R94: a report frame invokes its handler with the single body byte widened, unvalidated. -/
def Obligations.ReportFramesInvokeTheirHandlers : Prop :=
  ∀ s : State, s.Inv → s.ctx.state = .cmd →
    (∀ (channel : Nibble) (enabled : Data7), FrameHandled (.reportAnalog channel enabled)
      [0xC0#8 ||| channel.setWidth 8, enabled.setWidth 8]
      (s.ctx.handlers.reportAnalog.map fun h =>
        Event.handler .reportAnalog h s.ctx.userData (0xC0#8 ||| channel.setWidth 8) (channel.setWidth 8)
          (enabled.setWidth 16)) s)
    ∧ ∀ (channel : Nibble) (enabled : Data7), FrameHandled (.reportDigital channel enabled)
      [0xD0#8 ||| channel.setWidth 8, enabled.setWidth 8]
      (s.ctx.handlers.reportDigital.map fun h =>
        Event.handler .reportDigital h s.ctx.userData (0xD0#8 ||| channel.setWidth 8) (channel.setWidth 8)
          (enabled.setWidth 16)) s

/-- R95, R96: a set-pin frame invokes its handler with the two body bytes, the second widened, not combined. -/
def Obligations.PinFramesInvokeTheirHandlers : Prop :=
  ∀ s : State, s.Inv → s.ctx.state = .cmd →
    (∀ pin mode : Data7, FrameHandled (.setPinMode pin mode) [0xF4#8, pin.setWidth 8, mode.setWidth 8]
      (s.ctx.handlers.setPinMode.map fun h =>
        Event.handler .setPinMode h s.ctx.userData 0xF4#8 (pin.setWidth 8) (mode.setWidth 16)) s)
    ∧ ∀ pin value : Data7, FrameHandled (.setPinValue pin value) [0xF5#8, pin.setWidth 8, value.setWidth 8]
      (s.ctx.handlers.setPinValue.map fun h =>
        Event.handler .setPinValue h s.ctx.userData 0xF5#8 (pin.setWidth 8) (value.setWidth 16)) s

/-- R101, R102: a query of exactly three bytes invokes its handler with `(0xF0, id)`; one with a payload fails
`InvalidFrame` at its terminator and invokes nothing. -/
def Obligations.QueryFramesInvokeTheirHandlers : Prop :=
  ∀ s : State, s.Inv → s.ctx.state = .cmd →
    FrameHandled .analogMappingQuery [0xF0#8, s.params.analogMappingQueryId.setWidth 8, 0xF7#8]
      (s.ctx.handlers.analogMappingQuery.map fun h =>
        Event.query .analogMappingQuery h s.ctx.userData 0xF0#8 (s.params.analogMappingQueryId.setWidth 8)) s
    ∧ FrameHandled .capabilityQuery [0xF0#8, 0x6B#8, 0xF7#8]
      (s.ctx.handlers.capabilityQuery.map fun h =>
        Event.query .capabilityQuery h s.ctx.userData 0xF0#8 0x6B#8) s
    ∧ ∀ (id : Data7) (payload : List Data7), id = s.params.analogMappingQueryId ∨ id = 0x6B#7 → payload ≠ [] →
      payload.length + 3 ≤ s.params.inCap →
      ∃ t, exec (.sysex (id :: payload)) s = .next t ∧ DecoderReset t ∧ FeedKeeps s t ∧ OutputKept s t
        ∧ t.trace = s.trace
        ∧ t.replies = s.replies ++ List.replicate (payload.length + 2) { result := .ok } ++ [{ result := .invalidFrame }]

/-- R97: the version query is answered by the engine itself, through the output buffer, behind what was pending, and
returns the last FLUSH's Result; and the frame as an instruction is the FEED of its one byte. -/
def Obligations.VersionQueryIsAnsweredThroughTheBuffer : Prop :=
  ∀ s : State, s.Inv → s.ctx.state = .cmd →
    encode s.params .protocolVersion = .wire [0xF9#8]
      ∧ exec .protocolVersion s = exec (.feed .present 0xF9#8) s
      ∧ ∃ t, exec .protocolVersion s = .next t ∧ DecoderReset t ∧ FrameStored [0xF9#8] s t ∧ FeedKeeps s t
        ∧ t.callerMem = s.callerMem ∧ t.scripts = s.scripts ∧ t.ctx.outputCursor = 0
        ∧ (s.ctx.handlers.output.isSome = true →
          delivered t = delivered s ++ pendingOut s ++ [0xF9#8, 0x02#8, 0x06#8])
        ∧ (s.ctx.handlers.output = none → t.trace = s.trace)
        ∧ (∀ callee, s.ctx.handlers.output = some callee → s.ctx.outputCursor + 3 ≤ s.params.outCap →
          t.trace = s.trace ++ [Event.sink callee s.ctx.userData (pendingOut s ++ [0xF9#8, 0x02#8, 0x06#8])])
        ∧ (∀ callee, s.ctx.handlers.output = some callee → s.params.outCap < s.ctx.outputCursor + 3 →
          s.trace.length + 2 ≤ t.trace.length)
        ∧ OnlySinkCalls s t ∧ OtherCellsKept 3 s t
        ∧ (s.ctx.handlers.output = none ∨ s.params.sinkResultPropagates = false → Replies s t .ok)
        ∧ (s.ctx.handlers.output.isSome = true → s.params.sinkResultPropagates = true →
          ∃ n, t.sinkCalls = n + 1 ∧ Replies s t (Config.sinkResult n))

/-- R98: the system-reset frame is accepted by the decoder, fails `UnsupportedCommand` in the dispatcher, emits nothing
and resets nothing but the decoder. -/
def Obligations.SystemResetFrameResetsNothing : Prop :=
  ∀ s : State, s.Inv → s.ctx.state = .cmd →
    encode s.params .systemReset = .wire [0xFF#8]
    ∧ exec .systemReset s
      = .next ({ s with ctx := { s.ctx with inputBuf := memWrite s.ctx.inputBuf 0 0xFF#8 } }.answer
        { result := .unsupportedCommand })

/-- R99, R100, R103 and the length tests of R101, R102: a SysEx frame that fits is accepted byte by byte; its last byte
returns `UnsupportedCommand` for an unknown sub-id (or none), `InvalidFrame` for a query of another length than 3, and
OK for a query; only the last emits an event. -/
def Obligations.SysexFramesAreJudgedBySubIdThenLength : Prop :=
  ∀ (s : State) (body : List Data7), s.Inv → s.ctx.state = .cmd → body.length + 2 ≤ s.params.inCap →
    let known := body.head? = some s.params.analogMappingQueryId ∨ body.head? = some 0x6B#7
    encode s.params (.sysex body) = .wire (0xF0#8 :: (body.map fun d => d.setWidth 8) ++ [0xF7#8])
    ∧ ∃ t r, exec (.sysex body) s = .next t ∧ DecoderReset t ∧ FeedKeeps s t
      ∧ FrameStored (0xF0#8 :: (body.map fun d => d.setWidth 8) ++ [0xF7#8]) s t
      ∧ t.replies = s.replies ++ List.replicate (body.length + 1) { result := .ok } ++ [{ result := r }]
      ∧ (¬ known → r = .unsupportedCommand) ∧ (known → body.length ≠ 1 → r = .invalidFrame)
      ∧ (known → body.length = 1 → r = .ok)
      ∧ (r ≠ .ok → t.trace = s.trace ∧ OutputKept s t)
      ∧ (body = [s.params.analogMappingQueryId] → exec (.sysex body) s = exec .analogMappingQuery s)
      ∧ (body = [0x6B#7] → exec (.sysex body) s = exec .capabilityQuery s)

/-- R54, R73, R75: a SysEx frame longer than the input buffer: `BufferFull` at byte IN_CAP + 1, and every byte after it
fails in CMD; no event. -/
def Obligations.OverlongSysexFramesFillTheBufferAndFail : Prop :=
  ∀ (s : State) (body : List Data7), s.Inv → s.ctx.state = .cmd → s.params.inCap < body.length + 2 →
    ∃ t, exec (.sysex body) s = .next t ∧ DecoderReset t ∧ FeedKeeps s t ∧ t.trace = s.trace ∧ OutputKept s t
      ∧ t.replies = s.replies ++ List.replicate s.params.inCap { result := .ok } ++ [{ result := .bufferFull }]
        ++ List.replicate (body.length + 1 - s.params.inCap) { result := .unsupportedCommand }
      ∧ memSlice t.ctx.inputBuf 0 s.params.inCap
        = ((0xF0#8 :: (body.map fun d => d.setWidth 8) ++ [0xF7#8]).take s.params.inCap)

/-- R187, R104, R171: the operations a handler issues inside a FEED have the effect the interface operations of those
names have when the caller issues them right after that FEED has returned: the nesting disturbs neither the decoder nor
FEED's Result. What they hand back, DECODE14's value with it, goes to the handler and not to the caller. -/
def Obligations.NestedOutputIsAsGoodAsLaterOutput : Prop :=
  (∀ (s : State) (op : HandlerOp), s.Usable → ∃ t reply, exec op.instr s = .next t
    ∧ t.replies = s.replies ++ [reply]
    ∧ runHandlerOp op s = { t with replies := s.replies, handlerReplies := s.handlerReplies ++ [reply] })
  ∧ ∀ (s t₀ : State) (b : Byte) (ops : List HandlerOp) (rest : List (List HandlerOp)), s.Inv →
    exec (.feed .present b) { s with scripts := [] :: rest } = .next t₀ →
    (t₀.scripts = rest →
      ∃ u replies, execAll (ops.map HandlerOp.instr) t₀ = .next u ∧ u.replies = t₀.replies ++ replies
        ∧ replies.length = ops.length
        ∧ exec (.feed .present b) { s with scripts := ops :: rest }
          = .next { u with replies := t₀.replies, handlerReplies := t₀.handlerReplies ++ replies })
    ∧ (t₀.scripts = [] :: rest →
      exec (.feed .present b) { s with scripts := ops :: rest } = .next { t₀ with scripts := ops :: rest })
    ∧ (t₀.scripts = rest ∨ t₀.scripts = [] :: rest)

/-! ### The whole machine -/

/-- R160: no condition is fatal: on a Context that INIT and the operations left, every instruction completes, and each
interface operation hands back exactly one Result. -/
def Obligations.EveryInstructionCompletesOnAUsableContext : Prop :=
  ∀ (s : State) (i : Instr), s.Usable →
    ∃ t, exec i s = .next t
      ∧ (∀ bytes, encode s.params i = .wire bytes → t.replies.length = s.replies.length + bytes.length)
      ∧ ((∀ bytes, encode s.params i ≠ .wire bytes) → ∃ reply, t.replies = s.replies ++ [reply])

/-- R167, with `SINK_RESULT_PROPAGATES = false`: which operation can return which Result. -/
def Obligations.EachOperationReturnsOnlyItsOwnErrors : Prop :=
  ∀ (s t : State) (reply : Reply), s.params.sinkResultPropagates = false → s.Inv →
    let may := fun (i : Instr) (results : List Result) =>
      exec i s = .next t → t.replies = s.replies ++ [reply] → reply.result ∈ results
    (∀ ctx, may (.init ctx) [.ok, .nullReference])
      ∧ (∀ ctx table, may (.attach ctx table) [.ok, .nullReference])
      ∧ (∀ ctx b, may (.feed ctx b) [.ok, .nullReference, .unsupportedCommand, .invalidFrame, .bufferFull])
      ∧ (∀ ctx bytes, may (.feedBulk ctx bytes) [.ok, .nullReference, .unsupportedCommand, .invalidFrame, .bufferFull])
      ∧ (∀ buf len offset, may (.decode14 buf len offset) [.ok, .outOfBounds])
      ∧ (∀ buf len offset value, may (.encode14 buf len offset value) [.ok, .outOfBounds])
      ∧ (∀ ctx b, may (.append ctx b) [.ok, .nullReference])
      ∧ (∀ ctx, may (.flush ctx) [.ok, .nullReference])
      ∧ (∀ ctx pin value, may (.sendAnalog ctx pin value) [.ok, .nullReference, .invalidArgument])
      ∧ (∀ ctx port value, may (.sendDigital ctx port value) [.ok, .nullReference, .invalidArgument])
      ∧ (∀ ctx str, may (.sendString ctx str) [.ok, .nullReference, .invalidArgument])
      ∧ (∀ ctx recs, may (.sendCapability ctx recs) [.ok, .nullReference, .invalidArgument])
      ∧ ∀ ctx map, may (.sendAnalogMapping ctx map) [.ok, .nullReference, .invalidArgument]

/-- R10, R20, R21: no instruction writes the parameters; only ATTACH and INIT write the handler table; only INIT writes
`user_data`. -/
def Obligations.OnlyAttachAndInitWriteTheControlRegisters : Prop :=
  ∀ (s t : State) (i : Instr), exec i s = .next t →
    t.params = s.params
      ∧ (t.ctx.handlers ≠ s.ctx.handlers →
        i = .init .present ∨ ∃ table, i = .attach .present (some table) ∧ t.ctx.handlers = table)
      ∧ (t.ctx.userData ≠ s.ctx.userData → i = .init .present)

/-- R23, R37: what has happened is never undone: under every instruction the event trace, the replies to the caller and to
the handlers, and the outbound stream only grow at their ends. -/
def Obligations.HistoryOnlyGrows : Prop :=
  ∀ (s t : State) (i : Instr), exec i s = .next t →
    (∃ evs, t.trace = s.trace ++ evs) ∧ (∃ rs, t.replies = s.replies ++ rs)
      ∧ (∃ rs, t.handlerReplies = s.handlerReplies ++ rs)
      ∧ ∃ bytes, delivered t = delivered s ++ bytes

/-- R21, U12: no rule of the engine depends on the value of `user_data`: two machines that differ in it alone stay alike
but for it, and stop alike, under every instruction and under every step. -/
def Obligations.UserDataInfluencesNothing : Prop :=
  ∀ s s' : State, forgetUserData s = forgetUserData s' →
    let alike := fun (run : State → Host.Outcome State Fault Refusal) =>
      (∀ t, run s = .next t → ∃ t', run s' = .next t' ∧ forgetUserData t = forgetUserData t')
        ∧ (∀ r, run s = .fault r → run s' = .fault r)
        ∧ ∀ r, run s = .refused r → run s' = .refused r
    (∀ i, alike (exec i)) ∧ alike step

/-- How a step runs: the decoded instruction of the caller's next request, with that request taken off the queue and
nothing else around it. The queue is the model's own (log 2). Bytes on the inbound line that are no frame are fed all the
same, and bytes to compose that are no message of R60 are APPENDed and flushed all the same, as one instruction with one
reply (log 5, log 6); an unassigned select code (R62) is refused. -/
def Obligations.AStepRunsTheDecodedInstruction : Prop :=
  ∀ (s : State) (rest : List Request),
    let s' : State := { s with requests := rest }
    (∀ w i, s.requests = .instr w :: rest → decode s.params w = .ok i → step s = exec i s')
      ∧ (∀ bytes e, s.requests = .instr (.wire bytes) :: rest → decode s.params (.wire bytes) = .error e →
        s.Usable → step s = .next (feedEach bytes s'))
      ∧ (∀ code args, s.requests = .instr (.op code args) :: rest → 0xD#4 ≤ code →
        step s = .refused (.unassignedOperation code))
      ∧ (∀ bytes e, s.requests = .instr (.message bytes) :: rest → decode s.params (.message bytes) = .error e →
        s.Usable →
        ∃ t replies, execAll ((bytes.map fun b => Instr.append .present b) ++ [.flush .present]) s' = .next t
          ∧ t.replies = s.replies ++ replies
          ∧ step s = .next { t with replies := s.replies
              ++ [{ result := ((replies.map Reply.result).find? fun r => decide (r ≠ .ok)).getD .ok }] })
      ∧ (∀ v, s.requests = .setUserData v :: rest →
        step s = .next { s' with ctx := { s'.ctx with userData := v } })
      ∧ (∀ addr b, s.requests = .storeByte addr b :: rest →
        step s = .next { s' with callerMem := memWrite s'.callerMem addr b })
      ∧ (s.requests = [] → step s = .next s)

/-! ### Encoding -/

/-- Decode of encode is the instruction, for every well-formed instruction and every operand. -/
def Obligations.DecodeOfEncodeIsTheInstruction : Prop :=
  ∀ (p : Params) (i : Instr), wellFormed p i = true → decode p (encode p i) = .ok i

/-- Encode of decode is the word, for frames and messages: every sequence of bytes has at most one reading, none is read
as a neighbour, and what is read is well formed. -/
def Obligations.EncodeOfDecodeIsTheBytes : Prop :=
  ∀ (p : Params) (i : Instr) (bytes : List Byte),
    (decode p (.wire bytes) = .ok i → encode p i = .wire bytes ∧ wellFormed p i = true)
      ∧ (decode p (.message bytes) = .ok i → encode p i = .message bytes ∧ wellFormed p i = true)

/-- R65, R91 to R98, R101, R102, R131 to R135, R62: words written out from the spec's own encodings and examples. The
parameters are those of `Config.default`: that a string's sub-id is 0x71 and the mapping query's 0x69 is presumed
(log 14). -/
def Obligations.TheSpecsOwnWordsDecodeAsItSays : Prop :=
  let p := Config.default
  decode p (.wire [0b11111001#8]) = .ok .protocolVersion
    ∧ decode p (.wire [0b11111111#8]) = .ok .systemReset
    ∧ decode p (.wire [0b11100011#8, 0b01100011#8, 0b00000001#8]) = .ok (.analogIo 3#4 0xE3#14)
    ∧ decode p (.wire [0b10010000#8, 0b00000000#8, 0b00000001#8]) = .ok (.digitalIo 0#4 0x80#14)
    ∧ decode p (.wire [0xC2#8, 0x01#8]) = .ok (.reportAnalog 2#4 1#7)
    ∧ decode p (.wire [0xF4#8, 0x0D#8, 0x01#8]) = .ok (.setPinMode 13#7 1#7)
    ∧ decode p (.wire [0xF5#8, 0x0D#8, 0x01#8]) = .ok (.setPinValue 13#7 1#7)
    ∧ decode p (.wire [0xF0#8, 0x6B#8, 0xF7#8]) = .ok .capabilityQuery
    ∧ decode p (.wire [0xF0#8, 0x69#8, 0xF7#8]) = .ok .analogMappingQuery
    ∧ decode p (.wire [0xF0#8, 0x71#8, 0x41#8, 0x00#8, 0xF7#8]) = .ok (.sysex [0x71#7, 0x41#7, 0x00#7])
    ∧ decode p (.message [0xF0#8, 0x71#8, 0x48#8, 0x00#8, 0x69#8, 0x00#8, 0xF7#8]) = .ok (.stringData [0x48#8, 0x69#8])
    ∧ decode p (.message [0b11100011#8, 0b01100011#8, 0b00000001#8]) = .ok (.analogMessage 3#4 0xE3#14)
    ∧ decode p (.message [0xF9#8, 0x02#8, 0x06#8]) = .ok .versionReply
    ∧ decode p (.op 0x2#4 { byte := 0xE3#8 }) = .ok (.feed .present 0xE3#8)
    ∧ decode p (.op 0x6#4 { byte := 0xAA#8 }) = .ok (.append .present 0xAA#8)
    ∧ decode p (.op 0xD#4 Args.zero) = .error (.unassignedOperation 0xD#4)
    ∧ decode p (.wire [0xFA#8]) = .error (.noSuchCommand 0xFA#8)

/-! ### What the sink returns -/

/-- R97, R123 under `SINK_RESULT_PROPAGATES`: a composite encoder that finishes its message, and each message row it
produces, returns the first Result of its sink calls that is not OK; the version query and VERSION_REPLY return the
Result of the last FLUSH. The sink is called once for each chunk, and its answers are free values (log 11); that a
message row is composed as its encoder composes it is the model's choice (log 6). -/
def Obligations.TheSinksResultsComeBackAsTheRulesSay : Prop :=
  ∀ s t : State, s.Inv → s.params.sinkResultPropagates = true →
    let returns := fun (i : Instr) (report : List Result → Result) => exec i s = .next t →
      (chunks t).length + s.sinkCalls = (chunks s).length + t.sinkCalls ∧ Replies s t (report (sinkResults s t))
    let firstNotOk := fun (rs : List Result) => (rs.find? fun r => decide (r ≠ .ok)).getD .ok
    let last := fun (rs : List Result) => rs.getLast?.getD .ok
    (∀ pin value, pin ≤ 0x0F#8 → value ≤ 0x3FFF#16 → returns (.sendAnalog .present pin value) firstNotOk)
      ∧ (∀ port value, port ≤ 0x0F#8 → value ≤ 0x3FFF#16 → returns (.sendDigital .present port value) firstNotOk)
      ∧ (∀ str, str ≠ [] → returns (.sendString .present str) firstNotOk)
      ∧ (∀ recs, recs ≠ [] → (∀ r ∈ recs, capRecordValid s.params r = true) →
        returns (.sendCapability .present recs) firstNotOk)
      ∧ (∀ map, map ≠ [] → (∀ e ∈ map, e = 0x7F#8 ∨ e ≤ 0x0F#8) →
        returns (.sendAnalogMapping .present map) firstNotOk)
      ∧ (∀ pin value, returns (.analogMessage pin value) firstNotOk)
      ∧ (∀ port value, returns (.digitalMessage port value) firstNotOk)
      ∧ (∀ chars, returns (.stringData chars) firstNotOk)
      ∧ (∀ groups, returns (.capabilityResponse groups) firstNotOk)
      ∧ (∀ entries, returns (.analogMappingResponse entries) firstNotOk)
      ∧ returns .versionReply last
      ∧ (s.ctx.state = .cmd → returns .protocolVersion last ∧ returns (.feed .present 0xF9#8) last)
end

