-- ==== Sys2Proof/Laws/State.lean ====
section
/-! SUPPORT. One lemma for each field of each named update of the Context and of the state, so that no proof unfolds a
record update. -/

namespace Sys2Proof.Machine

@[simp] theorem Context.setDecoder_state (c : Context) (st : DecoderState) (n : Remaining) (k : Nat) :
    (c.setDecoder st n k).state = st := rfl
@[simp] theorem Context.setDecoder_remainingCount (c : Context) (st : DecoderState) (n : Remaining) (k : Nat) :
    (c.setDecoder st n k).remainingCount = n := rfl
@[simp] theorem Context.setDecoder_inputCursor (c : Context) (st : DecoderState) (n : Remaining) (k : Nat) :
    (c.setDecoder st n k).inputCursor = k := rfl
@[simp] theorem Context.setDecoder_inputBuf (c : Context) (st : DecoderState) (n : Remaining) (k : Nat) :
    (c.setDecoder st n k).inputBuf = c.inputBuf := rfl
@[simp] theorem Context.setDecoder_outputCursor (c : Context) (st : DecoderState) (n : Remaining) (k : Nat) :
    (c.setDecoder st n k).outputCursor = c.outputCursor := rfl
@[simp] theorem Context.setDecoder_outputBuf (c : Context) (st : DecoderState) (n : Remaining) (k : Nat) :
    (c.setDecoder st n k).outputBuf = c.outputBuf := rfl
@[simp] theorem Context.setDecoder_handlers (c : Context) (st : DecoderState) (n : Remaining) (k : Nat) :
    (c.setDecoder st n k).handlers = c.handlers := rfl
@[simp] theorem Context.setDecoder_userData (c : Context) (st : DecoderState) (n : Remaining) (k : Nat) :
    (c.setDecoder st n k).userData = c.userData := rfl

@[simp] theorem Context.pushIn_state (c : Context) (b : Byte) :
    (c.pushIn b).state = c.state := rfl
@[simp] theorem Context.pushIn_remainingCount (c : Context) (b : Byte) :
    (c.pushIn b).remainingCount = c.remainingCount := rfl
@[simp] theorem Context.pushIn_inputCursor (c : Context) (b : Byte) :
    (c.pushIn b).inputCursor = c.inputCursor + 1 := rfl
@[simp] theorem Context.pushIn_inputBuf (c : Context) (b : Byte) :
    (c.pushIn b).inputBuf = memWrite c.inputBuf c.inputCursor b := rfl
@[simp] theorem Context.pushIn_outputCursor (c : Context) (b : Byte) :
    (c.pushIn b).outputCursor = c.outputCursor := rfl
@[simp] theorem Context.pushIn_outputBuf (c : Context) (b : Byte) :
    (c.pushIn b).outputBuf = c.outputBuf := rfl
@[simp] theorem Context.pushIn_handlers (c : Context) (b : Byte) :
    (c.pushIn b).handlers = c.handlers := rfl
@[simp] theorem Context.pushIn_userData (c : Context) (b : Byte) :
    (c.pushIn b).userData = c.userData := rfl

@[simp] theorem Context.pushOut_state (c : Context) (b : Byte) :
    (c.pushOut b).state = c.state := rfl
@[simp] theorem Context.pushOut_remainingCount (c : Context) (b : Byte) :
    (c.pushOut b).remainingCount = c.remainingCount := rfl
@[simp] theorem Context.pushOut_inputCursor (c : Context) (b : Byte) :
    (c.pushOut b).inputCursor = c.inputCursor := rfl
@[simp] theorem Context.pushOut_inputBuf (c : Context) (b : Byte) :
    (c.pushOut b).inputBuf = c.inputBuf := rfl
@[simp] theorem Context.pushOut_outputCursor (c : Context) (b : Byte) :
    (c.pushOut b).outputCursor = c.outputCursor + 1 := rfl
@[simp] theorem Context.pushOut_outputBuf (c : Context) (b : Byte) :
    (c.pushOut b).outputBuf = memWrite c.outputBuf c.outputCursor b := rfl
@[simp] theorem Context.pushOut_handlers (c : Context) (b : Byte) :
    (c.pushOut b).handlers = c.handlers := rfl
@[simp] theorem Context.pushOut_userData (c : Context) (b : Byte) :
    (c.pushOut b).userData = c.userData := rfl

@[simp] theorem Context.setOutputCursor_state (c : Context) (n : Nat) :
    (c.setOutputCursor n).state = c.state := rfl
@[simp] theorem Context.setOutputCursor_remainingCount (c : Context) (n : Nat) :
    (c.setOutputCursor n).remainingCount = c.remainingCount := rfl
@[simp] theorem Context.setOutputCursor_inputCursor (c : Context) (n : Nat) :
    (c.setOutputCursor n).inputCursor = c.inputCursor := rfl
@[simp] theorem Context.setOutputCursor_inputBuf (c : Context) (n : Nat) :
    (c.setOutputCursor n).inputBuf = c.inputBuf := rfl
@[simp] theorem Context.setOutputCursor_outputCursor (c : Context) (n : Nat) :
    (c.setOutputCursor n).outputCursor = n := rfl
@[simp] theorem Context.setOutputCursor_outputBuf (c : Context) (n : Nat) :
    (c.setOutputCursor n).outputBuf = c.outputBuf := rfl
@[simp] theorem Context.setOutputCursor_handlers (c : Context) (n : Nat) :
    (c.setOutputCursor n).handlers = c.handlers := rfl
@[simp] theorem Context.setOutputCursor_userData (c : Context) (n : Nat) :
    (c.setOutputCursor n).userData = c.userData := rfl

@[simp] theorem Context.setHandlers_state (c : Context) (t : HandlerTable) :
    (c.setHandlers t).state = c.state := rfl
@[simp] theorem Context.setHandlers_remainingCount (c : Context) (t : HandlerTable) :
    (c.setHandlers t).remainingCount = c.remainingCount := rfl
@[simp] theorem Context.setHandlers_inputCursor (c : Context) (t : HandlerTable) :
    (c.setHandlers t).inputCursor = c.inputCursor := rfl
@[simp] theorem Context.setHandlers_inputBuf (c : Context) (t : HandlerTable) :
    (c.setHandlers t).inputBuf = c.inputBuf := rfl
@[simp] theorem Context.setHandlers_outputCursor (c : Context) (t : HandlerTable) :
    (c.setHandlers t).outputCursor = c.outputCursor := rfl
@[simp] theorem Context.setHandlers_outputBuf (c : Context) (t : HandlerTable) :
    (c.setHandlers t).outputBuf = c.outputBuf := rfl
@[simp] theorem Context.setHandlers_handlers (c : Context) (t : HandlerTable) :
    (c.setHandlers t).handlers = t := rfl
@[simp] theorem Context.setHandlers_userData (c : Context) (t : HandlerTable) :
    (c.setHandlers t).userData = c.userData := rfl

@[simp] theorem Context.setUserData_state (c : Context) (v : Nat) :
    (c.setUserData v).state = c.state := rfl
@[simp] theorem Context.setUserData_remainingCount (c : Context) (v : Nat) :
    (c.setUserData v).remainingCount = c.remainingCount := rfl
@[simp] theorem Context.setUserData_inputCursor (c : Context) (v : Nat) :
    (c.setUserData v).inputCursor = c.inputCursor := rfl
@[simp] theorem Context.setUserData_inputBuf (c : Context) (v : Nat) :
    (c.setUserData v).inputBuf = c.inputBuf := rfl
@[simp] theorem Context.setUserData_outputCursor (c : Context) (v : Nat) :
    (c.setUserData v).outputCursor = c.outputCursor := rfl
@[simp] theorem Context.setUserData_outputBuf (c : Context) (v : Nat) :
    (c.setUserData v).outputBuf = c.outputBuf := rfl
@[simp] theorem Context.setUserData_handlers (c : Context) (v : Nat) :
    (c.setUserData v).handlers = c.handlers := rfl
@[simp] theorem Context.setUserData_userData (c : Context) (v : Nat) :
    (c.setUserData v).userData = v := rfl

@[simp] theorem State.setCtx_params (s : State) (c : Context) : (s.setCtx c).params = s.params := rfl
@[simp] theorem State.setCtx_ctx (s : State) (c : Context) : (s.setCtx c).ctx = c := rfl
@[simp] theorem State.setCtx_callerMem (s : State) (c : Context) : (s.setCtx c).callerMem = s.callerMem := rfl
@[simp] theorem State.setCtx_trace (s : State) (c : Context) : (s.setCtx c).trace = s.trace := rfl
@[simp] theorem State.setCtx_replies (s : State) (c : Context) : (s.setCtx c).replies = s.replies := rfl
@[simp] theorem State.setCtx_handlerReplies (s : State) (c : Context) : (s.setCtx c).handlerReplies = s.handlerReplies := rfl
@[simp] theorem State.setCtx_sinkCalls (s : State) (c : Context) : (s.setCtx c).sinkCalls = s.sinkCalls := rfl
@[simp] theorem State.setCtx_scripts (s : State) (c : Context) : (s.setCtx c).scripts = s.scripts := rfl
@[simp] theorem State.setCtx_requests (s : State) (c : Context) : (s.setCtx c).requests = s.requests := rfl

@[simp] theorem State.setCallerMem_params (s : State) (m : Memory) : (s.setCallerMem m).params = s.params := rfl
@[simp] theorem State.setCallerMem_ctx (s : State) (m : Memory) : (s.setCallerMem m).ctx = s.ctx := rfl
@[simp] theorem State.setCallerMem_callerMem (s : State) (m : Memory) : (s.setCallerMem m).callerMem = m := rfl
@[simp] theorem State.setCallerMem_trace (s : State) (m : Memory) : (s.setCallerMem m).trace = s.trace := rfl
@[simp] theorem State.setCallerMem_replies (s : State) (m : Memory) : (s.setCallerMem m).replies = s.replies := rfl
@[simp] theorem State.setCallerMem_handlerReplies (s : State) (m : Memory) : (s.setCallerMem m).handlerReplies = s.handlerReplies := rfl
@[simp] theorem State.setCallerMem_sinkCalls (s : State) (m : Memory) : (s.setCallerMem m).sinkCalls = s.sinkCalls := rfl
@[simp] theorem State.setCallerMem_scripts (s : State) (m : Memory) : (s.setCallerMem m).scripts = s.scripts := rfl
@[simp] theorem State.setCallerMem_requests (s : State) (m : Memory) : (s.setCallerMem m).requests = s.requests := rfl

@[simp] theorem State.emit_params (s : State) (e : Event) : (s.emit e).params = s.params := rfl
@[simp] theorem State.emit_ctx (s : State) (e : Event) : (s.emit e).ctx = s.ctx := rfl
@[simp] theorem State.emit_callerMem (s : State) (e : Event) : (s.emit e).callerMem = s.callerMem := rfl
@[simp] theorem State.emit_trace (s : State) (e : Event) : (s.emit e).trace = s.trace ++ [e] := rfl
@[simp] theorem State.emit_replies (s : State) (e : Event) : (s.emit e).replies = s.replies := rfl
@[simp] theorem State.emit_handlerReplies (s : State) (e : Event) : (s.emit e).handlerReplies = s.handlerReplies := rfl
@[simp] theorem State.emit_sinkCalls (s : State) (e : Event) : (s.emit e).sinkCalls = s.sinkCalls := rfl
@[simp] theorem State.emit_scripts (s : State) (e : Event) : (s.emit e).scripts = s.scripts := rfl
@[simp] theorem State.emit_requests (s : State) (e : Event) : (s.emit e).requests = s.requests := rfl

@[simp] theorem State.answer_params (s : State) (r : Reply) : (s.answer r).params = s.params := rfl
@[simp] theorem State.answer_ctx (s : State) (r : Reply) : (s.answer r).ctx = s.ctx := rfl
@[simp] theorem State.answer_callerMem (s : State) (r : Reply) : (s.answer r).callerMem = s.callerMem := rfl
@[simp] theorem State.answer_trace (s : State) (r : Reply) : (s.answer r).trace = s.trace := rfl
@[simp] theorem State.answer_replies (s : State) (r : Reply) : (s.answer r).replies = s.replies ++ [r] := rfl
@[simp] theorem State.answer_handlerReplies (s : State) (r : Reply) : (s.answer r).handlerReplies = s.handlerReplies := rfl
@[simp] theorem State.answer_sinkCalls (s : State) (r : Reply) : (s.answer r).sinkCalls = s.sinkCalls := rfl
@[simp] theorem State.answer_scripts (s : State) (r : Reply) : (s.answer r).scripts = s.scripts := rfl
@[simp] theorem State.answer_requests (s : State) (r : Reply) : (s.answer r).requests = s.requests := rfl

@[simp] theorem State.answerHandler_params (s : State) (r : Reply) : (s.answerHandler r).params = s.params := rfl
@[simp] theorem State.answerHandler_ctx (s : State) (r : Reply) : (s.answerHandler r).ctx = s.ctx := rfl
@[simp] theorem State.answerHandler_callerMem (s : State) (r : Reply) : (s.answerHandler r).callerMem = s.callerMem := rfl
@[simp] theorem State.answerHandler_trace (s : State) (r : Reply) : (s.answerHandler r).trace = s.trace := rfl
@[simp] theorem State.answerHandler_replies (s : State) (r : Reply) : (s.answerHandler r).replies = s.replies := rfl
@[simp] theorem State.answerHandler_handlerReplies (s : State) (r : Reply) :
    (s.answerHandler r).handlerReplies = s.handlerReplies ++ [r] := rfl
@[simp] theorem State.answerHandler_sinkCalls (s : State) (r : Reply) : (s.answerHandler r).sinkCalls = s.sinkCalls := rfl
@[simp] theorem State.answerHandler_scripts (s : State) (r : Reply) : (s.answerHandler r).scripts = s.scripts := rfl
@[simp] theorem State.answerHandler_requests (s : State) (r : Reply) : (s.answerHandler r).requests = s.requests := rfl

@[simp] theorem State.countSink_params (s : State) : s.countSink.params = s.params := rfl
@[simp] theorem State.countSink_ctx (s : State) : s.countSink.ctx = s.ctx := rfl
@[simp] theorem State.countSink_callerMem (s : State) : s.countSink.callerMem = s.callerMem := rfl
@[simp] theorem State.countSink_trace (s : State) : s.countSink.trace = s.trace := rfl
@[simp] theorem State.countSink_replies (s : State) : s.countSink.replies = s.replies := rfl
@[simp] theorem State.countSink_handlerReplies (s : State) : s.countSink.handlerReplies = s.handlerReplies := rfl
@[simp] theorem State.countSink_sinkCalls (s : State) : s.countSink.sinkCalls = s.sinkCalls + 1 := rfl
@[simp] theorem State.countSink_scripts (s : State) : s.countSink.scripts = s.scripts := rfl
@[simp] theorem State.countSink_requests (s : State) : s.countSink.requests = s.requests := rfl

@[simp] theorem State.setScripts_params (s : State) (l : List (List HandlerOp)) : (s.setScripts l).params = s.params := rfl
@[simp] theorem State.setScripts_ctx (s : State) (l : List (List HandlerOp)) : (s.setScripts l).ctx = s.ctx := rfl
@[simp] theorem State.setScripts_callerMem (s : State) (l : List (List HandlerOp)) : (s.setScripts l).callerMem = s.callerMem := rfl
@[simp] theorem State.setScripts_trace (s : State) (l : List (List HandlerOp)) : (s.setScripts l).trace = s.trace := rfl
@[simp] theorem State.setScripts_replies (s : State) (l : List (List HandlerOp)) : (s.setScripts l).replies = s.replies := rfl
@[simp] theorem State.setScripts_handlerReplies (s : State) (l : List (List HandlerOp)) : (s.setScripts l).handlerReplies = s.handlerReplies := rfl
@[simp] theorem State.setScripts_sinkCalls (s : State) (l : List (List HandlerOp)) : (s.setScripts l).sinkCalls = s.sinkCalls := rfl
@[simp] theorem State.setScripts_scripts (s : State) (l : List (List HandlerOp)) : (s.setScripts l).scripts = l := rfl
@[simp] theorem State.setScripts_requests (s : State) (l : List (List HandlerOp)) : (s.setScripts l).requests = s.requests := rfl

@[simp] theorem State.setRequests_params (s : State) (l : List Request) : (s.setRequests l).params = s.params := rfl
@[simp] theorem State.setRequests_ctx (s : State) (l : List Request) : (s.setRequests l).ctx = s.ctx := rfl
@[simp] theorem State.setRequests_callerMem (s : State) (l : List Request) : (s.setRequests l).callerMem = s.callerMem := rfl
@[simp] theorem State.setRequests_trace (s : State) (l : List Request) : (s.setRequests l).trace = s.trace := rfl
@[simp] theorem State.setRequests_replies (s : State) (l : List Request) : (s.setRequests l).replies = s.replies := rfl
@[simp] theorem State.setRequests_handlerReplies (s : State) (l : List Request) : (s.setRequests l).handlerReplies = s.handlerReplies := rfl
@[simp] theorem State.setRequests_sinkCalls (s : State) (l : List Request) : (s.setRequests l).sinkCalls = s.sinkCalls := rfl
@[simp] theorem State.setRequests_scripts (s : State) (l : List Request) : (s.setRequests l).scripts = s.scripts := rfl
@[simp] theorem State.setRequests_requests (s : State) (l : List Request) : (s.setRequests l).requests = l := rfl

@[simp] theorem State.setCtx_setCtx (s : State) (c c' : Context) : (s.setCtx c).setCtx c' = s.setCtx c' := rfl

@[simp] theorem State.setCtx_self (s : State) : s.setCtx s.ctx = s := rfl

end Sys2Proof.Machine
end

