-- ==== Sys2Proof/Laws/Memory.lean ====
section
/-! SUPPORT. The laws of byte memories: a read after a write, that every operation keeps the canonical form and the
capacity, and that equal reads mean equal memories. -/

namespace Sys2Proof.Machine

@[simp] theorem memRead_nil (a : Nat) : memRead [] a = 0#8 := rfl

theorem memRead_cons (k : Nat) (b : Byte) (rest : Memory) (a : Nat) :
    memRead ((k, b) :: rest) a = if k = a then b else memRead rest a := rfl

theorem memWfFrom_cons {lo k : Nat} {b : Byte} {rest : Memory} :
    memWfFrom lo ((k, b) :: rest) = true ↔ lo ≤ k ∧ b ≠ 0#8 ∧ memWfFrom (k + 1) rest = true := by
  simp [memWfFrom, and_assoc]

theorem memWfFrom_mono {lo lo' : Nat} (h : lo ≤ lo') : ∀ {m : Memory}, memWfFrom lo' m = true → memWfFrom lo m = true
  | [], _ => rfl
  | (_, _) :: _, hm => by
    rw [memWfFrom_cons] at hm ⊢
    exact ⟨Nat.le_trans h hm.1, hm.2⟩

/-- Below the least address of a canonical memory every byte reads as 0x00. -/
theorem memRead_below {a : Nat} : ∀ {m : Memory} {lo : Nat}, memWfFrom lo m = true → a < lo → memRead m a = 0#8
  | [], _, _, _ => rfl
  | (k, b) :: rest, lo, hm, ha => by
    rw [memWfFrom_cons] at hm
    rw [memRead_cons, if_neg (by omega)]
    exact memRead_below hm.2.2 (by omega)

/-- A read after a write, at the same address and at every other. -/
theorem memRead_memWrite (a : Nat) (b : Byte) (a' : Nat) :
    ∀ {m : Memory} {lo : Nat}, memWfFrom lo m = true →
      memRead (memWrite m a b) a' = if a' = a then b else memRead m a'
  | [], _, _ => by
    by_cases hb : b = 0#8 <;> simp [memWrite, hb, memRead_cons, eq_comm]
  | (k, x) :: rest, lo, hm => by
    have hm' := memWfFrom_cons.1 hm
    have ih := memRead_memWrite a b a' hm'.2.2
    have low : a < k → memRead ((k, x) :: rest) a = 0#8 := fun h => by
      rw [memRead_cons, if_neg (by omega)]; exact memRead_below hm'.2.2 (by omega)
    have here : memRead rest k = 0#8 := memRead_below hm'.2.2 (by omega)
    simp only [memWrite]
    split
    · rename_i hlt
      by_cases hb : b = 0#8
      · rw [if_pos hb]
        split
        · rename_i h; rw [h, low hlt, hb]
        · rfl
      · rw [if_neg hb, memRead_cons]
        simp only [eq_comm]
    · split
      · rename_i heq
        subst heq
        by_cases hb : b = 0#8
        · rw [if_pos hb]
          split
          · rename_i h; rw [h, here, hb]
          · rename_i h; rw [memRead_cons, if_neg (Ne.symm h)]
        · rw [if_neg hb, memRead_cons, memRead_cons]
          split
          · rename_i h; rw [if_pos h.symm]
          · rename_i h; rw [if_neg (Ne.symm h)]
      · rw [memRead_cons, memRead_cons, ih]
        split
        · rename_i h; rw [if_neg (by omega)]
        · rfl

/-- A write keeps the canonical form. -/
theorem memWfFrom_memWrite (a : Nat) (b : Byte) :
    ∀ {m : Memory} {lo : Nat}, memWfFrom lo m = true → lo ≤ a → memWfFrom lo (memWrite m a b) = true
  | [], _, _, h => by
    by_cases hb : b = 0#8 <;> simp [memWrite, hb, memWfFrom, h]
  | (k, x) :: rest, lo, hm, h => by
    have hm' := memWfFrom_cons.1 hm
    simp only [memWrite]
    split
    · by_cases hb : b = 0#8
      · rw [if_pos hb]; exact hm
      · rw [if_neg hb]
        exact memWfFrom_cons.2 ⟨h, hb, memWfFrom_cons.2 ⟨by omega, hm'.2⟩⟩
    · split
      · by_cases hb : b = 0#8
        · rw [if_pos hb]; exact memWfFrom_mono (by omega) hm'.2.2
        · rw [if_neg hb]
          rename_i heq
          exact memWfFrom_cons.2 ⟨h, hb, heq ▸ hm'.2.2⟩
      · exact memWfFrom_cons.2 ⟨hm'.1, hm'.2.1, memWfFrom_memWrite a b hm'.2.2 (by omega)⟩

theorem Memory.wf_nil : Memory.wf [] = true := rfl

theorem Memory.wf_memWrite {m : Memory} (h : Memory.wf m = true) (a : Nat) (b : Byte) :
    Memory.wf (memWrite m a b) = true := memWfFrom_memWrite a b h (Nat.zero_le a)

theorem Memory.read_write {m : Memory} (h : Memory.wf m = true) (a : Nat) (b : Byte) (a' : Nat) :
    memRead (memWrite m a b) a' = if a' = a then b else memRead m a' := memRead_memWrite a b a' h

/-- A byte just written reads back, in any list of cells. -/
theorem memRead_memWrite_same_of_ne {b : Byte} (hb : b ≠ 0#8) (a : Nat) : ∀ m : Memory, memRead (memWrite m a b) a = b
  | [] => by simp [memWrite, hb, memRead_cons]
  | (k, x) :: rest => by
    simp only [memWrite, if_neg hb]
    split
    · simp [memRead_cons]
    · split
      · simp [memRead_cons]
      · rename_i h
        rw [memRead_cons, if_neg (Ne.symm h)]
        exact memRead_memWrite_same_of_ne hb a rest

@[simp] theorem memWithin_nil (cap : Nat) : memWithin cap [] = true := rfl

/-- A write below the capacity lists no byte beyond it. -/
theorem memWithin_memWrite {cap a : Nat} (h : a < cap) (b : Byte) :
    ∀ {m : Memory}, memWithin cap m = true → memWithin cap (memWrite m a b) = true
  | [], _ => by by_cases hb : b = 0#8 <;> simp [memWrite, hb, memWithin, h]
  | (k, x) :: rest, hm => by
    simp only [memWithin, List.all_cons, Bool.and_eq_true, decide_eq_true_eq] at hm
    have ih := memWithin_memWrite h b (m := rest) hm.2
    simp only [memWrite]
    split
    · by_cases hb : b = 0#8 <;> simp [hb, memWithin, h, hm.1, hm.2]
    · split
      · by_cases hb : b = 0#8 <;> simp [hb, memWithin, h, hm.2]
      · simp only [memWithin, List.all_cons, Bool.and_eq_true, decide_eq_true_eq]
        exact ⟨hm.1, ih⟩

/-- Canonical memories that read the same are the same data. -/
theorem memory_ext : ∀ {m m' : Memory} {lo lo' : Nat}, memWfFrom lo m = true → memWfFrom lo' m' = true →
    (∀ a, memRead m a = memRead m' a) → m = m'
  | [], [], _, _, _, _, _ => rfl
  | [], (k, b) :: rest, _, _, _, h', e => by
    have := e k
    simp [memRead_cons] at this
    exact absurd this.symm (memWfFrom_cons.1 h').2.1
  | (k, b) :: rest, [], _, _, h, _, e => by
    have := e k
    simp [memRead_cons] at this
    exact absurd this (memWfFrom_cons.1 h).2.1
  | (k, b) :: rest, (k', b') :: rest', _, _, h, h', e => by
    have h := memWfFrom_cons.1 h
    have h' := memWfFrom_cons.1 h'
    have hk : k = k' := by
      rcases Nat.lt_trichotomy k k' with lt | eq | gt
      · have := e k
        rw [memRead_cons, if_pos rfl, memRead_cons, if_neg (by omega), memRead_below h'.2.2 (by omega)] at this
        exact absurd this h.2.1
      · exact eq
      · have := e k'
        rw [memRead_cons, if_neg (by omega), memRead_below h.2.2 (by omega), memRead_cons, if_pos rfl] at this
        exact absurd this.symm h'.2.1
    subst hk
    have hb : b = b' := by have := e k; simpa [memRead_cons] using this
    have hr : rest = rest' := memory_ext h.2.2 h'.2.2 fun a => by
      rcases Nat.lt_or_ge k a with lt | ge
      · have := e a; rwa [memRead_cons, memRead_cons, if_neg (by omega), if_neg (by omega)] at this
      · rw [memRead_below h.2.2 (by omega), memRead_below h'.2.2 (by omega)]
    rw [hb, hr]

@[simp] theorem memSlice_zero (m : Memory) (a : Nat) : memSlice m a 0 = [] := rfl

theorem memSlice_succ (m : Memory) (a n : Nat) : memSlice m a (n + 1) = memRead m a :: memSlice m (a + 1) n := rfl

@[simp] theorem length_memSlice (m : Memory) : ∀ (a n : Nat), (memSlice m a n).length = n
  | _, 0 => rfl
  | a, n + 1 => by rw [memSlice_succ, List.length_cons, length_memSlice m (a + 1) n]

/-- A slice grows at its end. -/
theorem memSlice_snoc (m : Memory) : ∀ (a n : Nat), memSlice m a (n + 1) = memSlice m a n ++ [memRead m (a + n)]
  | _, 0 => rfl
  | a, n + 1 => by
    rw [memSlice_succ m a (n + 1), memSlice_snoc m (a + 1) n, memSlice_succ m a n, List.cons_append]
    simp [Nat.add_assoc, Nat.add_comm 1 n]

/-- Slices of memories that read the same inside the slice are the same. -/
theorem memSlice_congr {m m' : Memory} : ∀ (a n : Nat), (∀ k, a ≤ k → k < a + n → memRead m k = memRead m' k) →
    memSlice m a n = memSlice m' a n
  | _, 0, _ => rfl
  | a, n + 1, h => by
    rw [memSlice_succ, memSlice_succ, h a (by omega) (by omega),
      memSlice_congr (a + 1) n fun k hk hk' => h k (by omega) (by omega)]

/-- A write at or after a slice's end leaves it alone. -/
theorem memSlice_memWrite_after {m : Memory} (h : Memory.wf m = true) (b : Byte) {a n k : Nat} (hk : a + n ≤ k) :
    memSlice (memWrite m k b) a n = memSlice m a n :=
  memSlice_congr a n fun j _ hj' => by rw [Memory.read_write h, if_neg (by omega)]

/-- Storing at the end of a slice makes the slice one byte longer. -/
theorem memSlice_push {m : Memory} (h : Memory.wf m = true) (b : Byte) (n : Nat) :
    memSlice (memWrite m n b) 0 (n + 1) = memSlice m 0 n ++ [b] := by
  rw [memSlice_snoc, memSlice_memWrite_after h b (by omega), Memory.read_write h]
  simp

end Sys2Proof.Machine
end

