-- ==== Sys2Proof/Laws/Output.lean ====
section
/-! SUPPORT. What the output buffer's operations do: their frame, the invariant they keep, the bytes they add to the
outbound stream, and the cells they store to. One lemma per shared operation; later proofs cite these. -/

namespace Sys2Proof.Machine

/-! ### The frame -/

/-- What no output operation changes, and that it adds only sink events to the trace. -/
structure OutputFrame (s t : State) : Prop where
  params : t.params = s.params
  state : t.ctx.state = s.ctx.state
  remainingCount : t.ctx.remainingCount = s.ctx.remainingCount
  inputCursor : t.ctx.inputCursor = s.ctx.inputCursor
  inputBuf : t.ctx.inputBuf = s.ctx.inputBuf
  handlers : t.ctx.handlers = s.ctx.handlers
  userData : t.ctx.userData = s.ctx.userData
  callerMem : t.callerMem = s.callerMem
  replies : t.replies = s.replies
  handlerReplies : t.handlerReplies = s.handlerReplies
  scripts : t.scripts = s.scripts
  requests : t.requests = s.requests
  trace : ∃ evs, t.trace = s.trace ++ evs ∧ ∀ e ∈ evs, (sinkChunk e).isSome

theorem OutputFrame.refl (s : State) : OutputFrame s s :=
  ⟨rfl, rfl, rfl, rfl, rfl, rfl, rfl, rfl, rfl, rfl, rfl, rfl, [], by simp⟩

theorem OutputFrame.trans {s t u : State} (h : OutputFrame s t) (h' : OutputFrame t u) : OutputFrame s u := by
  obtain ⟨evs, e, he⟩ := h.trace
  obtain ⟨evs', e', he'⟩ := h'.trace
  exact ⟨h'.params.trans h.params, h'.state.trans h.state, h'.remainingCount.trans h.remainingCount,
    h'.inputCursor.trans h.inputCursor, h'.inputBuf.trans h.inputBuf, h'.handlers.trans h.handlers,
    h'.userData.trans h.userData, h'.callerMem.trans h.callerMem, h'.replies.trans h.replies,
    h'.handlerReplies.trans h.handlerReplies, h'.scripts.trans h.scripts, h'.requests.trans h.requests, evs ++ evs', by rw [e', e, List.append_assoc],
    fun x hx => (List.mem_append.1 hx).elim (he x) (he' x)⟩

/-- Everything FLUSH can do (R121, R122). -/
theorem flush_cases (s : State) :
    ((s.ctx.handlers.output = none ∨ s.ctx.outputCursor = 0)
      ∧ flush s = (.ok, s.setCtx (s.ctx.setOutputCursor 0)))
    ∨ ∃ callee, s.ctx.handlers.output = some callee ∧ s.ctx.outputCursor ≠ 0
      ∧ flush s = (sinkAnswer s, ((s.emit (.sink callee s.ctx.userData (pendingOut s))).countSink).setCtx
          (s.ctx.setOutputCursor 0)) := by
  unfold flush
  cases h : s.ctx.handlers.output with
  | none => exact .inl ⟨.inl rfl, rfl⟩
  | some callee =>
    by_cases h0 : s.ctx.outputCursor = 0
    · exact .inl ⟨.inr h0, by simp [h0]⟩
    · exact .inr ⟨callee, rfl, h0, by simp [h0]⟩

theorem flush_frame (s : State) : OutputFrame s (flush s).2 := by
  obtain ⟨-, h⟩ | ⟨callee, -, -, h⟩ := flush_cases s <;> rw [h]
  · exact ⟨rfl, rfl, rfl, rfl, rfl, rfl, rfl, rfl, rfl, rfl, rfl, rfl, [], by simp⟩
  · exact ⟨rfl, rfl, rfl, rfl, rfl, rfl, rfl, rfl, rfl, rfl, rfl, rfl, [.sink callee s.ctx.userData (pendingOut s)],
      by simp [sinkChunk]⟩

@[simp] theorem flush_outputCursor (s : State) : (flush s).2.ctx.outputCursor = 0 := by
  obtain ⟨-, h⟩ | ⟨callee, -, -, h⟩ := flush_cases s <;> rw [h] <;> rfl

@[simp] theorem flush_outputBuf (s : State) : (flush s).2.ctx.outputBuf = s.ctx.outputBuf := by
  obtain ⟨-, h⟩ | ⟨callee, -, -, h⟩ := flush_cases s <;> rw [h] <;> rfl

theorem storeOut_frame (b : Byte) (s : State) : OutputFrame s (storeOut b s) :=
  ⟨rfl, rfl, rfl, rfl, rfl, rfl, rfl, rfl, rfl, rfl, rfl, rfl, [], by simp [storeOut]⟩

/-- Everything APPEND can do (R120): store, or flush and then store. -/
theorem append_cases (b : Byte) (s : State) :
    (s.ctx.outputCursor ≠ s.params.outCap ∧ append b s = (.ok, storeOut b s))
    ∨ (s.ctx.outputCursor = s.params.outCap ∧ append b s = ((flush s).1, storeOut b (flush s).2)) := by
  unfold append
  by_cases h : s.ctx.outputCursor = s.params.outCap
  · exact .inr ⟨h, by simp [h]⟩
  · exact .inl ⟨h, by simp [h]⟩

theorem append_frame (b : Byte) (s : State) : OutputFrame s (append b s).2 := by
  obtain ⟨-, h⟩ | ⟨-, h⟩ := append_cases b s <;> rw [h]
  · exact storeOut_frame b s
  · exact (flush_frame s).trans (storeOut_frame b _)

theorem appendAll_frame : ∀ (bytes : List Byte) (s : State), OutputFrame s (appendAll bytes s).2
  | [], s => .refl s
  | b :: rest, s => (append_frame b s).trans (appendAll_frame rest _)

theorem emitMessage_frame (bytes : List Byte) (s : State) : OutputFrame s (emitMessage bytes s).2 :=
  (appendAll_frame bytes s).trans (flush_frame _)

theorem emitReply_frame (bytes : List Byte) (s : State) : OutputFrame s (emitReply bytes s).2 :=
  (appendAll_frame bytes s).trans (flush_frame _)

/-- The reply and the message differ in the Result only (R97, R123). -/
theorem emitReply_state (bytes : List Byte) (s : State) : (emitReply bytes s).2 = (emitMessage bytes s).2 := rfl

theorem failMid_frame (e : Result) (s : State) : OutputFrame s (failMid e s).2 := by
  unfold failMid
  split
  · exact .refl s
  · exact flush_frame s
  · exact ⟨rfl, rfl, rfl, rfl, rfl, rfl, rfl, rfl, rfl, rfl, rfl, rfl, [], by simp⟩

/-- What appending pieces leads to: all appended, or the state where the first invalid one was met. -/
theorem appendPieces_spec : ∀ (pieces : List (Option (List Byte))) (r : Result) (s : State),
    (pieces.all Option.isSome = true
      ∧ ∃ r', appendPieces pieces r s = .done r' (appendAll (validBytes pieces) s).2)
    ∨ (pieces.all Option.isSome = false
      ∧ appendPieces pieces r s = .failed (appendAll (validBytes pieces) s).2)
  | [], r, s => .inl ⟨rfl, r, rfl⟩
  | none :: rest, r, s => .inr ⟨rfl, rfl⟩
  | some bytes :: rest, r, s => by
    have glue : ∀ (xs ys : List Byte) (s : State),
        (appendAll (xs ++ ys) s).2 = (appendAll ys (appendAll xs s).2).2 := by
      intro xs
      induction xs with
      | nil => intros; rfl
      | cons x xs ih => intro ys s; exact ih ys _
    simp only [appendPieces, validBytes, glue, List.all_cons, Option.isSome_some, Bool.true_and]
    exact appendPieces_spec rest _ _

/-- APPEND of a list in two parts. -/
theorem appendAll_append (xs ys : List Byte) : ∀ s : State,
    (appendAll (xs ++ ys) s).2 = (appendAll ys (appendAll xs s).2).2 := by
  induction xs with
  | nil => intros; rfl
  | cons x xs ih => intro s; exact ih _

/-- Everything a checked message can do (R134, R135, R138): the whole message and the flush, or the valid head of it
and FAIL_MID. -/
theorem composeChecked_cases (head : List Byte) (pieces : List (Option (List Byte))) (tail : List Byte) (s : State) :
    (pieces.all Option.isSome = true
      ∧ (composeChecked head pieces tail s).2 = (emitMessage (head ++ validBytes pieces ++ tail) s).2)
    ∨ (pieces.all Option.isSome = false
      ∧ composeChecked head pieces tail s = failMid .invalidArgument (appendAll (head ++ validBytes pieces) s).2) := by
  obtain ⟨hv, r', h⟩ | ⟨hv, h⟩ := appendPieces_spec pieces (appendAll head s).1 (appendAll head s).2
  · refine .inl ⟨hv, ?_⟩
    simp only [composeChecked, h, emitMessage, andThen, appendAll_append]
  · refine .inr ⟨hv, ?_⟩
    simp only [composeChecked, h, appendAll_append]

theorem composeChecked_frame (head : List Byte) (pieces : List (Option (List Byte))) (tail : List Byte) (s : State) :
    OutputFrame s (composeChecked head pieces tail s).2 := by
  obtain ⟨-, h⟩ | ⟨-, h⟩ := composeChecked_cases head pieces tail s <;> rw [h]
  · exact emitMessage_frame _ s
  · exact (appendAll_frame _ s).trans (failMid_frame _ _)

/-! ### The invariant of the output side -/

/-- The output cursor within the capacity, and the output buffer canonical and within it (10_state.md R15, R19). -/
structure OutputOk (s : State) : Prop where
  cursor : s.ctx.outputCursor ≤ s.params.outCap
  wf : Memory.wf s.ctx.outputBuf = true
  within : memWithin s.params.outCap s.ctx.outputBuf = true

theorem flush_ok {s : State} (h : OutputOk s) : OutputOk (flush s).2 := by
  have f := flush_frame s
  refine ⟨?_, ?_, ?_⟩
  · rw [flush_outputCursor]; exact Nat.zero_le _
  · rw [flush_outputBuf]; exact h.wf
  · rw [flush_outputBuf, f.params]; exact h.within

theorem storeOut_ok {b : Byte} {s : State} (h : OutputOk s) (hc : s.ctx.outputCursor < s.params.outCap) :
    OutputOk (storeOut b s) :=
  ⟨hc, Memory.wf_memWrite h.wf _ _, memWithin_memWrite hc _ h.within⟩

theorem append_ok {b : Byte} {s : State} (h : OutputOk s) : OutputOk (append b s).2 := by
  obtain ⟨hc, e⟩ | ⟨hc, e⟩ := append_cases b s <;> rw [e]
  · exact storeOut_ok h (Nat.lt_of_le_of_ne h.cursor hc)
  · refine storeOut_ok (flush_ok h) ?_
    rw [flush_outputCursor]
    exact (flush s).2.params.outCap_ge

theorem appendAll_ok : ∀ {bytes : List Byte} {s : State}, OutputOk s → OutputOk (appendAll bytes s).2
  | [], _, h => h
  | b :: rest, s, h => by
    show OutputOk (appendAll rest (append b s).2).2
    exact appendAll_ok (append_ok h)

theorem emitMessage_ok {bytes : List Byte} {s : State} (h : OutputOk s) : OutputOk (emitMessage bytes s).2 :=
  flush_ok (appendAll_ok h)

theorem failMid_ok {e : Result} {s : State} (h : OutputOk s) : OutputOk (failMid e s).2 := by
  unfold failMid
  split
  · exact h
  · exact flush_ok h
  · exact ⟨Nat.zero_le _, h.wf, h.within⟩

theorem composeChecked_ok {head : List Byte} {pieces : List (Option (List Byte))} {tail : List Byte} {s : State}
    (h : OutputOk s) : OutputOk (composeChecked head pieces tail s).2 := by
  obtain ⟨-, e⟩ | ⟨-, e⟩ := composeChecked_cases head pieces tail s <;> rw [e]
  · exact emitMessage_ok h
  · exact failMid_ok (appendAll_ok h)

/-! ### Results -/

/-- Under `SINK_RESULT_PROPAGATES = false` no output primitive reports an error (R123). -/
theorem flush_result {s : State} (h : s.params.sinkResultPropagates = false) : (flush s).1 = .ok := by
  obtain ⟨-, e⟩ | ⟨callee, -, -, e⟩ := flush_cases s <;> rw [e]
  simp [sinkAnswer, h]

theorem append_result {b : Byte} {s : State} (h : s.params.sinkResultPropagates = false) : (append b s).1 = .ok := by
  obtain ⟨-, e⟩ | ⟨-, e⟩ := append_cases b s <;> rw [e]
  exact flush_result h

theorem appendAll_result : ∀ {bytes : List Byte} {s : State}, s.params.sinkResultPropagates = false →
    (appendAll bytes s).1 = .ok
  | [], _, _ => rfl
  | b :: rest, s, h => by
    have h' : (append b s).2.params.sinkResultPropagates = false := by rw [(append_frame b s).params]; exact h
    simp only [appendAll, andThen, append_result h, appendAll_result h', firstError]

theorem emitMessage_result {bytes : List Byte} {s : State} (h : s.params.sinkResultPropagates = false) :
    (emitMessage bytes s).1 = .ok := by
  have h' : (appendAll bytes s).2.params.sinkResultPropagates = false := by
    rw [(appendAll_frame bytes s).params]; exact h
  simp only [emitMessage, andThen, appendAll_result h, flush_result h', firstError]

theorem emitReply_result {bytes : List Byte} {s : State} (h : s.params.sinkResultPropagates = false) :
    (emitReply bytes s).1 = .ok :=
  flush_result (by rw [(appendAll_frame bytes s).params]; exact h)

theorem appendPieces_result : ∀ {pieces : List (Option (List Byte))} {s : State},
    s.params.sinkResultPropagates = false → pieces.all Option.isSome = true →
    appendPieces pieces .ok s = .done .ok (appendAll (validBytes pieces) s).2
  | [], _, _, _ => rfl
  | none :: _, _, _, hv => by simp at hv
  | some bytes :: rest, s, h, hv => by
    have h' : (appendAll bytes s).2.params.sinkResultPropagates = false := by
      rw [(appendAll_frame bytes s).params]; exact h
    simp only [List.all_cons, Option.isSome_some, Bool.true_and] at hv
    simp only [appendPieces, validBytes, appendAll_result h, firstError, appendPieces_result h' hv, appendAll_append]

theorem composeChecked_result {head : List Byte} {pieces : List (Option (List Byte))} {tail : List Byte} {s : State}
    (h : s.params.sinkResultPropagates = false) (hv : pieces.all Option.isSome = true) :
    (composeChecked head pieces tail s).1 = .ok := by
  have h' : (appendAll head s).2.params.sinkResultPropagates = false := by
    rw [(appendAll_frame head s).params]; exact h
  have h'' : (appendAll (validBytes pieces) (appendAll head s).2).2.params.sinkResultPropagates = false := by
    rw [(appendAll_frame _ _).params]; exact h'
  simp only [composeChecked, appendAll_result h, appendPieces_result h' hv, andThen, firstError,
    emitMessage_result h'']

/-! ### The outbound stream -/

@[simp] theorem delivered_setCtx (s : State) (c : Context) : delivered (s.setCtx c) = delivered s := rfl

@[simp] theorem delivered_answer (s : State) (r : Reply) : delivered (s.answer r) = delivered s := rfl

theorem delivered_emit_sink (s : State) (callee : Callback) (ud : Nat) (bytes : List Byte) :
    delivered (s.emit (.sink callee ud bytes)) = delivered s ++ bytes := by
  simp [delivered, chunks, sinkChunk]

/-- A state whose sink is present. -/
def HasSink (s : State) : Prop := s.ctx.handlers.output.isSome = true

theorem HasSink.of_frame {s t : State} (f : OutputFrame s t) (h : HasSink s) : HasSink t := by
  unfold HasSink at *; rw [f.handlers]; exact h

/-- FLUSH with a sink delivers exactly the pending bytes (R121, R37). -/
theorem flush_delivered {s : State} (h : HasSink s) : delivered (flush s).2 = outbound s := by
  obtain ⟨h0, e⟩ | ⟨callee, -, -, e⟩ := flush_cases s <;> rw [e]
  · rcases h0 with hn | h0
    · simp [HasSink, hn] at h
    · simp [outbound, pendingOut, h0]
  · rw [delivered_setCtx]
    exact delivered_emit_sink s callee s.ctx.userData (pendingOut s)

theorem flush_outbound {s : State} (h : HasSink s) : outbound (flush s).2 = outbound s := by
  rw [outbound, flush_delivered h, pendingOut, flush_outputCursor, memSlice_zero, List.append_nil]

theorem storeOut_outbound {b : Byte} {s : State} (h : OutputOk s) : outbound (storeOut b s) = outbound s ++ [b] := by
  rw [outbound, outbound, pendingOut, pendingOut, List.append_assoc]
  exact congrArg (delivered s ++ ·) (memSlice_push h.wf b s.ctx.outputCursor)

/-- APPEND adds its byte at the end of the outbound stream (R120, R37). -/
theorem append_outbound {b : Byte} {s : State} (h : OutputOk s) (hs : HasSink s) :
    outbound (append b s).2 = outbound s ++ [b] := by
  obtain ⟨-, e⟩ | ⟨-, e⟩ := append_cases b s <;> rw [e]
  · exact storeOut_outbound h
  · rw [storeOut_outbound (flush_ok h), flush_outbound hs]

theorem appendAll_outbound : ∀ {bytes : List Byte} {s : State}, OutputOk s → HasSink s →
    outbound (appendAll bytes s).2 = outbound s ++ bytes
  | [], s, _, _ => by simp [appendAll]
  | b :: rest, s, h, hs => by
    have := appendAll_outbound (bytes := rest) (append_ok (b := b) h) (hs.of_frame (append_frame b s))
    rw [append_outbound h hs, List.append_assoc] at this
    exact this

/-- A whole message reaches the sink behind what was pending (R130). -/
theorem emitMessage_delivered {bytes : List Byte} {s : State} (h : OutputOk s) (hs : HasSink s) :
    delivered (emitMessage bytes s).2 = outbound s ++ bytes := by
  simp only [emitMessage, andThen]
  rw [flush_delivered (hs.of_frame (appendAll_frame bytes s)), appendAll_outbound h hs]

@[simp] theorem emitMessage_outputCursor (bytes : List Byte) (s : State) :
    (emitMessage bytes s).2.ctx.outputCursor = 0 := flush_outputCursor _

/-! ### The cells of the output buffer -/

/-- The cell the next APPEND stores to (R120): the cursor, or 0 when the buffer is full. -/
def nextCell (s : State) : Nat := if s.ctx.outputCursor = s.params.outCap then 0 else s.ctx.outputCursor

/-- APPEND stores its byte in one cell and changes no other (R120). -/
theorem append_cell (b : Byte) (s : State) :
    (append b s).2.ctx.outputBuf = memWrite s.ctx.outputBuf (nextCell s) b
      ∧ (append b s).2.ctx.outputCursor = nextCell s + 1 := by
  unfold nextCell
  obtain ⟨hc, e⟩ | ⟨hc, e⟩ := append_cases b s <;> rw [e]
  · rw [if_neg hc]; exact ⟨rfl, rfl⟩
  · rw [if_pos hc]
    constructor
    · show memWrite (flush s).2.ctx.outputBuf (flush s).2.ctx.outputCursor b = _
      rw [flush_outputBuf, flush_outputCursor]
    · show (flush s).2.ctx.outputCursor + 1 = _
      rw [flush_outputCursor]

theorem nextCell_eq_mod {s : State} (h : s.ctx.outputCursor ≤ s.params.outCap) :
    nextCell s = s.ctx.outputCursor % s.params.outCap := by
  unfold nextCell
  split
  · rename_i e; rw [e, Nat.mod_self]
  · exact (Nat.mod_eq_of_lt (Nat.lt_of_le_of_ne h ‹_›)).symm

/-- A run of APPENDs stores to the cells that follow the cursor round the buffer, and to no other. -/
theorem appendAll_cells : ∀ {bytes : List Byte} {s : State}, OutputOk s → ∀ a,
    (∀ k, k < bytes.length → (s.ctx.outputCursor + k) % s.params.outCap ≠ a) →
    memRead (appendAll bytes s).2.ctx.outputBuf a = memRead s.ctx.outputBuf a
  | [], _, _, _, _ => rfl
  | b :: rest, s, h, a, ha => by
    have cell := append_cell b s
    have hp : (append b s).2.params = s.params := (append_frame b s).params
    have first := ha 0 (by simp)
    have cap := s.params.outCap_ge
    rw [Nat.add_zero, ← nextCell_eq_mod h.cursor] at first
    have ih := appendAll_cells (bytes := rest) (append_ok (b := b) h) a (fun k hk => by
      rw [cell.2, hp, nextCell_eq_mod h.cursor, Nat.add_assoc, Nat.mod_add_mod]
      have := ha (k + 1) (by simp only [List.length_cons]; omega)
      rwa [show s.ctx.outputCursor + (1 + k) = s.ctx.outputCursor + (k + 1) by omega])
    rw [cell.1, Memory.read_write h.wf, if_neg (Ne.symm first)] at ih
    exact ih

end Sys2Proof.Machine
end

