-- ==== Sys2Proof/Laws/Handlers.lean ====
section
/-! SUPPORT. What the composite encoders, a handler's operations and the dispatcher do: their frames and the invariant
they keep. -/

namespace Sys2Proof.Machine

/-! ### The composite encoders -/

theorem sendStatus_frame (base pin : Byte) (value : Half) (s : State) : OutputFrame s (sendStatus base pin value s).2 := by
  unfold sendStatus
  split
  · exact emitMessage_frame _ s
  · exact .refl s

theorem sendString_frame (str : List Byte) (s : State) : OutputFrame s (sendString str s).2 := by
  unfold sendString
  split
  · exact .refl s
  · exact emitMessage_frame _ s

theorem sendCapability_frame (recs : List CapRecord) (s : State) : OutputFrame s (sendCapability recs s).2 := by
  unfold sendCapability
  split
  · exact .refl s
  · exact composeChecked_frame _ _ _ s

theorem sendAnalogMapping_frame (map : List Byte) (s : State) : OutputFrame s (sendAnalogMapping map s).2 := by
  unfold sendAnalogMapping
  split
  · exact .refl s
  · exact composeChecked_frame _ _ _ s

theorem sendStatus_ok {base pin : Byte} {value : Half} {s : State} (h : OutputOk s) :
    OutputOk (sendStatus base pin value s).2 := by
  unfold sendStatus
  split
  · exact emitMessage_ok h
  · exact h

theorem sendString_ok {str : List Byte} {s : State} (h : OutputOk s) : OutputOk (sendString str s).2 := by
  unfold sendString
  split
  · exact h
  · exact emitMessage_ok h

theorem sendCapability_ok {recs : List CapRecord} {s : State} (h : OutputOk s) :
    OutputOk (sendCapability recs s).2 := by
  unfold sendCapability
  split
  · exact h
  · exact composeChecked_ok h

theorem sendAnalogMapping_ok {map : List Byte} {s : State} (h : OutputOk s) : OutputOk (sendAnalogMapping map s).2 := by
  unfold sendAnalogMapping
  split
  · exact h
  · exact composeChecked_ok h

/-! ### A handler's operations -/

/-- What no callback invocation changes (70_reset_and_hazards.md R187): the decoder's registers and buffer, the
handlers, `user_data`, the parameters, the caller's replies and the requests. The trace and the handlers' replies only
grow. -/
structure CallFrame (s t : State) : Prop where
  params : t.params = s.params
  state : t.ctx.state = s.ctx.state
  remainingCount : t.ctx.remainingCount = s.ctx.remainingCount
  inputCursor : t.ctx.inputCursor = s.ctx.inputCursor
  inputBuf : t.ctx.inputBuf = s.ctx.inputBuf
  handlers : t.ctx.handlers = s.ctx.handlers
  userData : t.ctx.userData = s.ctx.userData
  replies : t.replies = s.replies
  requests : t.requests = s.requests
  trace : ∃ evs, t.trace = s.trace ++ evs
  handlerReplies : ∃ rs, t.handlerReplies = s.handlerReplies ++ rs

theorem CallFrame.refl (s : State) : CallFrame s s :=
  ⟨rfl, rfl, rfl, rfl, rfl, rfl, rfl, rfl, rfl, ⟨[], (List.append_nil _).symm⟩, [], (List.append_nil _).symm⟩

theorem CallFrame.trans {s t u : State} (h : CallFrame s t) (h' : CallFrame t u) : CallFrame s u := by
  obtain ⟨evs, e⟩ := h.trace
  obtain ⟨evs', e'⟩ := h'.trace
  obtain ⟨rs, r⟩ := h.handlerReplies
  obtain ⟨rs', r'⟩ := h'.handlerReplies
  exact ⟨h'.params.trans h.params, h'.state.trans h.state, h'.remainingCount.trans h.remainingCount,
    h'.inputCursor.trans h.inputCursor, h'.inputBuf.trans h.inputBuf, h'.handlers.trans h.handlers,
    h'.userData.trans h.userData, h'.replies.trans h.replies, h'.requests.trans h.requests,
    ⟨evs ++ evs', by rw [e', e, List.append_assoc]⟩, rs ++ rs', by rw [r', r, List.append_assoc]⟩

theorem OutputFrame.call {s t : State} (h : OutputFrame s t) : CallFrame s t :=
  ⟨h.params, h.state, h.remainingCount, h.inputCursor, h.inputBuf, h.handlers, h.userData, h.replies, h.requests,
    h.trace.imp fun _ he => he.1, [], by rw [h.handlerReplies, List.append_nil]⟩

/-- Everything ENCODE14 can do (R111). -/
theorem encode14_cases (buf len : Nat) (offset : Int) (value : Half) (s : State) :
    (inBounds len offset = true ∧ encode14 buf len offset value s = (.ok, s.setCallerMem
        (memWrite (memWrite s.callerMem (buf + offset.toNat) (low7 value)) (buf + offset.toNat + 1) (high7 value))))
    ∨ (inBounds len offset = false ∧ encode14 buf len offset value s = (.outOfBounds, s)) := by
  unfold encode14 encodePair
  cases h : inBounds len offset
  · exact .inr ⟨rfl, by simp⟩
  · exact .inl ⟨rfl, by simp⟩

theorem handlerOp_frame (op : HandlerOp) (s : State) : CallFrame s (handlerOp op s).2 := by
  cases op with
  | append b => exact (append_frame b s).call
  | flush => exact (flush_frame s).call
  | sendAnalog pin value => exact (sendStatus_frame _ pin value s).call
  | sendDigital port value => exact (sendStatus_frame _ port value s).call
  | sendString str => exact (sendString_frame str s).call
  | sendCapability recs => exact (sendCapability_frame recs s).call
  | sendAnalogMapping map => exact (sendAnalogMapping_frame map s).call
  | decode14 buf len offset => exact .refl s
  | encode14 buf len offset value =>
    show CallFrame s (encode14 buf len offset value s).2
    obtain ⟨-, e⟩ | ⟨-, e⟩ := encode14_cases buf len offset value s <;> rw [e]
    · exact ⟨rfl, rfl, rfl, rfl, rfl, rfl, rfl, rfl, rfl, ⟨[], (List.append_nil _).symm⟩, [], (List.append_nil _).symm⟩
    · exact .refl s

theorem answerHandler_frame (r : Reply) (s : State) : CallFrame s (s.answerHandler r) :=
  ⟨rfl, rfl, rfl, rfl, rfl, rfl, rfl, rfl, rfl, ⟨[], (List.append_nil _).symm⟩, [r], rfl⟩

theorem runHandlerOp_frame (op : HandlerOp) (s : State) : CallFrame s (runHandlerOp op s) :=
  (handlerOp_frame op s).trans (answerHandler_frame _ _)

/-- The output side's invariant and the caller's memory in canonical form: what a callback keeps. -/
structure CallOk (s : State) : Prop where
  output : OutputOk s
  caller : Memory.wf s.callerMem = true

theorem CallOk.of_output {s t : State} (h : CallOk s) (f : OutputFrame s t) (o : OutputOk t) : CallOk t :=
  ⟨o, by rw [f.callerMem]; exact h.caller⟩

theorem handlerOp_ok {op : HandlerOp} {s : State} (h : CallOk s) : CallOk (handlerOp op s).2 := by
  cases op with
  | append b => exact h.of_output (append_frame b s) (append_ok h.output)
  | flush => exact h.of_output (flush_frame s) (flush_ok h.output)
  | sendAnalog pin value => exact h.of_output (sendStatus_frame _ pin value s) (sendStatus_ok h.output)
  | sendDigital port value => exact h.of_output (sendStatus_frame _ port value s) (sendStatus_ok h.output)
  | sendString str => exact h.of_output (sendString_frame str s) (sendString_ok h.output)
  | sendCapability recs => exact h.of_output (sendCapability_frame recs s) (sendCapability_ok h.output)
  | sendAnalogMapping map => exact h.of_output (sendAnalogMapping_frame map s) (sendAnalogMapping_ok h.output)
  | decode14 buf len offset => exact h
  | encode14 buf len offset value =>
    show CallOk (encode14 buf len offset value s).2
    obtain ⟨-, e⟩ | ⟨-, e⟩ := encode14_cases buf len offset value s <;> rw [e]
    · exact ⟨⟨h.output.cursor, h.output.wf, h.output.within⟩, Memory.wf_memWrite (Memory.wf_memWrite h.caller _ _) _ _⟩
    · exact h

theorem runHandlerOp_ok {op : HandlerOp} {s : State} (h : CallOk s) : CallOk (runHandlerOp op s) :=
  have ok := handlerOp_ok (op := op) h
  ⟨⟨ok.output.cursor, ok.output.wf, ok.output.within⟩, ok.caller⟩

theorem runScript_frame : ∀ (script : List HandlerOp) (s : State), CallFrame s (runScript script s)
  | [], s => .refl s
  | op :: rest, s => (runHandlerOp_frame op s).trans (runScript_frame rest _)

theorem runScript_ok : ∀ {script : List HandlerOp} {s : State}, CallOk s → CallOk (runScript script s)
  | [], _, h => h
  | op :: rest, s, h => by
    show CallOk (runScript rest (runHandlerOp op s))
    exact runScript_ok (runHandlerOp_ok h)

theorem runNextScript_frame (s : State) : CallFrame s (runNextScript s) := by
  unfold runNextScript
  split
  · exact .refl s
  · rename_i script rest _
    exact CallFrame.trans (t := s.setScripts rest)
      ⟨rfl, rfl, rfl, rfl, rfl, rfl, rfl, rfl, rfl, ⟨[], (List.append_nil _).symm⟩, [], (List.append_nil _).symm⟩
      (runScript_frame script _)

theorem runNextScript_ok {s : State} (h : CallOk s) : CallOk (runNextScript s) := by
  unfold runNextScript
  split
  · exact h
  · exact runScript_ok ⟨⟨h.output.cursor, h.output.wf, h.output.within⟩, h.caller⟩

theorem emit_frame (e : Event) (s : State) : CallFrame s (s.emit e) :=
  ⟨rfl, rfl, rfl, rfl, rfl, rfl, rfl, rfl, rfl, ⟨[e], rfl⟩, [], (List.append_nil _).symm⟩

/-- Everything a `call` of a three-argument slot can do (R104). -/
theorem callCommand_cases (slot : CommandSlot) (cmd a : Byte) (b : Half) (s : State) :
    (commandCallback s.ctx.handlers slot = none ∧ callCommand slot cmd a b s = s)
    ∨ ∃ callee, commandCallback s.ctx.handlers slot = some callee
      ∧ callCommand slot cmd a b s = runNextScript (s.emit (.handler slot callee s.ctx.userData cmd a b)) := by
  unfold callCommand
  cases h : commandCallback s.ctx.handlers slot with
  | none => exact .inl ⟨rfl, rfl⟩
  | some callee => exact .inr ⟨callee, rfl, rfl⟩

/-- Everything a `call` of a query slot can do (R104). -/
theorem callQuery_cases (slot : QuerySlot) (cmd id : Byte) (s : State) :
    (queryCallback s.ctx.handlers slot = none ∧ callQuery slot cmd id s = s)
    ∨ ∃ callee, queryCallback s.ctx.handlers slot = some callee
      ∧ callQuery slot cmd id s = runNextScript (s.emit (.query slot callee s.ctx.userData cmd id)) := by
  unfold callQuery
  cases h : queryCallback s.ctx.handlers slot with
  | none => exact .inl ⟨rfl, rfl⟩
  | some callee => exact .inr ⟨callee, rfl, rfl⟩

theorem callCommand_frame (slot : CommandSlot) (cmd a : Byte) (b : Half) (s : State) :
    CallFrame s (callCommand slot cmd a b s) := by
  obtain ⟨-, e⟩ | ⟨callee, -, e⟩ := callCommand_cases slot cmd a b s <;> rw [e]
  · exact .refl s
  · exact (emit_frame _ s).trans (runNextScript_frame _)

theorem callQuery_frame (slot : QuerySlot) (cmd id : Byte) (s : State) : CallFrame s (callQuery slot cmd id s) := by
  obtain ⟨-, e⟩ | ⟨callee, -, e⟩ := callQuery_cases slot cmd id s <;> rw [e]
  · exact .refl s
  · exact (emit_frame _ s).trans (runNextScript_frame _)

theorem callCommand_ok {slot : CommandSlot} {cmd a : Byte} {b : Half} {s : State} (h : CallOk s) :
    CallOk (callCommand slot cmd a b s) := by
  obtain ⟨-, e⟩ | ⟨callee, -, e⟩ := callCommand_cases slot cmd a b s <;> rw [e]
  · exact h
  · exact runNextScript_ok ⟨⟨h.output.cursor, h.output.wf, h.output.within⟩, h.caller⟩

theorem callQuery_ok {slot : QuerySlot} {cmd id : Byte} {s : State} (h : CallOk s) :
    CallOk (callQuery slot cmd id s) := by
  obtain ⟨-, e⟩ | ⟨callee, -, e⟩ := callQuery_cases slot cmd id s <;> rw [e]
  · exact h
  · exact runNextScript_ok ⟨⟨h.output.cursor, h.output.wf, h.output.within⟩, h.caller⟩

/-! ### The dispatcher -/

/-- Everything DISPATCH can do (R90 to R103): nothing and an error, one handler call, or the version reply. -/
theorem dispatch_cases (s : State) :
    (∃ e, e ≠ .ok ∧ dispatch s = (e, s))
    ∨ (∃ slot cmd a b, dispatch s = (.ok, callCommand slot cmd a b s))
    ∨ (∃ slot cmd id, dispatch s = (.ok, callQuery slot cmd id s))
    ∨ (frameByte s 0 = 0xF9#8 ∧ dispatch s = emitReply versionMessage s) := by
  have value : ∀ slot, (∃ e, e ≠ Result.ok ∧ doValueIo slot s = (e, s))
      ∨ ∃ slot' cmd a b, doValueIo slot s = (.ok, callCommand slot' cmd a b s) := fun slot => by
    unfold doValueIo
    split
    · exact .inl ⟨.outOfBounds, by decide, rfl⟩
    · exact .inr ⟨slot, _, _, _, rfl⟩
  have e := dispatch.eq_1 s
  by_cases hE : hiNibble (frameByte s 0) = 0xE#4
  · rw [e, if_pos hE]; exact (value .analogIO).imp_right .inl
  by_cases h9 : hiNibble (frameByte s 0) = 0x9#4
  · rw [e, if_neg hE, if_pos h9]; exact (value .digitalIO).imp_right .inl
  by_cases hC : hiNibble (frameByte s 0) = 0xC#4
  · rw [e, if_neg hE, if_neg h9, if_pos hC]; exact .inr (.inl ⟨.reportAnalog, _, _, _, rfl⟩)
  by_cases hD : hiNibble (frameByte s 0) = 0xD#4
  · rw [e, if_neg hE, if_neg h9, if_neg hC, if_pos hD]; exact .inr (.inl ⟨.reportDigital, _, _, _, rfl⟩)
  rw [if_neg hE, if_neg h9, if_neg hC, if_neg hD] at e
  by_cases hF4 : frameByte s 0 = 0xF4#8
  · rw [e, if_pos hF4]; exact .inr (.inl ⟨.setPinMode, _, _, _, rfl⟩)
  by_cases hF5 : frameByte s 0 = 0xF5#8
  · rw [e, if_neg hF4, if_pos hF5]; exact .inr (.inl ⟨.setPinValue, _, _, _, rfl⟩)
  by_cases hF9 : frameByte s 0 = 0xF9#8
  · rw [e, if_neg hF4, if_neg hF5, if_pos hF9]; exact .inr (.inr (.inr ⟨hF9, rfl⟩))
  rw [if_neg hF4, if_neg hF5, if_neg hF9] at e
  by_cases hF0 : frameByte s 0 = Config.sysexStart
  · rw [e, if_pos hF0]
    unfold doSysex doAnalogMappingQuery doCapabilityQuery
    split
    · split
      · exact .inr (.inr (.inl ⟨.analogMappingQuery, _, _, rfl⟩))
      · exact .inl ⟨.invalidFrame, by decide, rfl⟩
    · split
      · split
        · exact .inr (.inr (.inl ⟨.capabilityQuery, _, _, rfl⟩))
        · exact .inl ⟨.invalidFrame, by decide, rfl⟩
      · exact .inl ⟨.unsupportedCommand, by decide, rfl⟩
  · rw [e, if_neg hF0]; exact .inl ⟨.unsupportedCommand, by decide, rfl⟩

theorem dispatch_frame (s : State) : CallFrame s (dispatch s).2 := by
  obtain ⟨e, -, h⟩ | ⟨slot, cmd, a, b, h⟩ | ⟨slot, cmd, id, h⟩ | ⟨-, h⟩ := dispatch_cases s <;> rw [h]
  · exact .refl s
  · exact callCommand_frame slot cmd a b s
  · exact callQuery_frame slot cmd id s
  · exact (emitReply_frame _ s).call

theorem dispatch_ok {s : State} (hs : CallOk s) : CallOk (dispatch s).2 := by
  obtain ⟨e, -, h⟩ | ⟨slot, cmd, a, b, h⟩ | ⟨slot, cmd, id, h⟩ | ⟨-, h⟩ := dispatch_cases s <;> rw [h]
  · exact hs
  · exact callCommand_ok hs
  · exact callQuery_ok hs
  · exact hs.of_output (emitReply_frame _ s) (emitMessage_ok hs.output)

end Sys2Proof.Machine
end

