-- ==== Sys2Proof/Laws/Decoder.lean ====
section
/-! SUPPORT. What FEED does: the ways it can end, its frame, and the invariant of 10_state.md R25 it keeps. -/

namespace Sys2Proof.Machine

/-! ### The command map -/

theorem bodyLen_isCommand : ∀ b n, bodyLen b = some n → isCommand b = true := by
  intro b n; revert b; cases n <;> decide

theorem bodyLen_unbounded : ∀ b, bodyLen b = some .unbounded ↔ b = Config.sysexStart := by decide

theorem bodyLen_sysexStart : bodyLen Config.sysexStart = some .unbounded := by decide

theorem isCommand_sysexEnd : isCommand Config.sysexEnd = true := by decide

theorem command_ne_zero : ∀ b : Byte, isCommand b = true → b ≠ 0#8 := by decide

/-! ### What R25 says of a Context -/

theorem usable_cmd {p : Params} {c : Context} (h : betweenOperations p c = true) (hs : c.state = .cmd) :
    c.remainingCount = .zero ∧ c.inputCursor = 0 ∧ c.outputCursor ≤ p.outCap := by
  simp only [betweenOperations, hs, Bool.and_eq_true, decide_eq_true_eq, beq_iff_eq] at h
  exact ⟨h.2.1, h.2.2, h.1⟩

theorem usable_cmdData {p : Params} {c : Context} (h : betweenOperations p c = true) (hs : c.state = .cmdData) :
    pendingFrame p c = true ∧ c.outputCursor ≤ p.outCap := by
  simp only [betweenOperations, hs, Bool.and_eq_true, decide_eq_true_eq] at h
  exact ⟨h.2, h.1⟩

theorem usable_not_ready {p : Params} {c : Context} (h : betweenOperations p c = true) : c.state ≠ .ready := by
  intro hs; simp [betweenOperations, hs] at h

/-- The parts of R25's third clause. -/
structure Pending (p : Params) (c : Context) : Prop where
  one_le : 1 ≤ c.inputCursor
  le_cap : c.inputCursor ≤ p.inCap
  command : isCommand (memRead c.inputBuf 0) = true
  body : ∀ b ∈ memSlice c.inputBuf 1 (c.inputCursor - 1), isCommand b = false
  count : (bodyLen (memRead c.inputBuf 0) = some .unbounded ∧ c.remainingCount = .unbounded)
    ∨ (bodyLen (memRead c.inputBuf 0) = some .two ∧ c.remainingCount = .two ∧ c.inputCursor = 1)
    ∨ (bodyLen (memRead c.inputBuf 0) = some .two ∧ c.remainingCount = .one ∧ c.inputCursor = 2)
    ∨ (bodyLen (memRead c.inputBuf 0) = some .one ∧ c.remainingCount = .one ∧ c.inputCursor = 1)

theorem pendingFrame_iff {p : Params} {c : Context} : pendingFrame p c = true ↔ Pending p c := by
  constructor
  · intro h
    simp only [pendingFrame, Bool.and_eq_true, decide_eq_true_eq, List.all_eq_true, Bool.not_eq_true'] at h
    obtain ⟨⟨⟨⟨h1, h2⟩, h3⟩, h4⟩, h5⟩ := h
    refine ⟨h1, h2, h3, h4, ?_⟩
    cases hb : bodyLen (memRead c.inputBuf 0) with
    | none => simp [hb] at h5
    | some n => cases n <;> cases hr : c.remainingCount <;> simp [hb, hr] at h5 ⊢ <;> assumption
  · rintro ⟨h1, h2, h3, h4, h5⟩
    simp only [pendingFrame, Bool.and_eq_true, decide_eq_true_eq, List.all_eq_true, Bool.not_eq_true']
    refine ⟨⟨⟨⟨h1, h2⟩, h3⟩, h4⟩, ?_⟩
    rcases h5 with ⟨a, b⟩ | ⟨a, b, d⟩ | ⟨a, b, d⟩ | ⟨a, b, d⟩ <;> simp_all

/-- After the decoder's reset the Context is as R25 says, if the output cursor is in range. -/
theorem usable_of_reset {p : Params} {c : Context} (hs : c.state = .cmd) (hr : c.remainingCount = .zero)
    (hi : c.inputCursor = 0) (ho : c.outputCursor ≤ p.outCap) : betweenOperations p c = true := by
  simp [betweenOperations, hs, hr, hi, ho]

theorem usable_of_pending {p : Params} {c : Context} (hs : c.state = .cmdData) (h : Pending p c)
    (ho : c.outputCursor ≤ p.outCap) : betweenOperations p c = true := by
  simp [betweenOperations, hs, ho, pendingFrame_iff.2 h]

/-! ### Entering a Context -/

/-- On a usable Context an operation is entered. -/
theorem enter_usable {s : State} (h : s.Usable) (k : State → Host.Outcome State Fault Refusal) : enter s k = k s := by
  have hin : ¬ (s.params.inCap < s.ctx.inputCursor ∨ s.params.outCap < s.ctx.outputCursor) := by
    rintro (lt | lt)
    · cases hs : s.ctx.state with
      | cmd => have := (usable_cmd h hs).2.1; omega
      | cmdData => have := (pendingFrame_iff.1 (usable_cmdData h hs).1).le_cap; omega
      | ready => exact usable_not_ready h hs
    · simp only [State.Usable, betweenOperations, Bool.and_eq_true, decide_eq_true_eq] at h
      omega
  unfold enter
  rw [if_neg hin, if_neg (usable_not_ready h), if_pos (show betweenOperations s.params s.ctx = true from h)]

theorem withContext_usable {s : State} (h : s.Usable) (f : State → Result × State) :
    withContext .present s f = .next ((f s).2.answer { result := (f s).1 }) := by
  show enter s (fun s => finishWith (f s)) = _
  rw [enter_usable h]; rfl

/-! ### FEED -/

/-- How FEED takes a byte on a Context between operations (R84): it aborts, it goes on with a pending frame, or it
completes a frame and dispatches it. -/
inductive FeedCase (b : Byte) (s : State) : Prop where
  | aborts (e : Result) (h : e = .unsupportedCommand ∨ e = .bufferFull) (eq : feed b s = (e, resetDecoder s))
  | pends (c : Context) (eq : feed b s = (.ok, s.setCtx c)) (out : c.outputBuf = s.ctx.outputBuf ∧ c.outputCursor = s.ctx.outputCursor
      ∧ c.handlers = s.ctx.handlers ∧ c.userData = s.ctx.userData) (st : c.state = .cmdData)
      (buf : c.inputBuf = memWrite s.ctx.inputBuf s.ctx.inputCursor b) (cursor : c.inputCursor = s.ctx.inputCursor + 1)
      (room : s.ctx.inputCursor < s.params.inCap)
  | completes (c : Context)
      (eq : feed b s = ((dispatch (s.setCtx c)).1, resetDecoder (dispatch (s.setCtx c)).2)) (out : c.outputBuf = s.ctx.outputBuf ∧ c.outputCursor = s.ctx.outputCursor
      ∧ c.handlers = s.ctx.handlers ∧ c.userData = s.ctx.userData) (st : c.state = .ready)
      (buf : c.inputBuf = memWrite s.ctx.inputBuf s.ctx.inputCursor b) (cursor : c.inputCursor = s.ctx.inputCursor + 1)
      (room : s.ctx.inputCursor < s.params.inCap)

/-- IN_APPEND (R73). -/
theorem inAppend_cases (b : Byte) (s : State) :
    (s.ctx.inputCursor = s.params.inCap ∧ inAppend b s = .error .bufferFull)
    ∨ (s.ctx.inputCursor ≠ s.params.inCap ∧ inAppend b s = .ok (s.setCtx (s.ctx.pushIn b))) := by
  unfold inAppend
  by_cases h : s.ctx.inputCursor = s.params.inCap
  · exact .inl ⟨h, by simp [h]⟩
  · exact .inr ⟨h, by simp [h]⟩

theorem completeByte_ready {s : State} (h : s.ctx.state = .ready) :
    completeByte s = ((dispatch s).1, resetDecoder (dispatch s).2) := by simp [completeByte, h]

theorem completeByte_not_ready {s : State} (h : s.ctx.state ≠ .ready) : completeByte s = (.ok, s) := by
  simp [completeByte, h]

/-- A byte that is not the start of a frame, in state CMD (R71). -/
theorem feed_cmd_rejects {b : Byte} {s : State} (hs : s.ctx.state = .cmd) (hb : bodyLen b = none) :
    feed b s = (.unsupportedCommand, resetDecoder s) := by
  simp only [feed, takeByte, hs, feedCmd, hb]
  split <;> simp_all [abort]

/-- A command byte in state CMD (R71): stored at `in[0]`, and the body length loaded. -/
theorem feed_cmd_accepts {b : Byte} {n : Remaining} {s : State} (hs : s.ctx.state = .cmd) (hi : s.ctx.inputCursor = 0)
    (hb : bodyLen b = some n) :
    feed b s = completeByte (s.setCtx ((s.ctx.pushIn b).setDecoder (if n = .zero then .ready else .cmdData) n 1)) := by
  have cap := s.params.inCap_ge
  obtain ⟨h, -⟩ | ⟨-, h⟩ := inAppend_cases b s
  · omega
  · simp only [feed, takeByte, hs, feedCmd, bodyLen_isCommand b n hb, hb, h]
    simp [hi]

/-- A terminator in a SysEx frame with room for it (R74, R75). -/
theorem feed_terminator {s : State} (hs : s.ctx.state = .cmdData) (h0 : frameByte s 0 = Config.sysexStart)
    (room : s.ctx.inputCursor ≠ s.params.inCap) :
    feed Config.sysexEnd s
      = completeByte (s.setCtx ((s.ctx.pushIn Config.sysexEnd).setDecoder .ready s.ctx.remainingCount
          (s.ctx.inputCursor + 1))) := by
  obtain ⟨h, -⟩ | ⟨-, h⟩ := inAppend_cases Config.sysexEnd s
  · exact absurd h room
  · simp [feed, takeByte, hs, feedData, h0, h]

/-- A command byte inside a frame, other than a SysEx frame's terminator (R74, R80). -/
theorem feed_data_rejects {b : Byte} {s : State} (hs : s.ctx.state = .cmdData) (hb : isCommand b = true)
    (hn : ¬ (frameByte s 0 = Config.sysexStart ∧ b = Config.sysexEnd)) :
    feed b s = (.unsupportedCommand, resetDecoder s) := by
  simp [feed, takeByte, hs, feedData, hn, hb, abort]

/-- A byte that does not fit (R73). -/
theorem feed_data_full {b : Byte} {s : State} (hs : s.ctx.state = .cmdData) (full : s.ctx.inputCursor = s.params.inCap)
    (hb : isCommand b = false ∨ (frameByte s 0 = Config.sysexStart ∧ b = Config.sysexEnd)) :
    feed b s = (.bufferFull, resetDecoder s) := by
  obtain ⟨-, h⟩ | ⟨h, -⟩ := inAppend_cases b s
  · rcases hb with hb | hb
    · simp only [feed, takeByte, hs, feedData, h, hb]
      split <;> simp_all [abort]
    · obtain ⟨h0, rfl⟩ := hb
      simp [feed, takeByte, hs, feedData, h, h0, abort]
  · exact absurd full h

/-- A data byte inside a frame, with room (R74). -/
theorem feed_data_accepts {b : Byte} {s : State} (hs : s.ctx.state = .cmdData) (hb : isCommand b = false)
    (room : s.ctx.inputCursor ≠ s.params.inCap) :
    feed b s = completeByte (countBodyByte (s.setCtx (s.ctx.pushIn b))) := by
  have hn : ¬ (frameByte s 0 = Config.sysexStart ∧ b = Config.sysexEnd) := by
    rintro ⟨-, rfl⟩; simp [isCommand_sysexEnd] at hb
  obtain ⟨h, -⟩ | ⟨-, h⟩ := inAppend_cases b s
  · exact absurd h room
  · simp [feed, takeByte, hs, feedData, hn, hb, h]

/-- The ways FEED can end on a usable Context. -/
theorem feed_cases {s : State} (hu : s.Usable) (b : Byte) : FeedCase b s := by
  cases hs : s.ctx.state with
  | cmd =>
    have hi := (usable_cmd hu hs).2.1
    have cap := s.params.inCap_ge
    cases hb : bodyLen b with
    | none => exact .aborts _ (.inl rfl) (feed_cmd_rejects hs hb)
    | some n =>
      have e := feed_cmd_accepts hs hi hb
      by_cases hn : n = .zero
      · rw [completeByte_ready (by simp [hn])] at e
        exact .completes _ e ⟨rfl, rfl, rfl, rfl⟩ (by simp [hn]) (by simp) (by simp [hi]) (by omega)
      · rw [completeByte_not_ready (by simp [hn])] at e
        exact .pends _ e ⟨rfl, rfl, rfl, rfl⟩ (by simp [hn]) (by simp) (by simp [hi]) (by omega)
  | cmdData =>
    have pend := pendingFrame_iff.1 (usable_cmdData hu hs).1
    have le := pend.le_cap
    by_cases ht : frameByte s 0 = Config.sysexStart ∧ b = Config.sysexEnd
    · obtain ⟨h0, rfl⟩ := ht
      by_cases room : s.ctx.inputCursor = s.params.inCap
      · exact .aborts _ (.inr rfl) (feed_data_full hs room (.inr ⟨h0, rfl⟩))
      · have e := feed_terminator hs h0 room
        rw [completeByte_ready (by simp)] at e
        exact .completes _ e ⟨rfl, rfl, rfl, rfl⟩ (by simp) (by simp) (by simp) (by omega)
    · cases hb : isCommand b with
      | true => exact .aborts _ (.inl rfl) (feed_data_rejects hs hb ht)
      | false =>
        by_cases room : s.ctx.inputCursor = s.params.inCap
        · exact .aborts _ (.inr rfl) (feed_data_full hs room (.inl hb))
        · have e := feed_data_accepts hs hb room
          rcases pend.count with ⟨-, hr⟩ | ⟨-, hr, -⟩ | ⟨-, hr, -⟩ | ⟨-, hr, -⟩ <;>
            simp only [countBodyByte, State.setCtx_ctx, Context.pushIn_remainingCount, hr, countDown] at e
          · rw [completeByte_not_ready (by simp [hs])] at e
            exact .pends _ e ⟨rfl, rfl, rfl, rfl⟩ (by simp [hs]) (by simp) (by simp) (by omega)
          · rw [completeByte_not_ready (by simp [hs])] at e
            exact .pends _ e ⟨rfl, rfl, rfl, rfl⟩ (by simp [hs]) (by simp) (by simp) (by omega)
          · rw [completeByte_ready (by simp)] at e
            exact .completes _ e ⟨rfl, rfl, rfl, rfl⟩ (by simp) (by simp) (by simp) (by omega)
          · rw [completeByte_ready (by simp)] at e
            exact .completes _ e ⟨rfl, rfl, rfl, rfl⟩ (by simp) (by simp) (by simp) (by omega)
  | ready => exact absurd hs (usable_not_ready hu)

/-! ### The frame and the invariant of FEED -/

/-- What FEED never changes, whatever the byte: the parameters, the handlers, `user_data`, the replies and the requests;
the trace and the handlers' replies only grow. -/
structure FeedFrame (s t : State) : Prop where
  params : t.params = s.params
  handlers : t.ctx.handlers = s.ctx.handlers
  userData : t.ctx.userData = s.ctx.userData
  replies : t.replies = s.replies
  requests : t.requests = s.requests
  trace : ∃ evs, t.trace = s.trace ++ evs
  handlerReplies : ∃ rs, t.handlerReplies = s.handlerReplies ++ rs

theorem CallFrame.feed {s t : State} (h : CallFrame s t) : FeedFrame s t :=
  ⟨h.params, h.handlers, h.userData, h.replies, h.requests, h.trace, h.handlerReplies⟩

theorem resetDecoder_frame (s : State) : FeedFrame s (resetDecoder s) :=
  ⟨rfl, rfl, rfl, rfl, rfl, ⟨[], by simp [resetDecoder]⟩, [], by simp [resetDecoder]⟩

theorem FeedFrame.trans {s t u : State} (h : FeedFrame s t) (h' : FeedFrame t u) : FeedFrame s u := by
  obtain ⟨evs, e⟩ := h.trace
  obtain ⟨evs', e'⟩ := h'.trace
  obtain ⟨rs, r⟩ := h.handlerReplies
  obtain ⟨rs', r'⟩ := h'.handlerReplies
  exact ⟨h'.params.trans h.params, h'.handlers.trans h.handlers, h'.userData.trans h.userData,
    h'.replies.trans h.replies, h'.requests.trans h.requests, ⟨evs ++ evs', by rw [e', e, List.append_assoc]⟩,
    rs ++ rs', by rw [r', r, List.append_assoc]⟩

theorem setCtx_feedFrame {s : State} {c : Context} (hh : c.handlers = s.ctx.handlers)
    (hu : c.userData = s.ctx.userData) : FeedFrame s (s.setCtx c) :=
  ⟨rfl, hh, hu, rfl, rfl, ⟨[], by simp⟩, [], by simp⟩

theorem feed_frame {s : State} (hu : s.Usable) (b : Byte) : FeedFrame s (feed b s).2 := by
  cases feed_cases hu b with
  | aborts e h eq => rw [eq]; exact resetDecoder_frame s
  | pends c eq out st buf cursor room => rw [eq]; exact setCtx_feedFrame out.2.2.1 out.2.2.2
  | completes c eq out st buf cursor room =>
    rw [eq]
    exact ((setCtx_feedFrame out.2.2.1 out.2.2.2).trans (dispatch_frame _).feed).trans (resetDecoder_frame _)

theorem State.Inv.output {s : State} (h : s.Inv) : OutputOk s := by
  obtain ⟨hu, -, -, hw, hin, -⟩ := h
  refine ⟨?_, hw, hin⟩
  simp only [State.Usable, betweenOperations, Bool.and_eq_true, decide_eq_true_eq] at hu
  exact hu.1

theorem State.Inv.call {s : State} (h : s.Inv) : CallOk s := ⟨h.output, h.2.2.2.2.2⟩

/-- The decoder's reset leaves a state that meets the invariant, once the output side does. -/
theorem inv_resetDecoder {s : State} (hc : CallOk s) (hw : Memory.wf s.ctx.inputBuf = true)
    (hin : memWithin s.params.inCap s.ctx.inputBuf = true) : (resetDecoder s).Inv :=
  ⟨usable_of_reset rfl rfl rfl hc.output.cursor, hw, hin, hc.output.wf, hc.output.within, hc.caller⟩

/-- A pending frame that a data byte extends is a pending frame. -/
theorem Pending.extend {p : Params} {c c' : Context} {b : Byte} (h : Pending p c) (hw : Memory.wf c.inputBuf = true)
    (hb : isCommand b = false) (room : c.inputCursor < p.inCap)
    (buf : c'.inputBuf = memWrite c.inputBuf c.inputCursor b) (cursor : c'.inputCursor = c.inputCursor + 1)
    (count : (c.remainingCount = .unbounded ∧ c'.remainingCount = .unbounded)
      ∨ (c.remainingCount = .two ∧ c'.remainingCount = .one)) : Pending p c' := by
  have one := h.one_le
  have h0 : memRead c'.inputBuf 0 = memRead c.inputBuf 0 := by
    rw [buf, Memory.read_write hw, if_neg (by omega)]
  refine ⟨by omega, by omega, by rw [h0]; exact h.command, ?_, ?_⟩
  · rw [cursor, buf, show c.inputCursor + 1 - 1 = (c.inputCursor - 1) + 1 by omega, memSlice_snoc,
      memSlice_memWrite_after hw b (by omega), Memory.read_write hw, if_pos (by omega)]
    intro x hx
    rcases List.mem_append.1 hx with hx | hx
    · exact h.body x hx
    · rw [List.mem_singleton.1 hx]; exact hb
  · rw [h0, cursor]
    rcases count with ⟨a, a'⟩ | ⟨a, a'⟩ <;> rcases h.count with ⟨x, y⟩ | ⟨x, y, z⟩ | ⟨x, y, z⟩ | ⟨x, y, z⟩ <;>
      simp_all

/-- A frame just begun is a pending frame. -/
theorem Pending.begin {p : Params} {c c' : Context} {b : Byte} {n : Remaining} (hb : bodyLen b = some n) (hn : n ≠ .zero)
    (buf : c'.inputBuf = memWrite c.inputBuf 0 b) (cursor : c'.inputCursor = 1) (count : c'.remainingCount = n) :
    Pending p c' := by
  have h0 : memRead c'.inputBuf 0 = b := by
    rw [buf]; exact memRead_memWrite_same_of_ne (command_ne_zero b (bodyLen_isCommand b n hb)) 0 _
  have cap := p.inCap_ge
  refine ⟨by omega, by omega, by rw [h0]; exact bodyLen_isCommand b n hb, by simp [cursor], ?_⟩
  rw [h0, hb, count, cursor]
  cases n <;> simp_all

/-- FEED keeps the invariant (R25). -/
theorem feed_inv {s : State} (h : s.Inv) (b : Byte) : (feed b s).2.Inv := by
  obtain ⟨hu, hw, hin, how, hoin, hcm⟩ := id h
  have reset : ∀ c : Context, c.outputBuf = s.ctx.outputBuf → c.outputCursor = s.ctx.outputCursor →
      c.inputBuf = memWrite s.ctx.inputBuf s.ctx.inputCursor b → s.ctx.inputCursor < s.params.inCap →
      (resetDecoder (dispatch (s.setCtx c)).2).Inv := fun c ob oc buf room => by
    have ok : CallOk (s.setCtx c) :=
      ⟨⟨by simpa [oc] using h.output.cursor, by simpa [ob] using how, by simpa [ob] using hoin⟩, hcm⟩
    have f := dispatch_frame (s.setCtx c)
    refine inv_resetDecoder (dispatch_ok ok) ?_ ?_
    · rw [f.inputBuf]; simpa [buf] using Memory.wf_memWrite hw _ _
    · rw [f.inputBuf, f.params]; simpa [buf] using memWithin_memWrite room _ hin
  cases hs : s.ctx.state with
  | cmd =>
    obtain ⟨hr, hi, ho⟩ := usable_cmd hu hs
    have cap := s.params.inCap_ge
    cases hb : bodyLen b with
    | none => rw [feed_cmd_rejects hs hb]; exact inv_resetDecoder h.call hw hin
    | some n =>
      rw [feed_cmd_accepts hs hi hb]
      by_cases hn : n = .zero
      · rw [completeByte_ready (by simp [hn])]
        exact reset _ rfl rfl (by simp) (by omega)
      · rw [completeByte_not_ready (by simp [hn])]
        refine ⟨usable_of_pending (by simp [hn]) (Pending.begin (c := s.ctx) hb hn (by simp [hi]) rfl rfl) ho, ?_, ?_,
          how, hoin, hcm⟩
        · exact Memory.wf_memWrite hw _ _
        · exact memWithin_memWrite (show s.ctx.inputCursor < s.params.inCap by omega) _ hin
  | cmdData =>
    have pend := pendingFrame_iff.1 (usable_cmdData hu hs).1
    have ho := (usable_cmdData hu hs).2
    have le := pend.le_cap
    by_cases ht : frameByte s 0 = Config.sysexStart ∧ b = Config.sysexEnd
    · obtain ⟨h0, rfl⟩ := ht
      by_cases room : s.ctx.inputCursor = s.params.inCap
      · rw [feed_data_full hs room (.inr ⟨h0, rfl⟩)]; exact inv_resetDecoder h.call hw hin
      · rw [feed_terminator hs h0 room, completeByte_ready (by simp)]
        exact reset _ rfl rfl (by simp) (by omega)
    · cases hb : isCommand b with
      | true => rw [feed_data_rejects hs hb ht]; exact inv_resetDecoder h.call hw hin
      | false =>
        by_cases room : s.ctx.inputCursor = s.params.inCap
        · rw [feed_data_full hs room (.inl hb)]; exact inv_resetDecoder h.call hw hin
        · have lt : s.ctx.inputCursor < s.params.inCap := by omega
          have keep : ∀ c : Context, c.outputBuf = s.ctx.outputBuf → c.outputCursor = s.ctx.outputCursor →
              c.state = .cmdData → c.inputBuf = memWrite s.ctx.inputBuf s.ctx.inputCursor b →
              c.inputCursor = s.ctx.inputCursor + 1 →
              ((s.ctx.remainingCount = .unbounded ∧ c.remainingCount = .unbounded)
                ∨ (s.ctx.remainingCount = .two ∧ c.remainingCount = .one)) → (s.setCtx c).Inv :=
            fun c ob oc st buf cursor count => by
              refine ⟨usable_of_pending st (pend.extend hw hb lt buf cursor count) (by simpa [oc] using ho), ?_, ?_, ?_,
                ?_, hcm⟩
              · simpa [buf] using Memory.wf_memWrite hw _ _
              · simpa [buf] using memWithin_memWrite lt _ hin
              · simpa [ob] using how
              · simpa [ob] using hoin
          rw [feed_data_accepts hs hb room]
          rcases pend.count with ⟨-, hr⟩ | ⟨-, hr, -⟩ | ⟨-, hr, -⟩ | ⟨-, hr, -⟩ <;>
            simp only [countBodyByte, State.setCtx_ctx, Context.pushIn_remainingCount, hr, countDown]
          · rw [completeByte_not_ready (by simp [hs])]
            exact keep _ rfl rfl hs rfl rfl (.inl ⟨hr, hr⟩)
          · rw [completeByte_not_ready (by simp [hs])]
            exact keep _ rfl rfl (by simp [hs]) rfl rfl (.inr ⟨hr, rfl⟩)
          · rw [completeByte_ready (by simp)]
            exact reset _ rfl rfl rfl lt
          · rw [completeByte_ready (by simp)]
            exact reset _ rfl rfl rfl lt
  | ready => exact absurd hs (usable_not_ready hu)

/-- FEED_BULK keeps the invariant. -/
theorem feedAll_inv : ∀ {bytes : List Byte} {s : State}, s.Inv → (feedAll bytes s).2.Inv
  | [], _, h => h
  | b :: rest, s, h => by
    unfold feedAll
    split
    · exact feedAll_inv (feed_inv h b)
    · exact feed_inv h b

theorem State.Inv.answer {s : State} (h : s.Inv) (r : Reply) : (s.answer r).Inv := h

/-- Delivering bytes keeps the invariant. -/
theorem feedEach_inv : ∀ {bytes : List Byte} {s : State}, s.Inv → (feedEach bytes s).Inv
  | [], _, h => h
  | b :: rest, s, h => by
    unfold feedEach
    exact feedEach_inv ((feed_inv h b).answer _)

/-- On a usable Context every byte is delivered. -/
theorem deliver_usable {s : State} (h : s.Usable) (bytes : List Byte) : deliver bytes s = .next (feedEach bytes s) := by
  unfold deliver
  exact enter_usable h _

end Sys2Proof.Machine
end

