-- ==== Sys2Proof/Laws/Exec.lean ====
section
/-! SUPPORT. What `exec` answers on a usable Context, one equation per instruction: the effect of the operation and its
reply. Later proofs rewrite with these and go on with the laws of the operation. -/

namespace Sys2Proof.Machine

variable {s : State}

/-- An operation with the output frame that leaves the output side in order keeps the invariant. -/
theorem State.Inv.of_output {t : State} (h : s.Inv) (fr : OutputFrame s t) (ok : OutputOk t) : t.Inv := by
  obtain ⟨hu, hw, hin, -, -, hc⟩ := h
  refine ⟨?_, by rw [fr.inputBuf]; exact hw, by rw [fr.inputBuf, fr.params]; exact hin, ok.wf, ok.within,
    by rw [fr.callerMem]; exact hc⟩
  have hcur := ok.cursor
  rw [fr.params] at hcur
  simp only [State.Usable, betweenOperations, pendingFrame, fr.params, fr.state, fr.remainingCount, fr.inputCursor,
    fr.inputBuf, Bool.and_eq_true, decide_eq_true_eq] at hu ⊢
  exact ⟨hcur, hu.2⟩

/-- What the output frame means as an equation of states, whatever the reply. -/
theorem OutputFrame.only {t : State} (fr : OutputFrame s t) (r : Reply) : OnlyOutputChanges s (t.answer r) := by
  obtain ⟨p, ⟨st, n, ic, ib, oc, ob, hd, ud⟩, m, tr, rp, hr, sc, scr, rq⟩ := t
  obtain ⟨h1, h2, h3, h4, h5, h6, h7, h8, -, h9, h10, h11, -⟩ := fr
  simp only at h1 h2 h3 h4 h5 h6 h7 h8 h9 h10 h11
  subst h1 h2 h3 h4 h5 h6 h7 h8 h9 h10 h11
  rfl

/-! ### Which instructions enter the Context -/

theorem withContext_enters (f : State → Result × State) (s : State) : ∃ k, withContext .present s f = enter s k :=
  ⟨fun s => finishWith (f s), rfl⟩

theorem deliver_enters (bytes : List Byte) (s : State) : ∃ k, deliver bytes s = enter s k :=
  ⟨fun s => .next (feedEach bytes s), rfl⟩

/-- An instruction that uses the Context enters it first. -/
theorem exec_enters {i : Instr} (h : usesContext i = true) (s : State) : ∃ k, exec i s = enter s k := by
  cases i with
  | init _ | decode14 _ _ _ | encode14 _ _ _ _ => exact absurd h Bool.false_ne_true
  | attach ctx table =>
    match ctx, table with
    | .absent, _ => exact absurd h Bool.false_ne_true
    | .present, none => exact absurd h Bool.false_ne_true
    | .present, some t => exact withContext_enters (fun s => (.ok, attachTable t s)) s
  | feed ctx b | feedBulk ctx b | append ctx b | flush ctx | sendAnalog ctx b v | sendDigital ctx b v
  | sendString ctx b | sendCapability ctx b | sendAnalogMapping ctx b =>
    match ctx with
    | .absent => exact absurd h Bool.false_ne_true
    | .present => exact withContext_enters _ s
  | analogMessage _ _ | digitalMessage _ _ | versionReply | stringData _ | capabilityResponse _
  | analogMappingResponse _ => exact withContext_enters _ s
  | _ => exact deliver_enters _ s

/-- An instruction that does not use the Context completes in every state. -/
theorem exec_without_context {i : Instr} (h : usesContext i = false) (s : State) : ∃ t, exec i s = .next t := by
  cases i with
  | init ctx => cases ctx <;> exact ⟨_, rfl⟩
  | decode14 _ _ _ | encode14 _ _ _ _ => exact ⟨_, rfl⟩
  | attach ctx table =>
    match ctx, table with
    | .absent, none => exact ⟨_, rfl⟩
    | .absent, some _ => exact ⟨_, rfl⟩
    | .present, none => exact ⟨_, rfl⟩
    | .present, some _ => exact absurd h.symm Bool.false_ne_true
  | feed ctx b | feedBulk ctx b | append ctx b | flush ctx | sendAnalog ctx b v | sendDigital ctx b v
  | sendString ctx b | sendCapability ctx b | sendAnalogMapping ctx b =>
    match ctx with
    | .absent => exact ⟨_, rfl⟩
    | .present => exact absurd h.symm Bool.false_ne_true
  | _ => exact absurd h.symm Bool.false_ne_true

/-! ### Inbound frames: a FEED of each byte -/

theorem exec_analogIo (h : s.Usable) (channel : Nibble) (value : Value14) :
    exec (.analogIo channel value) s = .next (feedEach (valueFrame 0xE0#8 channel value) s) := deliver_usable h _

theorem exec_digitalIo (h : s.Usable) (channel : Nibble) (value : Value14) :
    exec (.digitalIo channel value) s = .next (feedEach (valueFrame 0x90#8 channel value) s) := deliver_usable h _

theorem exec_reportAnalog (h : s.Usable) (channel : Nibble) (enabled : Data7) :
    exec (.reportAnalog channel enabled) s = .next (feedEach (reportFrame 0xC0#8 channel enabled) s) :=
  deliver_usable h _

theorem exec_reportDigital (h : s.Usable) (channel : Nibble) (enabled : Data7) :
    exec (.reportDigital channel enabled) s = .next (feedEach (reportFrame 0xD0#8 channel enabled) s) :=
  deliver_usable h _

theorem exec_setPinMode (h : s.Usable) (pin mode : Data7) :
    exec (.setPinMode pin mode) s = .next (feedEach (pinFrame 0xF4#8 pin mode) s) := deliver_usable h _

theorem exec_setPinValue (h : s.Usable) (pin value : Data7) :
    exec (.setPinValue pin value) s = .next (feedEach (pinFrame 0xF5#8 pin value) s) := deliver_usable h _

theorem exec_protocolVersion (h : s.Usable) : exec .protocolVersion s = .next (feedEach [0xF9#8] s) :=
  deliver_usable h _

theorem exec_systemReset (h : s.Usable) : exec .systemReset s = .next (feedEach [0xFF#8] s) := deliver_usable h _

theorem exec_sysex (h : s.Usable) (body : List Data7) :
    exec (.sysex body) s = .next (feedEach (sysexFrame body) s) := deliver_usable h _

theorem exec_analogMappingQuery (h : s.Usable) :
    exec .analogMappingQuery s = .next (feedEach (sysexFrame [s.params.analogMappingQueryId]) s) := deliver_usable h _

theorem exec_capabilityQuery (h : s.Usable) :
    exec .capabilityQuery s = .next (feedEach (sysexFrame [Config.capabilityQueryId]) s) := deliver_usable h _

/-! ### Outbound messages: APPEND of each byte, and FLUSH; the version reply returns the FLUSH's Result (R97) -/

theorem exec_analogMessage (h : s.Usable) (pin : Nibble) (value : Value14) :
    exec (.analogMessage pin value) s = .next ((emitMessage (valueFrame 0xE0#8 pin value) s).2.answer
      { result := (emitMessage (valueFrame 0xE0#8 pin value) s).1 }) := withContext_usable h _

theorem exec_digitalMessage (h : s.Usable) (port : Nibble) (value : Value14) :
    exec (.digitalMessage port value) s = .next ((emitMessage (valueFrame 0x90#8 port value) s).2.answer
      { result := (emitMessage (valueFrame 0x90#8 port value) s).1 }) := withContext_usable h _

theorem exec_versionReply (h : s.Usable) :
    exec .versionReply s = .next ((emitReply versionMessage s).2.answer
      { result := (emitReply versionMessage s).1 }) := withContext_usable h _

theorem exec_stringData (h : s.Usable) (chars : List Byte) :
    exec (.stringData chars) s = .next ((emitMessage (stringMessage s.params chars) s).2.answer
      { result := (emitMessage (stringMessage s.params chars) s).1 }) := withContext_usable h _

theorem exec_capabilityResponse (h : s.Usable) (groups : List (List CapPair)) :
    exec (.capabilityResponse groups) s = .next ((emitMessage (capabilityMessage groups) s).2.answer
      { result := (emitMessage (capabilityMessage groups) s).1 }) := withContext_usable h _

theorem exec_analogMappingResponse (h : s.Usable) (entries : List (Option Nibble)) :
    exec (.analogMappingResponse entries) s = .next ((emitMessage (mappingMessage entries) s).2.answer
      { result := (emitMessage (mappingMessage entries) s).1 }) := withContext_usable h _

/-! ### Interface operations -/

theorem exec_init (s : State) :
    exec (.init .present) s = .next ((s.setCtx Context.zero).answer { result := .ok }) := rfl

theorem exec_attach (h : s.Usable) (table : HandlerTable) :
    exec (.attach .present (some table)) s
      = .next ((s.setCtx (s.ctx.setHandlers table)).answer { result := .ok }) :=
  withContext_usable h fun s => (.ok, attachTable table s)

theorem exec_feed (h : s.Usable) (b : Byte) :
    exec (.feed .present b) s = .next ((feed b s).2.answer { result := (feed b s).1 }) := withContext_usable h _

theorem exec_feedBulk (h : s.Usable) (bytes : List Byte) :
    exec (.feedBulk .present bytes) s = .next ((feedAll bytes s).2.answer { result := (feedAll bytes s).1 }) :=
  withContext_usable h _

theorem exec_decode14 (buf len : Nat) (offset : Int) (s : State) :
    exec (.decode14 buf len offset) s = .next (s.answer (decode14 buf len offset s)) := rfl

theorem exec_encode14 (buf len : Nat) (offset : Int) (value : Half) (s : State) :
    exec (.encode14 buf len offset value) s = .next ((encode14 buf len offset value s).2.answer
      { result := (encode14 buf len offset value s).1 }) := rfl

theorem exec_append (h : s.Usable) (b : Byte) :
    exec (.append .present b) s = .next ((append b s).2.answer { result := (append b s).1 }) := withContext_usable h _

theorem exec_flush (h : s.Usable) :
    exec (.flush .present) s = .next ((flush s).2.answer { result := (flush s).1 }) := withContext_usable h _

theorem exec_sendAnalog (h : s.Usable) (pin : Byte) (value : Half) :
    exec (.sendAnalog .present pin value) s = .next ((sendAnalog pin value s).2.answer
      { result := (sendAnalog pin value s).1 }) := withContext_usable h _

theorem exec_sendDigital (h : s.Usable) (port : Byte) (value : Half) :
    exec (.sendDigital .present port value) s = .next ((sendDigital port value s).2.answer
      { result := (sendDigital port value s).1 }) := withContext_usable h _

theorem exec_sendString (h : s.Usable) (str : List Byte) :
    exec (.sendString .present str) s = .next ((sendString str s).2.answer { result := (sendString str s).1 }) :=
  withContext_usable h _

theorem exec_sendCapability (h : s.Usable) (recs : List CapRecord) :
    exec (.sendCapability .present recs) s = .next ((sendCapability recs s).2.answer
      { result := (sendCapability recs s).1 }) := withContext_usable h _

theorem exec_sendAnalogMapping (h : s.Usable) (map : List Byte) :
    exec (.sendAnalogMapping .present map) s = .next ((sendAnalogMapping map s).2.answer
      { result := (sendAnalogMapping map s).1 }) := withContext_usable h _

end Sys2Proof.Machine
end

