-- ==== Sys2Proof/Laws/Nesting.lean ====
section
/-! SUPPORT. A handler's operations beside the interface operations of the same names (70_reset_and_hazards.md R187): what
each hands back and does, and that none depends on the decoder, the replies or the queues, so that it does the same
inside a FEED and after it. -/

namespace Sys2Proof.Machine

/-- On a usable Context the interface operation is the handler's operation, with its reply to the caller (R171). -/
theorem exec_handlerOp {s : State} (h : s.Usable) (op : HandlerOp) :
    exec op.instr s = .next ((handlerOp op s).2.answer (handlerOp op s).1) := by
  cases op with
  | append b => exact exec_append h b
  | flush => exact exec_flush h
  | sendAnalog pin value => exact exec_sendAnalog h pin value
  | sendDigital port value => exact exec_sendDigital h port value
  | sendString str => exact exec_sendString h str
  | sendCapability recs => exact exec_sendCapability h recs
  | sendAnalogMapping map => exact exec_sendAnalogMapping h map
  | decode14 buf len offset => rfl
  | encode14 buf len offset value => rfl

/-- No operation writes the replies itself. -/
theorem handlerOp_replies (op : HandlerOp) (s : State) :
    (handlerOp op s).2.replies = s.replies ∧ (handlerOp op s).2.handlerReplies = s.handlerReplies := by
  have of : ∀ {t}, OutputFrame s t → t.replies = s.replies ∧ t.handlerReplies = s.handlerReplies :=
    fun f => ⟨f.replies, f.handlerReplies⟩
  cases op with
  | append b => exact of (append_frame b s)
  | flush => exact of (flush_frame s)
  | sendAnalog pin value => exact of (sendStatus_frame _ pin value s)
  | sendDigital port value => exact of (sendStatus_frame _ port value s)
  | sendString str => exact of (sendString_frame str s)
  | sendCapability recs => exact of (sendCapability_frame recs s)
  | sendAnalogMapping map => exact of (sendAnalogMapping_frame map s)
  | decode14 buf len offset => exact ⟨rfl, rfl⟩
  | encode14 buf len offset value =>
    show (encode14 buf len offset value s).2.replies = _ ∧ (encode14 buf len offset value s).2.handlerReplies = _
    obtain ⟨-, e⟩ | ⟨-, e⟩ := encode14_cases buf len offset value s <;> rw [e] <;> exact ⟨rfl, rfl⟩

/-! ### What no such operation reads -/

/-- `s` with the decoder's registers and buffer, the replies and the queues of `r`. -/
def State.withRest (s r : State) : State :=
  { s with
    ctx := { s.ctx with
      state := r.ctx.state
      remainingCount := r.ctx.remainingCount
      inputCursor := r.ctx.inputCursor
      inputBuf := r.ctx.inputBuf }
    replies := r.replies
    handlerReplies := r.handlerReplies
    scripts := r.scripts
    requests := r.requests }

/-- The operation neither reads nor writes what `withRest` replaces. -/
def IgnoresRest {α : Type} (f : State → α × State) : Prop :=
  ∀ s r, f (s.withRest r) = ((f s).1, (f s).2.withRest r)

theorem flush_ignores : IgnoresRest flush := by
  intro s r
  unfold flush
  simp only [State.withRest]
  cases s.ctx.handlers.output with
  | none => rfl
  | some callee =>
    by_cases h : s.ctx.outputCursor = 0
    · simp only [h, if_true]; rfl
    · simp only [h, if_false]; rfl

theorem append_ignores (b : Byte) : IgnoresRest (append b) := by
  intro s r
  unfold append
  rw [flush_ignores]
  by_cases h : s.ctx.outputCursor = s.params.outCap
  · rw [if_pos h, if_pos (show (s.withRest r).ctx.outputCursor = (s.withRest r).params.outCap from h)]; rfl
  · rw [if_neg h, if_neg (show ¬ (s.withRest r).ctx.outputCursor = (s.withRest r).params.outCap from h)]; rfl

theorem appendAll_ignores : ∀ bytes, IgnoresRest (appendAll bytes)
  | [] => fun _ _ => rfl
  | b :: rest => fun s r => by simp only [appendAll, andThen, append_ignores b s r, appendAll_ignores rest _ r]

theorem emitMessage_ignores (bytes : List Byte) : IgnoresRest (emitMessage bytes) := fun s r => by
  simp only [emitMessage, andThen, appendAll_ignores bytes s r, flush_ignores _ r]

theorem emitReply_ignores (bytes : List Byte) : IgnoresRest (emitReply bytes) := fun s r => by
  simp only [emitReply, appendAll_ignores bytes s r, flush_ignores _ r]

theorem failMid_ignores (e : Result) : IgnoresRest (failMid e) := fun s r => by
  unfold failMid
  rw [flush_ignores, show (s.withRest r).params = s.params from rfl]
  cases s.params.encFailPolicy <;> rfl

theorem appendPieces_ignores : ∀ pieces e (s r : State), appendPieces pieces e (s.withRest r) =
    match appendPieces pieces e s with
    | .done e' t => .done e' (t.withRest r)
    | .failed t => .failed (t.withRest r)
  | [], _, _, _ => rfl
  | none :: _, _, _, _ => rfl
  | some bytes :: rest, e, s, r => by
    simp only [appendPieces, appendAll_ignores bytes s r]
    exact appendPieces_ignores rest _ _ r

theorem composeChecked_ignores (head : List Byte) (pieces : List (Option (List Byte))) (tail : List Byte) :
    IgnoresRest (composeChecked head pieces tail) := fun s r => by
  simp only [composeChecked, appendAll_ignores head s r, appendPieces_ignores]
  cases appendPieces pieces (appendAll head s).1 (appendAll head s).2 with
  | done e t => simp only [andThen, emitMessage_ignores tail t r]
  | failed t => exact failMid_ignores _ t r

/-- No operation a handler may issue depends on the decoder, the replies or the queues (10_state.md R15, R187). -/
theorem handlerOp_ignores (op : HandlerOp) : IgnoresRest (handlerOp op) := fun s r => by
  cases op with
  | append b => simp only [handlerOp, append_ignores b s r]; rfl
  | flush => simp only [handlerOp, flush_ignores s r]; rfl
  | sendAnalog pin value =>
    simp only [handlerOp, sendAnalog, sendStatus]
    split
    · rw [emitMessage_ignores]; rfl
    · rfl
  | sendDigital port value =>
    simp only [handlerOp, sendDigital, sendStatus]
    split
    · rw [emitMessage_ignores]; rfl
    · rfl
  | sendString str =>
    simp only [handlerOp, sendString]
    split
    · rfl
    · rw [emitMessage_ignores]; rfl
  | sendCapability recs =>
    simp only [handlerOp, sendCapability]
    split
    · rfl
    · rw [composeChecked_ignores]; rfl
  | sendAnalogMapping map =>
    simp only [handlerOp, sendAnalogMapping]
    split
    · rfl
    · rw [composeChecked_ignores]; rfl
  | decode14 buf len offset => rfl
  | encode14 buf len offset value =>
    simp only [handlerOp, encode14]
    rw [show (s.withRest r).callerMem = s.callerMem from rfl]
    cases encodePair s.callerMem buf len offset value <;> rfl

end Sys2Proof.Machine
end

