-- ==== Sys2Proof/Laws/Operands.lean ====
section
/-! SUPPORT. The tests of the composite encoders as the spec writes them, on numbers. -/

namespace Sys2Proof.Machine

/-- SEND_ANALOG's and SEND_DIGITAL's range test (R131, R132). -/
theorem statusInRange_iff {pin : Byte} {value : Half} :
    statusInRange pin value = true ↔ pin ≤ 0x0F#8 ∧ value ≤ 0x3FFF#16 := by
  rw [statusInRange, Bool.and_eq_true, decide_eq_true_eq, decide_eq_true_eq]; rfl

/-- The default `CAP_RECORD_VALID` (R134). -/
theorem capRecordValid_dataBytes {p : Params} (h : p.capRule = .dataBytes) {r : CapRecord} :
    capRecordValid p r = true ↔ r.mode ≤ 0x7F#8 ∧ r.resolution ≤ 0x7F#8 := by simp [capRecordValid, h]

/-- The entries SEND_ANALOG_MAPPING accepts (R135). -/
theorem mappingEntryValid_iff {e : Byte} : mappingEntryValid e = true ↔ e = 0x7F#8 ∨ e ≤ 0x0F#8 := by
  rw [mappingEntryValid, Bool.or_eq_true, decide_eq_true_eq, decide_eq_true_eq]; rfl

end Sys2Proof.Machine
end

