-- ==== Sys2Proof/Laws/PerInstr.lean ====
section
/-! SUPPORT. A law of every instruction as syntax: what its word begins with (30_encoding.md R50, R51, R60, R62). A frame
begins with a command byte of the inbound map, a message with a command byte, and an operation has an assigned select
code. -/

namespace Sys2Proof.Laws.FirstByte

/-- What a word of the instruction set begins with. -/
def beginsWell : InstrWord → Bool
  | .wire (c :: _) => isCommand c && (bodyLen c).isSome
  | .wire [] => false
  | .message (c :: _) => isCommand c
  | .message [] => false
  | .op code _ => code ≤ 0xC#4

def Statement (i : Instr) : Prop := ∀ p : Params, beginsWell (encode p i) = true

theorem nibbleCommand_inbound (base : Byte) (h : base = 0xE0#8 ∨ base = 0x90#8 ∨ base = 0xC0#8 ∨ base = 0xD0#8) :
    ∀ n : Nibble, (isCommand (nibbleCommand base n) && (bodyLen (nibbleCommand base n)).isSome) = true := by
  rcases h with rfl | rfl | rfl | rfl <;> decide

theorem nibbleCommand_command (base : Byte) (h : base = 0xE0#8 ∨ base = 0x90#8) :
    ∀ n : Nibble, isCommand (nibbleCommand base n) = true := by
  rcases h with rfl | rfl <;> decide

theorem analogIo : ∀ x0 x1, Statement (.analogIo x0 x1) := fun x0 _ _ => nibbleCommand_inbound _ (by decide) x0
theorem digitalIo : ∀ x0 x1, Statement (.digitalIo x0 x1) := fun x0 _ _ => nibbleCommand_inbound _ (by decide) x0
theorem reportAnalog : ∀ x0 x1, Statement (.reportAnalog x0 x1) := fun x0 _ _ => nibbleCommand_inbound _ (by decide) x0
theorem reportDigital : ∀ x0 x1, Statement (.reportDigital x0 x1) := fun x0 _ _ => nibbleCommand_inbound _ (by decide) x0
theorem setPinMode : ∀ x0 x1, Statement (.setPinMode x0 x1) := fun _ _ _ => rfl
theorem setPinValue : ∀ x0 x1, Statement (.setPinValue x0 x1) := fun _ _ _ => rfl
theorem protocolVersion : Statement (.protocolVersion) := fun _ => rfl
theorem systemReset : Statement (.systemReset) := fun _ => rfl
theorem sysex : ∀ x0, Statement (.sysex x0) := fun _ _ => rfl
theorem analogMappingQuery : Statement (.analogMappingQuery) := fun _ => rfl
theorem capabilityQuery : Statement (.capabilityQuery) := fun _ => rfl
theorem analogMessage : ∀ x0 x1, Statement (.analogMessage x0 x1) := fun x0 _ _ => nibbleCommand_command _ (by decide) x0
theorem digitalMessage : ∀ x0 x1, Statement (.digitalMessage x0 x1) := fun x0 _ _ => nibbleCommand_command _ (by decide) x0
theorem versionReply : Statement (.versionReply) := fun _ => rfl
theorem stringData : ∀ x0, Statement (.stringData x0) := fun _ _ => rfl
theorem capabilityResponse : ∀ x0, Statement (.capabilityResponse x0) := fun _ _ => rfl
theorem analogMappingResponse : ∀ x0, Statement (.analogMappingResponse x0) := fun _ _ => rfl
theorem init : ∀ x0, Statement (.init x0) := fun _ _ => rfl
theorem attach : ∀ x0 x1, Statement (.attach x0 x1) := fun _ _ _ => rfl
theorem feed : ∀ x0 x1, Statement (.feed x0 x1) := fun _ _ _ => rfl
theorem feedBulk : ∀ x0 x1, Statement (.feedBulk x0 x1) := fun _ _ _ => rfl
theorem decode14 : ∀ x0 x1 x2, Statement (.decode14 x0 x1 x2) := fun _ _ _ _ => rfl
theorem encode14 : ∀ x0 x1 x2 x3, Statement (.encode14 x0 x1 x2 x3) := fun _ _ _ _ _ => rfl
theorem append : ∀ x0 x1, Statement (.append x0 x1) := fun _ _ _ => rfl
theorem flush : ∀ x0, Statement (.flush x0) := fun _ _ => rfl
theorem sendAnalog : ∀ x0 x1 x2, Statement (.sendAnalog x0 x1 x2) := fun _ _ _ _ => rfl
theorem sendDigital : ∀ x0 x1 x2, Statement (.sendDigital x0 x1 x2) := fun _ _ _ _ => rfl
theorem sendString : ∀ x0 x1, Statement (.sendString x0 x1) := fun _ _ _ => rfl
theorem sendCapability : ∀ x0 x1, Statement (.sendCapability x0 x1) := fun _ _ _ => rfl
theorem sendAnalogMapping : ∀ x0 x1, Statement (.sendAnalogMapping x0 x1) := fun _ _ _ => rfl

end Sys2Proof.Laws.FirstByte
end

