-- ==== Sys2Proof/Tests/Slice0.lean ====
section
/-! SUPPORT. Tests with expected results from the spec's own text and from 95_test_vectors.md (named in each comment), the
smoke tests of WellFormed, decoding of words written out from 30_encoding.md, and a witness for every statement that has
hypotheses. -/

namespace Sys2Proof.Tests

open Sys2Proof Sys2Proof.Machine

/-! ### Small machines -/

/-- Capacities of the vectors' own. -/
def caps (inCap outCap : Nat) (h : 3 ≤ inCap := by decide) (h' : 1 ≤ outCap := by decide) : Params :=
  { Config.default with inCap := inCap, outCap := outCap, inCap_ge := h, outCap_ge := h' }

/-- All nine slots present. -/
def table : HandlerTable := ⟨some 1, some 2, some 3, some 4, some 5, some 6, some 7, some 8, some 9⟩

/-- After INIT and ATTACH, with `user_data` 7. -/
def attached (p : Params) : State :=
  { State.initial p with ctx := { Context.zero with handlers := table, userData := 7 } }

/-- P1's machine. -/
def m8 : State := attached (caps 8 8)

/-- After FEED(E3), FEED(63) of P1. -/
def midAnalog : State :=
  { m8 with ctx := { m8.ctx with
      state := .cmdData, remainingCount := .one, inputCursor := 2, inputBuf := [(0, 0xE3#8), (1, 0x63#8)] } }

/-- After FEED(C2). -/
def midReport : State :=
  { m8 with ctx := { m8.ctx with
      state := .cmdData, remainingCount := .one, inputCursor := 1, inputBuf := [(0, 0xC2#8)] } }

/-- After FEED(F4). -/
def midPin : State :=
  { m8 with ctx := { m8.ctx with
      state := .cmdData, remainingCount := .two, inputCursor := 1, inputBuf := [(0, 0xF4#8)] } }

/-- `IN_CAP = 6`, after `F0 71 41 00 42` (V-DEC-9): room for one byte. -/
def sysex5 : State :=
  { attached (caps 6 8) with ctx := { (attached (caps 6 8)).ctx with
      state := .cmdData, remainingCount := .unbounded, inputCursor := 5
      inputBuf := [(0, 0xF0#8), (1, 0x71#8), (2, 0x41#8), (4, 0x42#8)] } }

/-- `IN_CAP = 6`, after `F0 71 41 00 42 00` (V-DEC-10): the input buffer is full. -/
def sysex6 : State := { sysex5 with ctx := { sysex5.ctx with inputCursor := 6 } }

/-- V-BUF-1 after APPEND(AA), APPEND(BB) with `OUT_CAP = 2`: the output buffer is full. -/
def full2 : State :=
  { attached (caps 8 2) with ctx := { (attached (caps 8 2)).ctx with
      outputBuf := [(0, 0xAA#8), (1, 0xBB#8)], outputCursor := 2 } }

/-- One byte pending, AA, with `OUT_CAP = 8`. -/
def oneAA : State := { m8 with ctx := { m8.ctx with outputBuf := [(0, 0xAA#8)], outputCursor := 1 } }

/-- No sink. -/
def noSink (s : State) : State := { s with ctx := { s.ctx with handlers := { s.ctx.handlers with output := none } } }

/-- Another `ENC_FAIL_POLICY` and `SINK_RESULT_PROPAGATES`. -/
def withPolicy (policy : EncFailPolicy) (propagates : Bool) (s : State) : State :=
  { s with params := { s.params with encFailPolicy := policy, sinkResultPropagates := propagates } }

/-- Cursors beyond the capacities, a READY between operations, and a CMD with bytes pending: no Context of R25. -/
def badIn : State := { m8 with ctx := { m8.ctx with inputCursor := 9 } }
def badOut : State := { m8 with ctx := { m8.ctx with outputCursor := 9 } }
def stuckReady : State := { m8 with ctx := { m8.ctx with state := .ready } }
def uninitialised : State := { m8 with ctx := { m8.ctx with inputCursor := 1 } }

/-- The caller's storage of V-COD-13 to V-COD-14: `00 34 24 00` at 0. -/
def withPair : State := { m8 with callerMem := [(1, 0x34#8), (2, 0x24#8)] }

/-- The state an instruction leaves, when it completes. -/
def ran (i : Instr) (s : State) : Option State :=
  match exec i s with
  | .next t => some t
  | .fault _ => none
  | .refused _ => none

def results (i : Instr) (s : State) : Option (List Result) := (ran i s).map fun t => t.replies.map Reply.result

def events (i : Instr) (s : State) : Option (List Event) := (ran i s).map State.trace

def sinkBytes (i : Instr) (s : State) : Option (List (List Byte)) := (ran i s).map chunks

def decoderAfter (i : Instr) (s : State) : Option (DecoderState × Remaining × Nat) :=
  (ran i s).map fun t => (t.ctx.state, t.ctx.remainingCount, t.ctx.inputCursor)

/-! ### WellFormed refuses each ill-formed term -/

def otherStringId (d : Data7) : Params := { Config.default with stringDataId := d }

theorem test_wf_sysex_is_not_the_mapping_query : wellFormed Config.default (.sysex [0x69#7]) = false := by decide
theorem test_wf_sysex_is_not_the_capability_query : wellFormed Config.default (.sysex [0x6B#7]) = false := by decide
theorem test_wf_sysex_with_payload : wellFormed Config.default (.sysex [0x6B#7, 0x00#7]) = true := by decide
theorem test_wf_stringData_empty : wellFormed Config.default (.stringData []) = false := by decide
theorem test_wf_stringData_id_6A : wellFormed (otherStringId 0x6A#7) (.stringData [0x48#8]) = false := by decide
theorem test_wf_stringData_id_6C : wellFormed (otherStringId 0x6C#7) (.stringData [0x48#8]) = false := by decide
theorem test_wf_capabilityResponse_empty : wellFormed Config.default (.capabilityResponse []) = false := by decide
theorem test_wf_capabilityResponse_empty_group :
    wellFormed Config.default (.capabilityResponse [[(0#7, 1#7)], []]) = false := by decide
theorem test_wf_capabilityResponse_later_7F :
    wellFormed Config.default (.capabilityResponse [[(0#7, 1#7), (0x7F#7, 1#7)]]) = false := by decide
theorem test_wf_analogMappingResponse_empty : wellFormed Config.default (.analogMappingResponse []) = false := by decide
theorem test_wf_params_inCap : paramsWellFormed 2 1 0x69#7 = false := by decide
theorem test_wf_params_outCap : paramsWellFormed 3 0 0x69#7 = false := by decide
theorem test_wf_params_queries_differ : paramsWellFormed 3 1 0x6B#7 = false := by decide
theorem test_wf_params_least : paramsWellFormed 3 1 0x69#7 = true := by decide

/-! ### Decoding: one word for each constructor, bit by bit from 30_encoding.md (R51, R53, R58, R60, R62, R65) -/

theorem test_decode_analogIo :
    decode Config.default (.wire [0b11100011#8, 0b01100011#8, 0b00000001#8]) = .ok (.analogIo 3#4 0xE3#14) := by rfl
theorem test_decode_digitalIo :
    decode Config.default (.wire [0b10010000#8, 0b00000000#8, 0b00000001#8]) = .ok (.digitalIo 0#4 0x80#14) := by rfl
theorem test_decode_reportAnalog :
    decode Config.default (.wire [0b11000010#8, 0b00000001#8]) = .ok (.reportAnalog 2#4 1#7) := by rfl
theorem test_decode_reportDigital :
    decode Config.default (.wire [0b11010001#8, 0b01111111#8]) = .ok (.reportDigital 1#4 0x7F#7) := by rfl
theorem test_decode_setPinMode :
    decode Config.default (.wire [0b11110100#8, 0b00001101#8, 0b00000001#8]) = .ok (.setPinMode 13#7 1#7) := by rfl
theorem test_decode_setPinValue :
    decode Config.default (.wire [0b11110101#8, 0b00001101#8, 0b00000001#8]) = .ok (.setPinValue 13#7 1#7) := by rfl
theorem test_decode_protocolVersion : decode Config.default (.wire [0b11111001#8]) = .ok .protocolVersion := by rfl
theorem test_decode_systemReset : decode Config.default (.wire [0b11111111#8]) = .ok .systemReset := by rfl
theorem test_decode_sysex :
    decode Config.default (.wire [0b11110000#8, 0b01110001#8, 0b01000001#8, 0b11110111#8])
      = .ok (.sysex [0x71#7, 0x41#7]) := by rfl
theorem test_decode_sysex_shortest : decode Config.default (.wire [0xF0#8, 0xF7#8]) = .ok (.sysex []) := by rfl
theorem test_decode_analogMappingQuery :
    decode Config.default (.wire [0b11110000#8, 0b01101001#8, 0b11110111#8]) = .ok .analogMappingQuery := by rfl
theorem test_decode_capabilityQuery :
    decode Config.default (.wire [0b11110000#8, 0b01101011#8, 0b11110111#8]) = .ok .capabilityQuery := by rfl
theorem test_decode_analogMessage :
    decode Config.default (.message [0b11100011#8, 0b01100011#8, 0b00000001#8])
      = .ok (.analogMessage 3#4 0xE3#14) := by rfl
theorem test_decode_digitalMessage :
    decode Config.default (.message [0b10011111#8, 0b01111111#8, 0b01111111#8])
      = .ok (.digitalMessage 15#4 0x3FFF#14) := by rfl
theorem test_decode_versionReply :
    decode Config.default (.message [0b11111001#8, 0b00000010#8, 0b00000110#8]) = .ok .versionReply := by rfl
theorem test_decode_stringData :
    decode Config.default (.message [0xF0#8, 0x71#8, 0x48#8, 0x00#8, 0x69#8, 0x01#8, 0xF7#8])
      = .ok (.stringData [0x48#8, 0xE9#8]) := by rfl
/-- S5's eleven bytes. -/
theorem test_decode_capabilityResponse :
    decode Config.default (.message [0xF0#8, 0x6C#8, 0x00#8, 0x01#8, 0x01#8, 0x01#8, 0x7F#8, 0x02#8, 0x0A#8, 0x7F#8, 0xF7#8])
      = .ok (.capabilityResponse [[(0#7, 1#7), (1#7, 1#7)], [(2#7, 10#7)]]) := by rfl
theorem test_decode_analogMappingResponse :
    decode Config.default (.message [0xF0#8, 0x6A#8, 0x7F#8, 0x00#8, 0x0F#8, 0xF7#8])
      = .ok (.analogMappingResponse [none, some 0#4, some 15#4]) := by rfl
theorem test_decode_init : decode Config.default (.op 0b0000#4 {}) = .ok (.init .present) := by rfl
theorem test_decode_attach :
    decode Config.default (.op 0b0001#4 { table := some table }) = .ok (.attach .present (some table)) := by rfl
theorem test_decode_feed :
    decode Config.default (.op 0b0010#4 { byte := 0xE3#8 }) = .ok (.feed .present 0xE3#8) := by rfl
theorem test_decode_feedBulk :
    decode Config.default (.op 0b0011#4 { bytes := [0xE3#8] }) = .ok (.feedBulk .present [0xE3#8]) := by rfl
theorem test_decode_decode14 :
    decode Config.default (.op 0b0100#4 { buf := 5, len := 4, offset := -1 }) = .ok (.decode14 5 4 (-1)) := by rfl
theorem test_decode_encode14 :
    decode Config.default (.op 0b0101#4 { len := 4, offset := 2, value := 0x1234#16 })
      = .ok (.encode14 0 4 2 0x1234#16) := by rfl
theorem test_decode_append :
    decode Config.default (.op 0b0110#4 { ctx := .absent, byte := 0xAA#8 }) = .ok (.append .absent 0xAA#8) := by rfl
theorem test_decode_flush : decode Config.default (.op 0b0111#4 {}) = .ok (.flush .present) := by rfl
theorem test_decode_sendAnalog :
    decode Config.default (.op 0b1000#4 { byte := 3#8, value := 0xE3#16 })
      = .ok (.sendAnalog .present 3#8 0xE3#16) := by rfl
theorem test_decode_sendDigital :
    decode Config.default (.op 0b1001#4 { byte := 0#8, value := 0x80#16 })
      = .ok (.sendDigital .present 0#8 0x80#16) := by rfl
theorem test_decode_sendString :
    decode Config.default (.op 0b1010#4 { bytes := [0x41#8] }) = .ok (.sendString .present [0x41#8]) := by rfl
theorem test_decode_sendCapability :
    decode Config.default (.op 0b1011#4 { recs := [⟨5#8, 1#8, 1#8⟩] })
      = .ok (.sendCapability .present [⟨5#8, 1#8, 1#8⟩]) := by rfl
theorem test_decode_sendAnalogMapping :
    decode Config.default (.op 0b1100#4 { bytes := [0x7F#8] }) = .ok (.sendAnalogMapping .present [0x7F#8]) := by rfl

/-- R62: 0xD to 0xF are unassigned. -/
theorem test_decode_unassigned :
    decode Config.default (.op 0xF#4 {}) = .error (.unassignedOperation 0xF#4) := by rfl
/-- R59: the terminator outside a SysEx frame, and a byte next to a command of the map. -/
theorem test_decode_terminator_alone : decode Config.default (.wire [0xF7#8]) = .error (.noSuchCommand 0xF7#8) := by rfl
theorem test_decode_next_to_F9 : decode Config.default (.wire [0xF8#8]) = .error (.noSuchCommand 0xF8#8) := by rfl
theorem test_decode_data_byte_first :
    decode Config.default (.wire [0x63#8, 0xE3#8]) = .error (.dataByteFirst 0x63#8) := by rfl
/-- R56: the encoder writes the low group first. -/
theorem test_encode_analogIo :
    encode Config.default (.analogIo 3#4 0xE3#14) = .wire [0xE3#8, 0x63#8, 0x01#8] := by decide
/-- R60 and V-ENC-15: one separator where the pin changes. -/
theorem test_encode_capabilityResponse :
    encode Config.default (.capabilityResponse [[(0#7, 1#7)], [(1#7, 1#7)], [(2#7, 10#7)]])
      = .message [0xF0#8, 0x6C#8, 0x00#8, 0x01#8, 0x7F#8, 0x01#8, 0x01#8, 0x7F#8, 0x02#8, 0x0A#8, 0x7F#8, 0xF7#8] := by
  decide

/-- The opcode table's numbering: a select code, a first byte with zero operands, a sub-id, and two bytes of which byte 0
is in the high half. -/
theorem test_table_feed : decodeTableWord 8 0x2 = some (.feed .present 0#8) := by decide
theorem test_table_digitalIo : decodeTableWord 8 0x90 = some (.digitalIo 0#4 0#14) := by decide
theorem test_table_capabilityQuery : decodeTableWord 8 0x6B = some .capabilityQuery := by decide
theorem test_table_stringData : decodeTableWord 16 0xF071 = some (.stringData [0#8]) := by decide

/-! ### Inbound frames (V-DSP-1, V-DSP-3) -/

theorem test_analogIo_event :
    events (.analogIo 3#4 0xE3#14) m8 = some [.handler .analogIO 2 7 0xE3#8 3#8 0x00E3#16] := by decide
/-- S3: OK on every byte, and the decoder back in CMD. -/
theorem test_analogIo_results : results (.analogIo 3#4 0xE3#14) m8 = some [.ok, .ok, .ok] := by decide
theorem test_digitalIo_event :
    events (.digitalIo 15#4 0x007F#14) m8 = some [.handler .digitalIO 3 7 0x9F#8 15#8 0x007F#16] := by decide
theorem test_reportAnalog_event :
    events (.reportAnalog 2#4 1#7) m8 = some [.handler .reportAnalog 4 7 0xC2#8 2#8 1#16] := by decide
theorem test_reportDigital_event :
    events (.reportDigital 1#4 0x7F#7) m8 = some [.handler .reportDigital 5 7 0xD1#8 1#8 0x7F#16] := by decide
theorem test_setPinMode_event :
    events (.setPinMode 13#7 1#7) m8 = some [.handler .setPinMode 6 7 0xF4#8 13#8 1#16] := by decide
theorem test_setPinValue_event :
    events (.setPinValue 13#7 1#7) m8 = some [.handler .setPinValue 7 7 0xF5#8 13#8 1#16] := by decide
/-- V-DSP-2: an absent slot is a no-op, and OK. -/
theorem test_setPinValue_absent_handler :
    events (.setPinValue 13#7 1#7) (State.initial (caps 8 8)) = some [] := by decide
theorem test_protocolVersion_reply : sinkBytes .protocolVersion m8 = some [[0xF9#8, 0x02#8, 0x06#8]] := by decide
/-- V-BUF-4, `OUT_CAP = 2`. -/
theorem test_protocolVersion_chunks :
    sinkBytes .protocolVersion (attached (caps 8 2)) = some [[0xF9#8, 0x02#8], [0x06#8]] := by decide
/-- R97 `return FLUSH()`: of two sink calls the last one's Result comes back, as a frame and as a message. -/
theorem test_protocolVersion_returns_the_last_flush :
    results .protocolVersion (withPolicy .leave true (attached (caps 8 2))) = some [Config.sinkResult 1] := by rfl
theorem test_versionReply_returns_the_last_flush :
    results .versionReply (withPolicy .leave true (attached (caps 8 2))) = some [Config.sinkResult 1] := by rfl
/-- V-DSP-5. -/
theorem test_systemReset_unsupported :
    (ran .systemReset m8).map (fun t => (t.replies, t.trace, t.ctx.inputBuf))
      = some ([{ result := .unsupportedCommand }], [], [(0, 0xFF#8)]) := by decide
/-- V-DSP-3: `F0 6B 00 F7`. -/
theorem test_sysex_query_with_payload :
    results (.sysex [0x6B#7, 0x00#7]) m8 = some [.ok, .ok, .ok, .invalidFrame] := by decide
/-- V-DEC-8: `F0 F7`. -/
theorem test_sysex_shortest : results (.sysex []) m8 = some [.ok, .unsupportedCommand] := by decide
theorem test_analogMappingQuery_event :
    events .analogMappingQuery m8 = some [.query .analogMappingQuery 8 7 0xF0#8 0x69#8] := by decide
theorem test_capabilityQuery_event :
    events .capabilityQuery m8 = some [.query .capabilityQuery 9 7 0xF0#8 0x6B#8] := by decide
/-- P4: the handler answers through a four-byte output buffer. -/
theorem test_capabilityQuery_answered :
    (ran .capabilityQuery { attached (caps 8 4) with
        scripts := [[.sendCapability [⟨0#8, 0#8, 1#8⟩, ⟨0#8, 1#8, 1#8⟩, ⟨1#8, 2#8, 10#8⟩]]] }).map
      (fun t => (chunks t, t.ctx.outputBuf, t.replies.map Reply.result))
      = some ([[0xF0#8, 0x6C#8, 0x00#8, 0x01#8], [0x01#8, 0x01#8, 0x7F#8, 0x02#8], [0x0A#8, 0x7F#8, 0xF7#8]],
        [(0, 0x0A#8), (1, 0x7F#8), (2, 0xF7#8), (3, 0x02#8)], [.ok, .ok, .ok]) := by decide

/-- R171: a handler's failed SEND_CAPABILITY and its DECODE14 answer the handler; FEED still returns OK. -/
theorem test_capabilityQuery_handler_gets_its_results :
    (ran .capabilityQuery { withPair with scripts := [[.sendCapability [], .decode14 0 4 2]] }).map
      (fun t => (t.handlerReplies, t.replies.map Reply.result))
      = some ([{ result := .invalidArgument }, { result := .ok, value := some 0x0024#16 }], [.ok, .ok, .ok]) := by decide

/-! ### Outbound messages (R60) -/

theorem test_analogMessage : sinkBytes (.analogMessage 15#4 0x3FFF#14) m8 = some [[0xEF#8, 0x7F#8, 0x7F#8]] := by decide
theorem test_digitalMessage : sinkBytes (.digitalMessage 0#4 0x80#14) m8 = some [[0x90#8, 0x00#8, 0x01#8]] := by decide
theorem test_versionReply : sinkBytes .versionReply m8 = some [[0xF9#8, 0x02#8, 0x06#8]] := by decide
theorem test_stringData :
    sinkBytes (.stringData [0xE9#8]) m8 = some [[0xF0#8, 0x71#8, 0x69#8, 0x01#8, 0xF7#8]] := by decide
theorem test_capabilityResponse :
    sinkBytes (.capabilityResponse [[(1#7, 1#7)]]) m8 = some [[0xF0#8, 0x6C#8, 0x01#8, 0x01#8, 0x7F#8, 0xF7#8]] := by
  decide
theorem test_analogMappingResponse :
    sinkBytes (.analogMappingResponse [none]) m8 = some [[0xF0#8, 0x6A#8, 0x7F#8, 0xF7#8]] := by decide

/-! ### Interface operations -/

/-- V-LIFE-2: every field, and no event. -/
theorem test_init_zeroes : (ran (.init .present) midAnalog).map State.ctx = some Context.zero := by decide
theorem test_init_absent : results (.init .absent) m8 = some [.nullReference] := by decide
/-- V-LIFE-3: the decoder is not disturbed. -/
theorem test_attach_mid_frame :
    decoderAfter (.attach .present (some HandlerTable.empty)) midAnalog = some (.cmdData, .one, 2) := by decide
theorem test_attach_absent_table : results (.attach .present none) m8 = some [.nullReference] := by decide
/-- V-DEC-4. -/
theorem test_feed_command_inside :
    (ran (.feed .present 0x90#8) midAnalog).map (fun t => (t.ctx.state, t.ctx.inputBuf, t.replies))
      = some (.cmd, [(0, 0xE3#8), (1, 0x63#8)], [{ result := .unsupportedCommand }]) := by decide
/-- V-DEC-10: the terminator needs a cell too. -/
theorem test_feed_full_terminator : results (.feed .present 0xF7#8) sysex6 = some [.bufferFull] := by decide
/-- V-DEC-14. -/
theorem test_feedBulk_stops :
    results (.feedBulk .present [0xE3#8, 0x63#8, 0x01#8, 0x63#8, 0x90#8]) m8 = some [.unsupportedCommand] := by decide
theorem test_feedBulk_partial : decoderAfter (.feedBulk .present [0xE3#8, 0x63#8]) m8 = some (.cmdData, .one, 2) := by
  decide
/-- V-COD-14. -/
theorem test_decode14_overlap :
    (ran (.decode14 0 4 2) withPair).map State.replies = some [{ result := .ok, value := some 0x0024#16 }] := by decide
/-- V-COD-10. -/
theorem test_decode14_negative : results (.decode14 0 2 (-1)) withPair = some [.outOfBounds] := by decide
/-- V-COD-6b, at offset 2. -/
theorem test_encode14_masks :
    (ran (.encode14 0 4 2 0xFFFF#16) withPair).map State.callerMem
      = some [(1, 0x34#8), (2, 0x7F#8), (3, 0x7F#8)] := by decide
/-- V-COD-12. -/
theorem test_encode14_last_offset :
    (ran (.encode14 0 4 3 0#16) withPair).map (fun t => (t.callerMem, t.replies))
      = some (withPair.callerMem, [{ result := .outOfBounds }]) := by decide
/-- V-BUF-1. -/
theorem test_append_overflow :
    (ran (.append .present 0xCC#8) full2).map (fun t => (chunks t, t.ctx.outputBuf, t.ctx.outputCursor))
      = some ([[0xAA#8, 0xBB#8]], [(0, 0xCC#8), (1, 0xBB#8)], 1) := by decide
/-- V-BUF-2. -/
theorem test_flush_pending : sinkBytes (.flush .present) oneAA = some [[0xAA#8]] := by decide
/-- V-BUF-3: no sink. -/
theorem test_flush_without_sink :
    (ran (.flush .present) (noSink oneAA)).map (fun t => (t.trace, t.ctx.outputCursor, t.replies))
      = some ([], 0, [{ result := .ok }]) := by decide
/-- V-BUF-8. -/
theorem test_sendAnalog_behind_pending :
    sinkBytes (.sendAnalog .present 3#8 0xE3#16) oneAA = some [[0xAA#8, 0xE3#8, 0x63#8, 0x01#8]] := by decide
/-- V-ENC-5. -/
theorem test_sendAnalog_value : results (.sendAnalog .present 0#8 0x4000#16) m8 = some [.invalidArgument] := by decide
/-- V-ENC-7, V-ENC-8. -/
theorem test_sendDigital : sinkBytes (.sendDigital .present 15#8 0x3FFF#16) m8 = some [[0x9F#8, 0x7F#8, 0x7F#8]] := by
  decide
theorem test_sendDigital_port : results (.sendDigital .present 0x10#8 1#16) m8 = some [.invalidArgument] := by decide
/-- V-ENC-9. -/
theorem test_sendString :
    sinkBytes (.sendString .present [0x48#8, 0x69#8]) m8
      = some [[0xF0#8, 0x71#8, 0x48#8, 0x00#8, 0x69#8, 0x00#8, 0xF7#8]] := by decide
/-- V-ENC-13. -/
theorem test_sendString_empty : results (.sendString .present []) m8 = some [.invalidArgument] := by decide
/-- V-BUF-7, S5b. -/
theorem test_sendCapability_chunks :
    sinkBytes (.sendCapability .present [⟨0#8, 0#8, 1#8⟩, ⟨0#8, 1#8, 1#8⟩, ⟨1#8, 2#8, 10#8⟩]) (attached (caps 8 4))
      = some [[0xF0#8, 0x6C#8, 0x00#8, 0x01#8], [0x01#8, 0x01#8, 0x7F#8, 0x02#8], [0x0A#8, 0x7F#8, 0xF7#8]] := by decide
/-- V-ENC-17: validation precedes the separator. -/
theorem test_sendCapability_invalid :
    (ran (.sendCapability .present [⟨0#8, 0#8, 1#8⟩, ⟨1#8, 0x80#8, 1#8⟩]) m8).map
      (fun t => (chunks t, pendingOut t, t.replies))
      = some ([], [0xF0#8, 0x6C#8, 0x00#8, 0x01#8], [{ result := .invalidArgument }]) := by decide
/-- V-BUF-5, S6. -/
theorem test_sendAnalogMapping_chunks :
    sinkBytes (.sendAnalogMapping .present
        (List.replicate 9 0x7F#8 ++ [0x00#8, 0x01#8, 0x02#8, 0x03#8, 0x04#8, 0x05#8])) (attached (caps 8 5))
      = some [[0xF0#8, 0x6A#8, 0x7F#8, 0x7F#8, 0x7F#8], [0x7F#8, 0x7F#8, 0x7F#8, 0x7F#8, 0x7F#8],
        [0x7F#8, 0x00#8, 0x01#8, 0x02#8, 0x03#8], [0x04#8, 0x05#8, 0xF7#8]] := by decide
/-- V-ENC-23 under each policy: what was delivered, and what is pending. -/
theorem test_sendAnalogMapping_policies :
    ([EncFailPolicy.leave, .flush, .discard].map fun policy =>
        (ran (.sendAnalogMapping .present [0x7F#8, 0x00#8, 0x01#8, 0x10#8])
          (withPolicy policy false (attached (caps 8 4)))).map fun t => (chunks t, pendingOut t))
      = [some ([[0xF0#8, 0x6A#8, 0x7F#8, 0x00#8]], [0x01#8]), some ([[0xF0#8, 0x6A#8, 0x7F#8, 0x00#8], [0x01#8]], []),
        some ([[0xF0#8, 0x6A#8, 0x7F#8, 0x00#8]], [])] := by decide

/-! ### The step -/

/-- The first step after reset runs the word placed with `withFetchWord`, and takes it off the queue. -/
theorem test_step_runs_the_word :
    step (State.reset.withFetchWord 8 0x6) = exec (.append .present 0#8) State.reset := by rfl
/-- R62: an unassigned code is refused. -/
theorem test_step_refuses_unassigned :
    step (State.reset.withFetchWord 8 0xD) = .refused (.unassignedOperation 0xD#4) := by rfl
/-- R59: a byte that is no frame is fed all the same. -/
theorem test_step_feeds_garbage :
    step { m8 with requests := [.instr (.wire [0x63#8])] }
      = .next { m8 with replies := [{ result := .unsupportedCommand }] } := by rfl

/-- R120 "APPEND does not check `b` in any way": bytes that are no message are composed all the same. -/
theorem test_step_composes_garbage :
    (match step { m8 with requests := [.instr (.message [0xE3#8, 0x63#8])] } with
      | .next t => some (chunks t, t.replies)
      | .fault _ => none
      | .refused _ => none) = some ([[0xE3#8, 0x63#8]], [{ result := .ok }]) := by decide

/-! ### Witnesses: concrete states and operands that meet the hypotheses of each statement -/

theorem m8_inv : m8.Inv := ⟨rfl, rfl, rfl, rfl, rfl, rfl⟩
theorem m8_cmd : m8.ctx.state = .cmd := rfl
theorem midAnalog_inv : midAnalog.Inv := ⟨rfl, rfl, rfl, rfl, rfl, rfl⟩
theorem midReport_inv : midReport.Inv := ⟨rfl, rfl, rfl, rfl, rfl, rfl⟩
theorem midPin_inv : midPin.Inv := ⟨rfl, rfl, rfl, rfl, rfl, rfl⟩
theorem sysex5_inv : sysex5.Inv := ⟨rfl, rfl, rfl, rfl, rfl, rfl⟩
theorem sysex6_inv : sysex6.Inv := ⟨rfl, rfl, rfl, rfl, rfl, rfl⟩
theorem full2_inv : full2.Inv := ⟨rfl, rfl, rfl, rfl, rfl, rfl⟩
theorem oneAA_inv : oneAA.Inv := ⟨rfl, rfl, rfl, rfl, rfl, rfl⟩
theorem withPair_inv : withPair.Inv := ⟨rfl, rfl, rfl, rfl, rfl, rfl⟩
theorem full2_noSink_inv : (noSink full2).Inv := ⟨rfl, rfl, rfl, rfl, rfl, rfl⟩

theorem witness_EveryStepKeepsTheInvariant :
    ∃ t, m8.Inv ∧ step (m8.withFetchWord 8 0xF9) = .next t ∧ (m8.withFetchWord 8 0xF9).Inv :=
  ⟨_, m8_inv, rfl, m8_inv⟩

/-- A Context in CMD, one with each count, and the least and the greatest cursor of a pending frame. -/
theorem witness_BetweenOperationsIsWhatR25Says :
    (m8.ctx.state = .cmd ∧ betweenOperations m8.params m8.ctx = true)
      ∧ (midAnalog.ctx.remainingCount = .one ∧ betweenOperations midAnalog.params midAnalog.ctx = true)
      ∧ (midReport.ctx.remainingCount = .one ∧ betweenOperations midReport.params midReport.ctx = true)
      ∧ (midPin.ctx.remainingCount = .two ∧ betweenOperations midPin.params midPin.ctx = true)
      ∧ (sysex6.ctx.remainingCount = .unbounded ∧ sysex6.ctx.inputCursor = sysex6.params.inCap
        ∧ betweenOperations sysex6.params sysex6.ctx = true)
      ∧ betweenOperations stuckReady.params stuckReady.ctx = false := by decide

theorem witness_AttachReplacesTheWholeTable : midAnalog.Usable ∧ oneAA.Usable := ⟨rfl, rfl⟩

/-- Each of the three stops, at the least cursor beyond the capacity; instructions that use the Context, and that do
not. -/
theorem witness_UninitialisedContextStopsEveryOtherOperation :
    (usesContext (.sendCapability .present []) = true ∧ usesContext .capabilityQuery = true
        ∧ usesContext (.stringData [0x48#8]) = true ∧ usesContext (.attach .present (some table)) = true
        ∧ usesContext (.attach .present none) = false ∧ usesContext (.feedBulk .absent []) = false)
      ∧ (betweenOperations badIn.params badIn.ctx = false ∧ badIn.params.inCap < badIn.ctx.inputCursor)
      ∧ (betweenOperations badOut.params badOut.ctx = false ∧ badOut.params.outCap < badOut.ctx.outputCursor)
      ∧ (betweenOperations stuckReady.params stuckReady.ctx = false
        ∧ ¬ (stuckReady.params.inCap < stuckReady.ctx.inputCursor ∨ stuckReady.params.outCap < stuckReady.ctx.outputCursor)
        ∧ stuckReady.ctx.state = .ready)
      ∧ (betweenOperations uninitialised.params uninitialised.ctx = false
        ∧ ¬ (uninitialised.params.inCap < uninitialised.ctx.inputCursor
          ∨ uninitialised.params.outCap < uninitialised.ctx.outputCursor)
        ∧ uninitialised.ctx.state ≠ .ready) := by decide

/-- The greatest offset in bounds, the least one out of bounds, a negative one, and an empty array. -/
theorem witness_Encode14WritesThePairOrNothing :
    Memory.wf withPair.callerMem = true ∧ (0 ≤ (2 : Int) ∧ (2 : Int) + 1 < ((4 : Nat) : Int))
      ∧ ¬ (0 ≤ (3 : Int) ∧ (3 : Int) + 1 < ((4 : Nat) : Int)) ∧ ¬ (0 ≤ (-1 : Int) ∧ (-1 : Int) + 1 < ((4 : Nat) : Int))
      ∧ ¬ (0 ≤ (0 : Int) ∧ (0 : Int) + 1 < ((0 : Nat) : Int)) := by decide

theorem witness_CodecRoundTripsBothWays :
    Memory.wf withPair.callerMem = true ∧ 0 ≤ (2 : Int) ∧ (2 : Int) + 1 < ((4 : Nat) : Int)
      ∧ (memRead withPair.callerMem 2).msb = false ∧ (memRead withPair.callerMem 3).msb = false
      ∧ 0x3FFF#16 ≤ 0x3FFF#16 := by decide

/-- A buffer with room for one byte, a full one with a sink, and a full one without. -/
theorem witness_AppendStoresOneByteAfterFlushingAFullBuffer :
    m8.Inv ∧ m8.ctx.outputCursor ≠ m8.params.outCap
      ∧ full2.Inv ∧ full2.ctx.outputCursor = full2.params.outCap ∧ full2.ctx.handlers.output = some 1
      ∧ (noSink full2).Inv ∧ (noSink full2).ctx.outputCursor = (noSink full2).params.outCap
      ∧ (noSink full2).ctx.handlers.output = none :=
  ⟨m8_inv, by decide, full2_inv, rfl, rfl, full2_noSink_inv, rfl, rfl⟩

theorem witness_FlushDeliversExactlyThePendingBytes :
    (m8.Usable ∧ m8.ctx.outputCursor = 0) ∧ ((noSink oneAA).Usable ∧ (noSink oneAA).ctx.handlers.output = none)
      ∧ oneAA.Usable ∧ oneAA.ctx.handlers.output = some 1 ∧ oneAA.ctx.outputCursor ≠ 0 :=
  ⟨⟨rfl, rfl⟩, ⟨rfl, rfl⟩, rfl, rfl, by decide⟩

/-- For the two statements about chunks. -/
theorem witness_ChunkingIsInvisibleInTheConcatenation :
    m8.Inv ∧ m8.ctx.outputCursor = 0 ∧ m8.ctx.handlers.output.isSome = true := ⟨m8_inv, rfl, rfl⟩

theorem witness_MessageLeavesInFullChunksButTheLast :
    (attached (caps 8 5)).Inv ∧ (attached (caps 8 5)).ctx.outputCursor = 0
      ∧ (attached (caps 8 5)).ctx.handlers.output.isSome = true ∧ List.replicate 18 0x7F#8 ≠ [] :=
  ⟨⟨rfl, rfl, rfl, rfl, rfl, rfl⟩, rfl, rfl, by decide⟩

/-- An output operation and a message, on a full buffer. -/
theorem witness_OutputOperationsTouchOnlyTheOutputSide :
    full2.Inv ∧ (∃ t, isOutput (.append .present 0xCC#8) = true ∧ exec (.append .present 0xCC#8) full2 = .next t)
      ∧ ∃ t, isOutput .versionReply = true ∧ exec .versionReply full2 = .next t :=
  ⟨full2_inv, ⟨_, rfl, rfl⟩, _, rfl, rfl⟩

theorem witness_TheSinksResultNeverChangesTheState :
    (∃ t, isOutput (.flush .present) = true ∧ exec (.flush .present) oneAA = .next t)
      ∧ ∃ t, isOutput (.flush .present) = true
        ∧ exec (.flush .present) (withPolicy .leave true oneAA) = .next t := ⟨⟨_, rfl, rfl⟩, _, rfl, rfl⟩

/-- The greatest values in range, and the least out of it, each alone. -/
theorem witness_SendAnalogSendsOneStatusMessage :
    oneAA.Inv ∧ (0x0F#8 ≤ 0x0F#8 ∧ 0x3FFF#16 ≤ 0x3FFF#16) ∧ ¬ (0x10#8 ≤ 0x0F#8 ∧ 0#16 ≤ 0x3FFF#16)
      ∧ ¬ (0#8 ≤ 0x0F#8 ∧ 0x4000#16 ≤ 0x3FFF#16) := ⟨oneAA_inv, by decide⟩

theorem witness_SendDigitalSendsOneStatusMessage :
    full2.Inv ∧ (0x0F#8 ≤ 0x0F#8 ∧ 0x3FFF#16 ≤ 0x3FFF#16) ∧ ¬ (0x10#8 ≤ 0x0F#8 ∧ 1#16 ≤ 0x3FFF#16)
      ∧ ¬ (0#8 ≤ 0x0F#8 ∧ 0xFFFF#16 ≤ 0x3FFF#16) := ⟨full2_inv, by decide⟩

theorem witness_SendStringSendsEachCharacterAsAPair : m8.Inv ∧ [0xE9#8] ≠ ([] : List Byte) := ⟨m8_inv, by decide⟩

/-- Valid records at the greatest data bytes; and a bad record after a good one, under each policy and with no sink. -/
theorem witness_SendCapabilitySeparatesRunsOfOnePin :
    m8.Inv ∧ (withPolicy .flush false m8).Inv ∧ (withPolicy .discard false m8).Inv ∧ (noSink m8).Inv
      ∧ m8.params.capRule = .dataBytes
      ∧ (∀ r ∈ [(⟨0#8, 0#8, 1#8⟩ : CapRecord), ⟨0xFF#8, 0x7F#8, 0x7F#8⟩], capRecordValid m8.params r = true)
      ∧ capRecordValid m8.params ⟨1#8, 0x80#8, 1#8⟩ = false :=
  ⟨m8_inv, ⟨rfl, rfl, rfl, rfl, rfl, rfl⟩, ⟨rfl, rfl, rfl, rfl, rfl, rfl⟩, ⟨rfl, rfl, rfl, rfl, rfl, rfl⟩, by decide⟩

/-- Accepted entries at the ends of their range, and bad ones next to them, under each policy and with no sink. -/
theorem witness_SendAnalogMappingSendsTheMap :
    m8.Inv ∧ (withPolicy .flush false m8).Inv ∧ (withPolicy .discard false m8).Inv ∧ (noSink m8).Inv ∧ (∀ e ∈ [0x7F#8, 0x00#8, 0x0F#8], e = 0x7F#8 ∨ e ≤ 0x0F#8)
      ∧ ¬ (0x10#8 = 0x7F#8 ∨ 0x10#8 ≤ 0x0F#8) ∧ ¬ (0x7E#8 = 0x7F#8 ∨ 0x7E#8 ≤ 0x0F#8)
      ∧ ¬ (0x80#8 = 0x7F#8 ∨ 0x80#8 ≤ 0x0F#8) :=
  ⟨m8_inv, ⟨rfl, rfl, rfl, rfl, rfl, rfl⟩, ⟨rfl, rfl, rfl, rfl, rfl, rfl⟩, ⟨rfl, rfl, rfl, rfl, rfl, rfl⟩, by decide⟩

theorem witness_EachMessageLeavesAsItsFormatSays : full2.Inv ∧ midAnalog.Inv := ⟨full2_inv, midAnalog_inv⟩

theorem witness_EncodersProduceTheirMessageRows :
    (0x0F#8 ≤ 0x0F#8 ∧ 0x3FFF#16 ≤ 0x3FFF#16) ∧ m8.params.capRule = .dataBytes
      ∧ (∀ r ∈ [(⟨0#8, 0#8, 1#8⟩ : CapRecord), ⟨1#8, 0x7F#8, 0x7F#8⟩], r.mode ≤ 0x7F#8 ∧ r.resolution ≤ 0x7F#8) := by
  decide

theorem witness_OnlyTheFirstByteAndTheTerminatorHaveBit7 :
    (∃ bytes, encode Config.default (.stringData [0xFF#8]) = .message bytes)
      ∧ ∃ bytes, encode Config.default (.analogIo 15#4 0x3FFF#14) = .wire bytes := ⟨⟨_, rfl⟩, _, rfl⟩

/-- One state and byte for each row of R84. -/
theorem witness_FeedFollowsTheTransitionTable :
    (m8.Inv ∧ m8.ctx.state = .cmd ∧ (0x7F#8 : Byte).msb = false ∧ bodyLen 0xFE#8 = none
        ∧ bodyLen 0xC0#8 = some .one ∧ bodyLen 0xF5#8 = some .two ∧ bodyLen 0xF0#8 = some .unbounded
        ∧ bodyLen 0xFF#8 = some .zero)
      ∧ (sysex5.Inv ∧ sysex5.ctx.state = .cmdData ∧ memRead sysex5.ctx.inputBuf 0 = 0xF0#8
        ∧ sysex5.ctx.inputCursor < sysex5.params.inCap)
      ∧ (sysex6.Inv ∧ memRead sysex6.ctx.inputBuf 0 = 0xF0#8 ∧ sysex6.ctx.inputCursor = sysex6.params.inCap)
      ∧ (midPin.Inv ∧ midPin.ctx.state = .cmdData ∧ memRead midPin.ctx.inputBuf 0 ≠ 0xF0#8
        ∧ midPin.ctx.remainingCount = .two)
      ∧ midAnalog.Inv ∧ memRead midAnalog.ctx.inputBuf 0 ≠ 0xF0#8 ∧ midAnalog.ctx.remainingCount = .one :=
  ⟨⟨m8_inv, by decide⟩, ⟨sysex5_inv, by decide⟩, ⟨sysex6_inv, by decide⟩, ⟨midPin_inv, by decide⟩,
    midAnalog_inv, by decide⟩

theorem witness_UnmappedCommandBytesForceTheDecoderToCmd :
    sysex6.Inv ∧ m8.Inv
      ∧ ((0x80#8 : Byte).msb = true ∧ 0x80#8 ≠ 0xF7#8 ∧ bodyLen 0x80#8 = none)
      ∧ ((0xFE#8 : Byte).msb = true ∧ 0xFE#8 ≠ 0xF7#8 ∧ bodyLen 0xFE#8 = none) :=
  ⟨sysex6_inv, m8_inv, by decide⟩

/-- A rejected first byte, a full buffer, and a query with a payload. -/
theorem witness_FeedErrorsOnlyResetTheDecoder :
    (m8.Inv ∧ m8.params.sinkResultPropagates = false
        ∧ ∃ t, exec (.feed .present 0x63#8) m8 = .next t ∧ Replies m8 t .unsupportedCommand)
      ∧ (sysex6.Inv ∧ ∃ t, exec (.feed .present 0x43#8) sysex6 = .next t ∧ Replies sysex6 t .bufferFull)
      ∧ ∃ s : State, s.Inv ∧ ∃ t, exec (.feed .present 0xF7#8) s = .next t ∧ Replies s t .invalidFrame :=
  ⟨⟨m8_inv, rfl, _, rfl, rfl⟩, ⟨sysex6_inv, _, rfl, rfl⟩,
    { m8 with ctx := { m8.ctx with
        state := .cmdData, remainingCount := .unbounded, inputCursor := 3, inputBuf := [(0, 0xF0#8), (1, 0x6B#8)] } },
    ⟨rfl, rfl, rfl, rfl, rfl, rfl⟩, _, rfl, rfl⟩

theorem witness_FeedStoresAtTheCursorAndNowhereElse :
    midAnalog.Inv ∧ (∃ t, exec (.feed .present 0x01#8) midAnalog = .next t) ∧ midAnalog.scripts = []
      ∧ ¬ (midAnalog.ctx.state = .cmd ∧ 0x01#8 = 0xF9#8) := ⟨midAnalog_inv, ⟨_, rfl⟩, rfl, by decide⟩

/-- A first byte that is accepted, and one that is not. -/
theorem witness_FeedBulkIsFeedUntilTheFirstError :
    m8.Inv ∧ (feed 0xE3#8 m8).1 = .ok ∧ (feed 0x63#8 m8).1 ≠ .ok := ⟨m8_inv, by decide⟩

theorem witness_AFrameInsideAFrameIsLost :
    midAnalog.Inv ∧ midAnalog.ctx.state = .cmdData ∧ bodyLen 0xC1#8 = some .one := ⟨midAnalog_inv, by decide⟩

/-- For the four statements about handlers, the version query and the system reset: every slot present and nothing
issued, and every slot absent. -/
theorem witness_ValueFramesInvokeTheirHandlers :
    m8.Inv ∧ m8.ctx.state = .cmd ∧ m8.ctx.handlers.analogIO = some 2 ∧ m8.scripts = []
      ∧ (State.initial (caps 3 1)).Inv ∧ (State.initial (caps 3 1)).ctx.state = .cmd :=
  ⟨m8_inv, rfl, rfl, rfl, ⟨rfl, rfl, rfl, rfl, rfl, rfl⟩, rfl⟩
theorem witness_ReportFramesInvokeTheirHandlers :
    oneAA.Inv ∧ oneAA.ctx.state = .cmd ∧ oneAA.ctx.handlers.reportDigital = some 5 := ⟨oneAA_inv, rfl, rfl⟩
theorem witness_PinFramesInvokeTheirHandlers :
    full2.Inv ∧ full2.ctx.state = .cmd ∧ full2.ctx.handlers.setPinMode = some 6 := ⟨full2_inv, rfl, rfl⟩
/-- Also the least and the greatest payload that fits. -/
theorem witness_QueryFramesInvokeTheirHandlers :
    m8.Inv ∧ m8.ctx.state = .cmd ∧ m8.ctx.handlers.capabilityQuery = some 9
      ∧ [0x00#7] ≠ [] ∧ [0x00#7].length + 3 ≤ m8.params.inCap
      ∧ (List.replicate 5 0x00#7).length + 3 ≤ m8.params.inCap := ⟨m8_inv, by decide⟩
theorem witness_VersionQueryIsAnsweredThroughTheBuffer :
    (full2.Inv ∧ full2.ctx.state = .cmd ∧ full2.ctx.handlers.output = some 1
        ∧ full2.params.outCap < full2.ctx.outputCursor + 3 ∧ full2.params.sinkResultPropagates = false)
      ∧ (oneAA.Inv ∧ oneAA.ctx.handlers.output = some 1 ∧ oneAA.ctx.outputCursor + 3 ≤ oneAA.params.outCap)
      ∧ ((noSink full2).Inv ∧ (noSink full2).ctx.handlers.output = none)
      ∧ (withPolicy .leave true full2).Inv ∧ (withPolicy .leave true full2).params.sinkResultPropagates = true :=
  ⟨⟨full2_inv, by decide⟩, ⟨oneAA_inv, by decide⟩, ⟨full2_noSink_inv, rfl⟩, ⟨rfl, rfl, rfl, rfl, rfl, rfl⟩, rfl⟩
theorem witness_SystemResetFrameResetsNothing : oneAA.Inv ∧ oneAA.ctx.state = .cmd := ⟨oneAA_inv, rfl⟩

/-- The longest body that fits, an unknown sub-id, a query with a payload, and a query. -/
theorem witness_SysexFramesAreJudgedBySubIdThenLength :
    m8.Inv ∧ m8.ctx.state = .cmd ∧ (List.replicate 6 0x00#7).length + 2 ≤ m8.params.inCap
      ∧ ¬ ((List.replicate 6 0x00#7).head? = some m8.params.analogMappingQueryId
        ∨ (List.replicate 6 0x00#7).head? = some 0x6B#7)
      ∧ ([0x6B#7, 0x00#7].head? = some 0x6B#7 ∧ [0x6B#7, 0x00#7].length ≠ 1)
      ∧ [0x69#7].head? = some m8.params.analogMappingQueryId := ⟨m8_inv, by decide⟩

/-- The shortest body that does not fit. -/
theorem witness_OverlongSysexFramesFillTheBufferAndFail :
    m8.Inv ∧ m8.ctx.state = .cmd ∧ m8.params.inCap < (List.replicate 7 0x00#7).length + 2 := ⟨m8_inv, by decide⟩

/-- A usable state; a byte that completes a frame with a handler, and one that does not. -/
theorem witness_NestedOutputIsAsGoodAsLaterOutput :
    oneAA.Usable ∧ (∃ t₀, midAnalog.Inv ∧ exec (.feed .present 0x01#8) { midAnalog with scripts := [[], [.flush]] } = .next t₀
        ∧ t₀.scripts = [[.flush]])
      ∧ ∃ t₀, m8.Inv ∧ exec (.feed .present 0xE3#8) { m8 with scripts := [[]] } = .next t₀ ∧ t₀.scripts = [[]] :=
  ⟨rfl, ⟨_, midAnalog_inv, rfl, rfl⟩, _, m8_inv, rfl, rfl⟩

/-- A frame and an operation. -/
theorem witness_EveryInstructionCompletesOnAUsableContext :
    midAnalog.Usable ∧ (∃ bytes, encode midAnalog.params .systemReset = .wire bytes)
      ∧ ∀ bytes, encode midAnalog.params (.flush .present) ≠ .wire bytes :=
  ⟨rfl, ⟨_, rfl⟩, fun _ h => by cases h⟩

theorem witness_EachOperationReturnsOnlyItsOwnErrors :
    ∃ t, sysex6.params.sinkResultPropagates = false ∧ sysex6.Inv ∧ exec (.feed .present 0xF7#8) sysex6 = .next t
      ∧ t.replies = sysex6.replies ++ [{ result := .bufferFull }] := ⟨_, rfl, sysex6_inv, rfl, rfl⟩

theorem witness_OnlyAttachAndInitWriteTheControlRegisters :
    (∃ t, exec (.init .present) m8 = .next t ∧ t.ctx.handlers ≠ m8.ctx.handlers ∧ t.ctx.userData ≠ m8.ctx.userData)
      ∧ ∃ t, exec (.attach .present (some HandlerTable.empty)) m8 = .next t ∧ t.ctx.handlers ≠ m8.ctx.handlers :=
  ⟨⟨_, rfl, by decide, by decide⟩, _, rfl, by decide⟩

theorem witness_HistoryOnlyGrows : ∃ t, exec .protocolVersion full2 = .next t ∧ t.trace ≠ full2.trace :=
  ⟨_, rfl, by decide⟩

/-- Two machines that differ in `user_data`, and a next state and a stop of them. -/
theorem witness_UserDataInfluencesNothing :
    forgetUserData m8 = forgetUserData (callerSetsUserData 9 m8) ∧ m8 ≠ callerSetsUserData 9 m8
      ∧ (∃ t, exec (.analogIo 3#4 0xE3#14) m8 = .next t) ∧ (∃ r, exec (.flush .present) badIn = .fault r)
      ∧ ∃ r, exec (.flush .present) stuckReady = .refused r :=
  ⟨rfl, by decide, ⟨_, rfl⟩, ⟨_, rfl⟩, _, rfl⟩

/-- A word that decodes, bytes that do not, in either direction, the least unassigned code, the caller's writes, and no request. -/
theorem witness_AStepRunsTheDecodedInstruction :
    decode m8.params (.wire [0xF9#8]) = .ok .protocolVersion
      ∧ (decode m8.params (.wire [0x63#8]) = .error (.dataByteFirst 0x63#8) ∧ m8.Usable)
      ∧ (∃ why, decode m8.params (.message [0xE3#8, 0x63#8]) = .error why)
      ∧ 0xD#4 ≤ 0xD#4 ∧ m8.requests = [] ∧ { m8 with requests := [.setUserData 3] }.requests = [.setUserData 3] :=
  ⟨rfl, ⟨rfl, rfl⟩, ⟨_, rfl⟩, by decide, rfl, rfl⟩

theorem witness_DecodeOfEncodeIsTheInstruction :
    wellFormed Config.default (.sysex [0x6B#7, 0x00#7]) = true
      ∧ wellFormed Config.default (.capabilityResponse [[(0x7F#7, 0x7F#7), (1#7, 1#7)], [(2#7, 10#7)]]) = true := by
  decide

theorem witness_EncodeOfDecodeIsTheBytes :
    decode Config.default (.wire [0xF0#8, 0xF7#8]) = .ok (.sysex [])
      ∧ decode Config.default (.message [0xF0#8, 0x6A#8, 0x7F#8, 0xF7#8]) = .ok (.analogMappingResponse [none]) :=
  ⟨rfl, rfl⟩

/-- A full buffer and a propagating sink: a composite encoder, a message row and the version query. -/
theorem witness_TheSinksResultsComeBackAsTheRulesSay :
    (withPolicy .leave true full2).Inv ∧ (withPolicy .leave true full2).params.sinkResultPropagates = true
      ∧ (withPolicy .leave true full2).ctx.state = .cmd
      ∧ (0x0F#8 ≤ 0x0F#8 ∧ 0x3FFF#16 ≤ 0x3FFF#16)
      ∧ (∃ t, exec (.sendAnalog .present 0x0F#8 0x3FFF#16) (withPolicy .leave true full2) = .next t)
      ∧ ∃ t, exec .protocolVersion (withPolicy .leave true full2) = .next t :=
  ⟨⟨rfl, rfl, rfl, rfl, rfl, rfl⟩, rfl, rfl, by decide, ⟨_, rfl⟩, _, rfl⟩

end Sys2Proof.Tests
end

section
/-! SUPPORT. What an instruction that completes can have done: how the reply and the effect follow from the answer, the
normal form of every output operation, the frame of FEED from any state, and one case analysis over `exec`. -/

namespace Sys2Proof.Machine

variable {s t : State}

/-! ### From the answer to the effect -/

/-- Entering a Context that R25 rules out never answers a next state (log 9). -/
theorem usable_of_enter_next {k : State → Host.Outcome State Fault Refusal} (h : enter s k = .next t) :
    s.Usable ∧ k s = .next t := by
  unfold enter at h
  split at h
  · cases h
  split at h
  · cases h
  split at h
  · exact ⟨‹_›, h⟩
  · cases h

/-- Everything an operation on a reference that completes can have done (60_exceptions.md R160, R161). -/
theorem withContext_next {ctx : Ref} {f : State → Result × State} (h : withContext ctx s f = .next t) :
    (ctx = .absent ∧ t = s.answer { result := .nullReference })
    ∨ (ctx = .present ∧ t = (f s).2.answer { result := (f s).1 }) := by
  cases ctx with
  | absent => exact .inl ⟨rfl, (Host.Outcome.next.inj h).symm⟩
  | present =>
    have run := (usable_of_enter_next (k := fun s => finishWith (f s)) h).2
    exact .inr ⟨rfl, (Host.Outcome.next.inj run).symm⟩

theorem deliver_next {bytes : List Byte} (h : deliver bytes s = .next t) : t = feedEach bytes s :=
  (Host.Outcome.next.inj (usable_of_enter_next (k := fun s => .next (feedEach bytes s)) h).2).symm

/-! ### The normal form of an output operation -/

/-- How an output operation ends, once its bytes are appended: as it is, with a FLUSH, or with the pending bytes
dropped (44_output_encoders.md R130, R138). -/
inductive OutputEnding (u : State) : State → Prop where
  | keeps : OutputEnding u u
  | flushes : OutputEnding u (flush u).2
  | drops : OutputEnding u (u.setCtx (u.ctx.setOutputCursor 0))

theorem OutputEnding.frame {u : State} (h : OutputEnding u t) : OutputFrame u t := by
  cases h with
  | keeps => exact .refl _
  | flushes => exact flush_frame _
  | drops => exact ⟨rfl, rfl, rfl, rfl, rfl, rfl, rfl, rfl, rfl, rfl, rfl, rfl, [], by simp⟩

theorem OutputEnding.ok {u : State} (h : OutputEnding u t) (hu : OutputOk u) : OutputOk t := by
  cases h with
  | keeps => exact hu
  | flushes => exact flush_ok hu
  | drops => exact ⟨Nat.zero_le _, hu.wf, hu.within⟩

theorem OutputEnding.outputBuf {u : State} (h : OutputEnding u t) : t.ctx.outputBuf = u.ctx.outputBuf := by
  cases h with
  | keeps | drops => rfl
  | flushes => exact flush_outputBuf _

theorem failMid_ending (e : Result) (u : State) : OutputEnding u (failMid e u).2 := by
  unfold failMid
  split
  · exact .keeps
  · exact .flushes
  · exact .drops

/-- A checked message appends the bytes of its valid head, or all of them (R137), and ends. -/
theorem composeChecked_ending (head : List Byte) (pieces : List (Option (List Byte))) (tail : List Byte) (s : State) :
    OutputEnding (appendAll (checkedBytes head pieces tail) s).2 (composeChecked head pieces tail s).2 := by
  obtain ⟨hv, e⟩ | ⟨hv, e⟩ := composeChecked_cases head pieces tail s <;> rw [checkedBytes, hv, e]
  · exact .flushes
  · rw [if_neg Bool.false_ne_true, List.append_nil]; exact failMid_ending _ _

theorem sendStatus_ending (base pin : Byte) (value : Half) (s : State) :
    OutputEnding (appendAll (if statusInRange pin value then statusBytes base pin value else []) s).2
      (sendStatus base pin value s).2 := by
  unfold sendStatus
  split
  · exact .flushes
  · exact .keeps

theorem sendString_ending (str : List Byte) (s : State) :
    OutputEnding (appendAll (if str = [] then [] else stringMessage s.params str) s).2 (sendString str s).2 := by
  unfold sendString
  split
  · exact .keeps
  · exact .flushes

theorem sendCapability_ending (recs : List CapRecord) (s : State) :
    OutputEnding (appendAll (if recs = [] then [] else
        checkedBytes [Config.sysexStart, Config.capabilityResponseId] (capPieces s.params none recs)
          [Config.separator, Config.sysexEnd]) s).2 (sendCapability recs s).2 := by
  unfold sendCapability
  split
  · exact .keeps
  · exact composeChecked_ending _ _ _ s

theorem sendAnalogMapping_ending (map : List Byte) (s : State) :
    OutputEnding (appendAll (if map = [] then [] else
        checkedBytes [Config.sysexStart, Config.mappingResponseId] (mapPieces map) [Config.sysexEnd]) s).2
      (sendAnalogMapping map s).2 := by
  unfold sendAnalogMapping
  split
  · exact .keeps
  · exact composeChecked_ending _ _ _ s

/-- An output operation that completes has appended its bytes, ended, and replied with a Result. -/
def AppendsAndReplies (bytes : List Byte) (s t : State) : Prop :=
  ∃ u r, OutputEnding (appendAll bytes s).2 u ∧ t = u.answer { result := r }

/-- An output operation on an absent reference appends nothing (R161); on a present one, what the operation appends. -/
theorem withContext_appends {ctx : Ref} {f : State → Result × State} {bytes : List Byte}
    (absent : ctx = .absent → bytes = []) (present : ctx = .present → OutputEnding (appendAll bytes s).2 (f s).2)
    (h : withContext ctx s f = .next t) : AppendsAndReplies bytes s t := by
  obtain ⟨hc, rfl⟩ | ⟨hc, rfl⟩ := withContext_next h
  · rw [absent hc]; exact ⟨s, _, .keeps, rfl⟩
  · exact ⟨_, _, present hc, rfl⟩

/-- Everything an output operation or outbound message that completes can have done. -/
theorem exec_output_cases {i : Instr} (hi : isOutput i = true) (h : exec i s = .next t) :
    AppendsAndReplies (appendedBytes s.params i) s t := by
  have message : ∀ {f bytes}, (f s).2 = (emitMessage bytes s).2 → withContext .present s f = .next t →
      AppendsAndReplies bytes s t := fun e => withContext_appends nofun fun _ => e ▸ .flushes
  cases i with
  | append ctx b => exact withContext_appends (by rintro rfl; rfl) (by rintro rfl; exact .keeps) h
  | flush ctx => exact withContext_appends (fun _ => rfl) (fun _ => .flushes) h
  | sendAnalog ctx pin value =>
    exact withContext_appends (by rintro rfl; rfl) (by rintro rfl; exact sendStatus_ending _ pin value s) h
  | sendDigital ctx port value =>
    exact withContext_appends (by rintro rfl; rfl) (by rintro rfl; exact sendStatus_ending _ port value s) h
  | sendString ctx str =>
    exact withContext_appends (by rintro rfl; rfl) (by rintro rfl; exact sendString_ending str s) h
  | sendCapability ctx recs =>
    exact withContext_appends (by rintro rfl; rfl) (by rintro rfl; exact sendCapability_ending recs s) h
  | sendAnalogMapping ctx map =>
    exact withContext_appends (by rintro rfl; rfl) (by rintro rfl; exact sendAnalogMapping_ending map s) h
  | versionReply => exact message (emitReply_state _ s) h
  | stringData chars => exact message (f := fun s => emitMessage (stringMessage s.params chars) s) rfl h
  | analogMessage _ _ | digitalMessage _ _ | capabilityResponse _ | analogMappingResponse _ => exact message rfl h
  | _ => exact absurd hi Bool.false_ne_true

/-! ### The frame of FEED, from any state -/

/-- Taking a byte writes the decoder's part of the Context and nothing else (40_frame_decoder.md R70 to R75). -/
def OnlyDecoderChanges (s t : State) : Prop :=
  ∃ st n k buf, t = s.setCtx { s.ctx with state := st, remainingCount := n, inputCursor := k, inputBuf := buf }

theorem OnlyDecoderChanges.setDecoder (h : OnlyDecoderChanges s t) (st : DecoderState) (n : Remaining) (k : Nat) :
    OnlyDecoderChanges s (t.setCtx (t.ctx.setDecoder st n k)) := by
  obtain ⟨_, _, _, buf, rfl⟩ := h
  exact ⟨st, n, k, buf, rfl⟩

theorem OnlyDecoderChanges.frame (h : OnlyDecoderChanges s t) : FeedFrame s t := by
  obtain ⟨_, _, _, _, rfl⟩ := h
  exact setCtx_feedFrame rfl rfl

theorem inAppend_onlyDecoder {b : Byte} (h : inAppend b s = .ok t) : OnlyDecoderChanges s t := by
  obtain ⟨-, e⟩ | ⟨-, e⟩ := inAppend_cases b s <;> rw [e] at h
  · exact nomatch h
  · obtain rfl := Except.ok.inj h
    exact ⟨_, _, _, _, rfl⟩

theorem feedCmd_onlyDecoder {b : Byte} (h : feedCmd b s = .ok t) : OnlyDecoderChanges s t := by
  unfold feedCmd at h
  split at h
  · exact nomatch h
  · split at h
    · exact nomatch h
    · split at h
      · exact nomatch h
      · obtain rfl := Except.ok.inj h
        exact (inAppend_onlyDecoder ‹_›).setDecoder _ _ _

theorem countBodyByte_onlyDecoder (h : OnlyDecoderChanges s t) : OnlyDecoderChanges s (countBodyByte t) := by
  unfold countBodyByte
  split
  · exact h
  · exact h.setDecoder _ _ _

theorem feedData_onlyDecoder {b : Byte} (h : feedData b s = .ok t) : OnlyDecoderChanges s t := by
  unfold feedData at h
  split at h
  · split at h
    · exact nomatch h
    · obtain rfl := Except.ok.inj h
      exact (inAppend_onlyDecoder ‹_›).setDecoder _ _ _
  · split at h
    · exact nomatch h
    · split at h
      · exact nomatch h
      · obtain rfl := Except.ok.inj h
        exact countBodyByte_onlyDecoder (inAppend_onlyDecoder ‹_›)

theorem takeByte_onlyDecoder {b : Byte} (h : takeByte b s = .ok t) : OnlyDecoderChanges s t := by
  unfold takeByte at h
  split at h
  · exact feedCmd_onlyDecoder h
  · exact feedData_onlyDecoder h
  · obtain rfl := Except.ok.inj h
    exact ⟨_, _, _, _, rfl⟩

theorem completeByte_frame (s : State) : FeedFrame s (completeByte s).2 := by
  unfold completeByte
  split
  · exact (dispatch_frame s).feed.trans (resetDecoder_frame _)
  · exact (CallFrame.refl s).feed

/-- The frame of FEED on any Context, also one that R25 rules out. -/
theorem feed_frame_any (b : Byte) (s : State) : FeedFrame s (feed b s).2 := by
  unfold feed
  split
  · exact resetDecoder_frame s
  · exact (takeByte_onlyDecoder ‹_›).frame.trans (completeByte_frame _)

theorem feedAll_frame : ∀ (bytes : List Byte) (s : State), FeedFrame s (feedAll bytes s).2
  | [], s => (CallFrame.refl s).feed
  | b :: rest, s => by
    unfold feedAll
    split
    · exact (feed_frame_any b s).trans (feedAll_frame rest _)
    · exact feed_frame_any b s

/-- FEED_BULK of one byte is FEED (R78). -/
theorem feedAll_singleton (b : Byte) (s : State) : feedAll [b] s = feed b s := by
  unfold feedAll feedAll
  split
  · exact Prod.ext (Eq.symm ‹_›) rfl
  · rfl

/-! ### Everything an instruction can do -/

/-- Everything an instruction that completes can have done: a reply alone, INIT, ATTACH, ENCODE14, FEED_BULK (of which
FEED is one byte), a delivered frame, or an output operation. -/
inductive ExecCase (i : Instr) (s t : State) : Prop where
  | replies (r : Reply) (eq : t = s.answer r)
  | inits (hi : i = .init .present) (eq : t = (s.setCtx Context.zero).answer { result := .ok })
  | attaches (table : HandlerTable) (hi : i = .attach .present (some table))
      (eq : t = (s.setCtx (s.ctx.setHandlers table)).answer { result := .ok })
  | encodes (buf len : Nat) (offset : Int) (value : Half) (r : Reply)
      (eq : t = (encode14 buf len offset value s).2.answer r)
  | feeds (bytes : List Byte) (r : Reply) (eq : t = (feedAll bytes s).2.answer r)
  | delivers (bytes : List Byte) (eq : t = feedEach bytes s)
  | outputs (bytes : List Byte) (h : AppendsAndReplies bytes s t)

theorem exec_cases {i : Instr} (h : exec i s = .next t) : ExecCase i s t := by
  cases i with
  | init ctx =>
    cases ctx with
    | absent => exact .replies _ (Host.Outcome.next.inj h).symm
    | present => exact .inits rfl (Host.Outcome.next.inj h).symm
  | attach ctx table =>
    cases table with
    | none => exact .replies _ (Host.Outcome.next.inj h).symm
    | some table =>
      obtain ⟨-, e⟩ | ⟨rfl, e⟩ := withContext_next (f := fun s => (.ok, attachTable table s)) h
      · exact .replies _ e
      · exact .attaches table rfl e
  | feed ctx b =>
    obtain ⟨-, e⟩ | ⟨-, e⟩ := withContext_next (f := feed b) h
    · exact .replies _ e
    · exact .feeds [b] _ (by rw [feedAll_singleton]; exact e)
  | feedBulk ctx bytes =>
    obtain ⟨-, e⟩ | ⟨-, e⟩ := withContext_next (f := feedAll bytes) h
    · exact .replies _ e
    · exact .feeds bytes _ e
  | decode14 buf len offset => exact .replies _ (Host.Outcome.next.inj h).symm
  | encode14 buf len offset value => exact .encodes buf len offset value _ (Host.Outcome.next.inj h).symm
  | append _ _ | flush _ | sendAnalog _ _ _ | sendDigital _ _ _ | sendString _ _ | sendCapability _ _
  | sendAnalogMapping _ _ | analogMessage _ _ | digitalMessage _ _ | versionReply | stringData _
  | capabilityResponse _ | analogMappingResponse _ => exact .outputs _ (exec_output_cases rfl h)
  | _ => exact .delivers _ (deliver_next h)

end Sys2Proof.Machine
end

section
/-! SUPPORT. The invariant along instructions and steps, and the statements about it (10_state.md R25, R27). -/

namespace Sys2Proof.Machine

variable {s t : State}

/-! ### The invariant -/

theorem AppendsAndReplies.inv {bytes : List Byte} (h : AppendsAndReplies bytes s t) (hs : s.Inv) : t.Inv := by
  obtain ⟨u, r, ending, rfl⟩ := h
  have fr := (appendAll_frame bytes s).trans ending.frame
  exact (hs.of_output fr (ending.ok (appendAll_ok hs.output))).answer _

theorem initial_inv (p : Params) : (State.initial p).Inv :=
  ⟨usable_of_reset rfl rfl rfl (Nat.zero_le _), rfl, rfl, rfl, rfl, rfl⟩

theorem encode14_inv (hs : s.Inv) (buf len : Nat) (offset : Int) (value : Half) :
    (encode14 buf len offset value s).2.Inv := by
  obtain ⟨-, e⟩ | ⟨-, e⟩ := encode14_cases buf len offset value s <;> rw [e]
  · obtain ⟨hu, hw, hin, how, hoin, hc⟩ := hs
    exact ⟨hu, hw, hin, how, hoin, Memory.wf_memWrite (Memory.wf_memWrite hc _ _) _ _⟩
  · exact hs

/-- Every instruction keeps the invariant. -/
theorem exec_inv {i : Instr} (hs : s.Inv) (h : exec i s = .next t) : t.Inv := by
  cases exec_cases h with
  | replies r eq => rw [eq]; exact hs.answer r
  | inits hi eq =>
    obtain ⟨hu, hw, hin, how, hoin, hc⟩ := initial_inv s.params
    obtain ⟨-, -, -, -, -, caller⟩ := hs
    rw [eq]; exact ⟨hu, hw, hin, how, hoin, caller⟩
  | attaches table hi eq => rw [eq]; exact State.Inv.answer (s := s.setCtx (s.ctx.setHandlers table)) hs _
  | encodes buf len offset value r eq => rw [eq]; exact (encode14_inv hs buf len offset value).answer r
  | feeds bytes r eq => rw [eq]; exact (feedAll_inv hs).answer r
  | delivers bytes eq => rw [eq]; exact feedEach_inv hs
  | outputs bytes ha => exact ha.inv hs

/-- Words that are no instruction keep it too (log 5). -/
theorem runUndecoded_inv {w : InstrWord} (hs : s.Inv) (h : runUndecoded w s = .next t) : t.Inv := by
  cases w with
  | wire bytes => rw [deliver_next h]; exact feedEach_inv hs
  | op code args => exact nomatch h
  | message bytes =>
    exact (withContext_appends (ctx := .present) (f := emitMessage bytes) nofun (fun _ => .flushes) h).inv hs

theorem runWord_inv {w : InstrWord} (hs : s.Inv) (h : runWord w s = .next t) : t.Inv := by
  unfold runWord at h
  split at h
  · exact exec_inv hs h
  · exact runUndecoded_inv hs h

theorem runRequest_inv {r : Request} (hs : s.Inv) (h : runRequest r s = .next t) : t.Inv := by
  cases r with
  | instr w => exact runWord_inv hs h
  | setUserData v => rw [← Host.Outcome.next.inj h]; exact hs
  | storeByte addr b =>
    obtain ⟨hu, hw, hin, how, hoin, hc⟩ := hs
    rw [← Host.Outcome.next.inj h]; exact ⟨hu, hw, hin, how, hoin, Memory.wf_memWrite hc _ _⟩

/-- Settles O3: by the cases of the request and of the instruction, each kept by the law of its operation. -/
theorem everyStepKeepsTheInvariant : Obligations.EveryStepKeepsTheInvariant := by
  intro s t hs h
  unfold step fetch at h
  cases hr : s.requests with
  | nil => rw [hr] at h; rw [← Host.Outcome.next.inj h]; exact hs
  | cons r rest =>
    rw [hr] at h
    exact runRequest_inv (s := s.setRequests rest) hs h

/-- Settles O2: a reset decoder, an empty output side and empty memories (`initial_inv`). -/
theorem resetMeetsTheInvariant : Obligations.ResetMeetsTheInvariant := initial_inv

/-- Settles O1: each field of the table, by the definition of the reset state. -/
theorem resetLeavesEveryContextFieldZero : Obligations.ResetLeavesEveryContextFieldZero :=
  ⟨rfl, fun _ => ⟨rfl, rfl, rfl, rfl, rfl, fun i _ => memRead_nil i, fun i _ => memRead_nil i,
    rfl, rfl, rfl, rfl, rfl, rfl, rfl, rfl, rfl, rfl⟩⟩

/-! ### R25, clause by clause -/

theorem mem_memSlice {m : Memory} {b : Byte} : ∀ {a n : Nat},
    b ∈ memSlice m a n ↔ ∃ k, a ≤ k ∧ k < a + n ∧ memRead m k = b
  | a, 0 => by simp only [memSlice_zero, List.not_mem_nil, false_iff]; rintro ⟨k, _, _, -⟩; omega
  | a, n + 1 => by
    rw [memSlice_succ, List.mem_cons, mem_memSlice]
    constructor
    · rintro (rfl | ⟨k, _, _, hk⟩)
      · exact ⟨a, by omega, by omega, rfl⟩
      · exact ⟨k, by omega, by omega, hk⟩
    · rintro ⟨k, _, _, hk⟩
      by_cases ha : k = a
      · exact .inl (ha ▸ hk.symm)
      · exact .inr ⟨k, by omega, by omega, hk⟩

theorem Pending.unbounded_iff {p : Params} {c : Context} (h : Pending p c) :
    c.remainingCount = .unbounded ↔ memRead c.inputBuf 0 = 0xF0#8 := by
  refine Iff.trans ?_ (bodyLen_unbounded _)
  rcases h.count with ⟨hb, hr⟩ | ⟨hb, hr, -⟩ | ⟨hb, hr, -⟩ | ⟨hb, hr, -⟩ <;> simp [hb, hr]

theorem Pending.remaining_ne_zero {p : Params} {c : Context} (h : Pending p c) : c.remainingCount ≠ .zero := by
  rcases h.count with ⟨-, hr⟩ | ⟨-, hr, -⟩ | ⟨-, hr, -⟩ | ⟨-, hr, -⟩ <;> simp [hr]

theorem Pending.bodyLen_ne_zero {p : Params} {c : Context} (h : Pending p c) :
    ∃ n, bodyLen (memRead c.inputBuf 0) = some n ∧ n ≠ .zero := by
  rcases h.count with ⟨hb, -⟩ | ⟨hb, -⟩ | ⟨hb, -⟩ | ⟨hb, -⟩ <;> exact ⟨_, hb, by decide⟩

/-- What the count of a pending frame says of the frame, as R25 words it: `UNBOUNDED` exactly for 0xF0, else what the
body still lacks. -/
structure CountsWhatIsMissing (c : Context) : Prop where
  unbounded : c.remainingCount = .unbounded ↔ memRead c.inputBuf 0 = 0xF0#8
  ne_zero : c.remainingCount ≠ .zero
  one : c.remainingCount = .one → bodyLen (memRead c.inputBuf 0) = some .two ∧ c.inputCursor + 1 = 3
    ∨ bodyLen (memRead c.inputBuf 0) = some .one ∧ c.inputCursor + 1 = 2
  two : c.remainingCount = .two → bodyLen (memRead c.inputBuf 0) = some .two ∧ c.inputCursor + 2 = 3

theorem Pending.countsWhatIsMissing {p : Params} {c : Context} (h : Pending p c) : CountsWhatIsMissing c := by
  refine ⟨h.unbounded_iff, h.remaining_ne_zero, fun one => ?_, fun two => ?_⟩
  · rcases h.count with ⟨-, hr⟩ | ⟨-, hr, -⟩ | ⟨hb, -, hi⟩ | ⟨hb, -, hi⟩
    · simp [hr] at one
    · simp [hr] at one
    · exact .inl ⟨hb, by rw [hi]⟩
    · exact .inr ⟨hb, by rw [hi]⟩
  · rcases h.count with ⟨-, hr⟩ | ⟨hb, -, hi⟩ | ⟨-, hr, -⟩ | ⟨-, hr, -⟩
    · simp [hr] at two
    · exact ⟨hb, by rw [hi]⟩
    · simp [hr] at two
    · simp [hr] at two

theorem CountsWhatIsMissing.count {c : Context} (h : CountsWhatIsMissing c) :
    (bodyLen (memRead c.inputBuf 0) = some .unbounded ∧ c.remainingCount = .unbounded)
    ∨ (bodyLen (memRead c.inputBuf 0) = some .two ∧ c.remainingCount = .two ∧ c.inputCursor = 1)
    ∨ (bodyLen (memRead c.inputBuf 0) = some .two ∧ c.remainingCount = .one ∧ c.inputCursor = 2)
    ∨ (bodyLen (memRead c.inputBuf 0) = some .one ∧ c.remainingCount = .one ∧ c.inputCursor = 1) := by
  cases hr : c.remainingCount with
  | zero => exact absurd hr h.ne_zero
  | one =>
    obtain ⟨hb, hi⟩ | ⟨hb, hi⟩ := h.one hr
    · exact .inr (.inr (.inl ⟨hb, rfl, by omega⟩))
    · exact .inr (.inr (.inr ⟨hb, rfl, by omega⟩))
  | two =>
    obtain ⟨hb, hi⟩ := h.two hr
    exact .inr (.inl ⟨hb, rfl, by omega⟩)
  | unbounded => exact .inl ⟨(bodyLen_unbounded _).2 (h.unbounded.1 hr), rfl⟩

/-- R25's clause for a pending frame, as it words it. -/
theorem pending_iff {p : Params} {c : Context} : Pending p c ↔
    1 ≤ c.inputCursor ∧ c.inputCursor ≤ p.inCap ∧ (memRead c.inputBuf 0).msb = true
      ∧ (∃ n, bodyLen (memRead c.inputBuf 0) = some n ∧ n ≠ .zero)
      ∧ (∀ i, 1 ≤ i → i < c.inputCursor → (memRead c.inputBuf i).msb = false)
      ∧ (c.remainingCount = .unbounded ↔ memRead c.inputBuf 0 = 0xF0#8)
      ∧ c.remainingCount ≠ .zero
      ∧ (c.remainingCount = .one → bodyLen (memRead c.inputBuf 0) = some .two ∧ c.inputCursor + 1 = 3
          ∨ bodyLen (memRead c.inputBuf 0) = some .one ∧ c.inputCursor + 1 = 2)
      ∧ (c.remainingCount = .two → bodyLen (memRead c.inputBuf 0) = some .two ∧ c.inputCursor + 2 = 3) := by
  constructor
  · intro h
    obtain ⟨unb, nz, one, two⟩ := h.countsWhatIsMissing
    refine ⟨h.one_le, h.le_cap, h.command, h.bodyLen_ne_zero, fun i h1 hi => ?_, unb, nz, one, two⟩
    exact h.body _ (mem_memSlice.2 ⟨i, h1, by omega, rfl⟩)
  · rintro ⟨h1, hcap, hcmd, -, hbody, unb, nz, one, two⟩
    refine ⟨h1, hcap, hcmd, fun b hb => ?_, CountsWhatIsMissing.count ⟨unb, nz, one, two⟩⟩
    obtain ⟨k, _, _, rfl⟩ := mem_memSlice.1 hb
    exact hbody k (by omega) (by omega)

/-- Settles O4: by the state register; a pending frame by `pending_iff`. -/
theorem betweenOperationsIsWhatR25Says : Obligations.BetweenOperationsIsWhatR25Says := by
  intro p c
  rw [← pending_iff]
  cases hs : c.state with
  | cmd => simp [betweenOperations, hs, and_comm]
  | cmdData => simp [betweenOperations, hs, pendingFrame_iff, and_comm]
  | ready => simp [betweenOperations, hs]

/-! ### A Context that R25 rules out -/

/-- How an operation stops on a Context that R25 rules out (log 9). -/
theorem enter_not_usable (h : ¬ s.Usable) (k : State → Host.Outcome State Fault Refusal) :
    enter s k = if s.params.inCap < s.ctx.inputCursor ∨ s.params.outCap < s.ctx.outputCursor then
        .fault .cursorOutsideBuffer
      else if s.ctx.state = .ready then .refused .decoderReady else .refused .uninitialisedContext := by
  rw [enter, if_neg (show ¬ betweenOperations s.params s.ctx = true from h)]

/-- Settles O8: an instruction that uses the Context enters it first; every other one completes. -/
theorem uninitialisedContextStopsEveryOtherOperation :
    Obligations.UninitialisedContextStopsEveryOtherOperation := by
  intro s hs
  refine ⟨fun i hi => ?_, fun i hi => exec_without_context hi s, ⟨_, exec_init s, ?_⟩,
    fun buf len offset => ⟨_, exec_decode14 buf len offset s⟩,
    fun buf len offset value => ⟨_, exec_encode14 buf len offset value s⟩⟩
  · obtain ⟨k, e⟩ := exec_enters hi s
    rw [e, enter_not_usable hs]
    refine ⟨fun outside => if_pos outside, fun inside ready => ?_, fun inside busy => ?_⟩
    · rw [if_neg inside, if_pos ready]
    · rw [if_neg inside, if_neg busy]
  · exact usable_of_reset rfl rfl rfl (Nat.zero_le _)

end Sys2Proof.Machine
end

section
/-! SUPPORT. What instructions leave alone, and that the history only grows: the frames of output operations, of FEED and
of every instruction (10_state.md R10, R11, R15, R18 to R23). -/

namespace Sys2Proof.Machine

variable {s t u : State}

/-! ### The control registers and the history, for every instruction -/

/-- What every instruction but INIT and ATTACH does: the parameters, the handlers and `user_data` stay, and the
history grows at its end. -/
structure RunFrame (s t : State) : Prop where
  params : t.params = s.params
  handlers : t.ctx.handlers = s.ctx.handlers
  userData : t.ctx.userData = s.ctx.userData
  trace : s.trace <+: t.trace
  replies : s.replies <+: t.replies
  handlerReplies : s.handlerReplies <+: t.handlerReplies

theorem RunFrame.trans (h : RunFrame s t) (h' : RunFrame t u) : RunFrame s u :=
  ⟨h'.params.trans h.params, h'.handlers.trans h.handlers, h'.userData.trans h.userData, h.trace.trans h'.trace,
    h.replies.trans h'.replies, h.handlerReplies.trans h'.handlerReplies⟩

theorem RunFrame.answer (h : RunFrame s t) (r : Reply) : RunFrame s (t.answer r) :=
  h.trans ⟨rfl, rfl, rfl, List.prefix_rfl, List.prefix_append _ _, List.prefix_rfl⟩

theorem FeedFrame.run (h : FeedFrame s t) : RunFrame s t := by
  obtain ⟨evs, trace⟩ := h.trace
  obtain ⟨rs, handlerReplies⟩ := h.handlerReplies
  exact ⟨h.params, h.handlers, h.userData, ⟨evs, trace.symm⟩, h.replies ▸ List.prefix_rfl, ⟨rs, handlerReplies.symm⟩⟩

theorem encode14_frame (buf len : Nat) (offset : Int) (value : Half) (s : State) :
    CallFrame s (encode14 buf len offset value s).2 := handlerOp_frame (.encode14 buf len offset value) s

theorem feedEach_frame : ∀ (bytes : List Byte) (s : State), RunFrame s (feedEach bytes s)
  | [], s => (CallFrame.refl s).feed.run
  | b :: rest, s => ((feed_frame_any b s).run.answer _).trans (feedEach_frame rest _)

/-- INIT and ATTACH, the two instructions that write the control registers, write nothing beside the Context but one
reply (R145, R146). -/
inductive WritesControl (i : Instr) (s : State) : Context → Prop where
  | init (hi : i = .init .present) : WritesControl i s Context.zero
  | attach (table : HandlerTable) (hi : i = .attach .present (some table)) : WritesControl i s (s.ctx.setHandlers table)

/-- The frame of every instruction. -/
theorem exec_frame {i : Instr} (h : exec i s = .next t) :
    RunFrame s t ∨ ∃ c, WritesControl i s c ∧ t = (s.setCtx c).answer { result := .ok } := by
  cases exec_cases h with
  | replies r eq => exact .inl (eq ▸ (CallFrame.refl s).feed.run.answer r)
  | inits hi eq => exact .inr ⟨_, .init hi, eq⟩
  | attaches table hi eq => exact .inr ⟨_, .attach table hi, eq⟩
  | encodes buf len offset value r eq =>
    exact .inl (eq ▸ (encode14_frame buf len offset value s).feed.run.answer r)
  | feeds bytes r eq => exact .inl (eq ▸ (feedAll_frame bytes s).run.answer r)
  | delivers bytes eq => exact .inl (eq ▸ feedEach_frame bytes s)
  | outputs bytes ha =>
    obtain ⟨u, r, ending, rfl⟩ := ha
    exact .inl (((appendAll_frame bytes s).trans ending.frame).call.feed.run.answer _)

/-- Settles O44: by the frame of every instruction, INIT and ATTACH apart. -/
theorem onlyAttachAndInitWriteTheControlRegisters : Obligations.OnlyAttachAndInitWriteTheControlRegisters := by
  intro s t i h
  obtain fr | ⟨c, hw, rfl⟩ := exec_frame h
  · exact ⟨fr.params, fun changed => absurd fr.handlers changed, fun changed => absurd fr.userData changed⟩
  · cases hw with
    | init hi => exact ⟨rfl, fun _ => .inl hi, fun _ => hi⟩
    | attach table hi => exact ⟨rfl, fun _ => .inr ⟨table, hi, rfl⟩, fun changed => absurd rfl changed⟩

/-- The outbound stream grows with the trace (R23). -/
theorem delivered_prefix (h : s.trace <+: t.trace) : delivered s <+: delivered t := by
  obtain ⟨evs, e⟩ := h
  exact ⟨(evs.filterMap sinkChunk).flatten, by simp [delivered, chunks, ← e]⟩

/-- Settles O45: the trace, the replies and the handlers' replies by the frame of every instruction, the stream as a
projection of the trace. -/
theorem historyOnlyGrows : Obligations.HistoryOnlyGrows := by
  intro s t i h
  have history : s.trace <+: t.trace ∧ s.replies <+: t.replies ∧ s.handlerReplies <+: t.handlerReplies := by
    obtain fr | ⟨c, -, rfl⟩ := exec_frame h
    · exact ⟨fr.trace, fr.replies, fr.handlerReplies⟩
    · exact ⟨List.prefix_rfl, List.prefix_append _ _, List.prefix_rfl⟩
  obtain ⟨trace, replies, handlerReplies⟩ := history
  obtain ⟨bytes, stream⟩ := delivered_prefix trace
  obtain ⟨evs, trace⟩ := trace
  obtain ⟨rs, replies⟩ := replies
  obtain ⟨hrs, handlerReplies⟩ := handlerReplies
  exact ⟨⟨evs, trace.symm⟩, ⟨rs, replies.symm⟩, ⟨hrs, handlerReplies.symm⟩, bytes, stream.symm⟩

/-! ### Output operations -/

theorem OnlySinkCalls.refl (s : State) : OnlySinkCalls s s := ⟨[], (List.append_nil _).symm, nofun⟩

theorem OnlySinkCalls.trans (h : OnlySinkCalls s t) (fr : OutputFrame s t) (h' : OnlySinkCalls t u) :
    OnlySinkCalls s u := by
  obtain ⟨evs, e, calls⟩ := h
  obtain ⟨evs', e', calls'⟩ := h'
  rw [fr.handlers, fr.userData] at calls'
  exact ⟨evs ++ evs', by rw [e', e, List.append_assoc], fun x hx => (List.mem_append.1 hx).elim (calls x) (calls' x)⟩

theorem flush_onlySinkCalls (s : State) : OnlySinkCalls s (flush s).2 := by
  obtain ⟨-, e⟩ | ⟨callee, hc, -, e⟩ := flush_cases s <;> rw [e]
  · exact .refl s
  · refine ⟨[.sink callee s.ctx.userData (pendingOut s)], rfl, fun x hx => ⟨callee, pendingOut s, hc, ?_⟩⟩
    exact List.mem_singleton.1 hx

theorem append_onlySinkCalls (b : Byte) (s : State) : OnlySinkCalls s (append b s).2 := by
  obtain ⟨-, e⟩ | ⟨-, e⟩ := append_cases b s <;> rw [e]
  · exact .refl s
  · exact flush_onlySinkCalls s

theorem appendAll_onlySinkCalls : ∀ (bytes : List Byte) (s : State), OnlySinkCalls s (appendAll bytes s).2
  | [], s => .refl s
  | b :: rest, s => (append_onlySinkCalls b s).trans (append_frame b s) (appendAll_onlySinkCalls rest _)

theorem OutputEnding.onlySinkCalls (h : OutputEnding u t) : OnlySinkCalls u t := by
  cases h with
  | keeps | drops => exact .refl _
  | flushes => exact flush_onlySinkCalls _

/-- Settles O16: an output operation appends its bytes and ends; each part keeps the frame, calls the sink alone, and
stores round the buffer from the cursor. -/
theorem outputOperationsTouchOnlyTheOutputSide : Obligations.OutputOperationsTouchOnlyTheOutputSide := by
  intro i s t hi hs h
  obtain ⟨u, r, ending, rfl⟩ := exec_output_cases hi h
  have appended := appendAll_frame (appendedBytes s.params i) s
  have fr := appended.trans ending.frame
  have sinks : OnlySinkCalls s u := (appendAll_onlySinkCalls _ s).trans appended ending.onlySinkCalls
  refine ⟨fr.only _, sinks, fun a ha => ?_, r, by rw [Replies, State.answer_replies, fr.replies]⟩
  rw [State.answer_ctx, ending.outputBuf]
  exact appendAll_cells hs.output a ha

/-! ### FEED -/

/-- FEED stores at the cursor, or nowhere (R73). -/
theorem feed_inputBuf (hs : s.Inv) (b : Byte) {a : Nat} (ha : a ≠ s.ctx.inputCursor) :
    memRead (feed b s).2.ctx.inputBuf a = memRead s.ctx.inputBuf a := by
  obtain ⟨hu, hw, -⟩ := hs
  cases feed_cases hu b with
  | aborts e he eq => rw [eq]; rfl
  | pends c eq out st buf cursor room =>
    rw [eq, State.setCtx_ctx, buf, Memory.read_write hw, if_neg ha]
  | completes c eq out st buf cursor room =>
    have dispatched := (dispatch_frame (s.setCtx c)).inputBuf
    rw [eq]
    show memRead (dispatch (s.setCtx c)).2.ctx.inputBuf a = _
    rw [dispatched, State.setCtx_ctx, buf, Memory.read_write hw, if_neg ha]

theorem OutputKept.refl (s : State) : OutputKept s s := ⟨rfl, rfl, rfl, rfl, rfl, rfl⟩

/-- With no script left a handler issues nothing (log 10). -/
theorem runNextScript_nil (h : s.scripts = []) : runNextScript s = s := by rw [runNextScript, h]

theorem callCommand_outputKept (h : s.scripts = []) (slot : CommandSlot) (cmd a : Byte) (b : Half) :
    OutputKept s (callCommand slot cmd a b s) := by
  obtain ⟨-, e⟩ | ⟨callee, -, e⟩ := callCommand_cases slot cmd a b s <;> rw [e]
  · exact .refl s
  · rw [runNextScript_nil (s := s.emit _) h]; exact .refl s

theorem callQuery_outputKept (h : s.scripts = []) (slot : QuerySlot) (cmd id : Byte) :
    OutputKept s (callQuery slot cmd id s) := by
  obtain ⟨-, e⟩ | ⟨callee, -, e⟩ := callQuery_cases slot cmd id s <;> rw [e]
  · exact .refl s
  · rw [runNextScript_nil (s := s.emit _) h]; exact .refl s

/-- DISPATCH of anything but a version query leaves the output side to the handler (R97, R104). -/
theorem dispatch_outputKept (h : s.scripts = []) (h0 : frameByte s 0 ≠ 0xF9#8) : OutputKept s (dispatch s).2 := by
  obtain ⟨e, -, eq⟩ | ⟨slot, cmd, a, b, eq⟩ | ⟨slot, cmd, id, eq⟩ | ⟨hv, -⟩ := dispatch_cases s
  · rw [eq]; exact .refl s
  · rw [eq]; exact callCommand_outputKept h slot cmd a b
  · rw [eq]; exact callQuery_outputKept h slot cmd id
  · exact absurd hv h0

/-- The frame a byte completes is a version query only where that byte is its command byte, in state CMD: a pending frame
has a body (R25), and 0xF9 has none (R53). -/
theorem version_query_from_cmd (hs : s.Inv) {b : Byte}
    (h : memRead (memWrite s.ctx.inputBuf s.ctx.inputCursor b) 0 = 0xF9#8) : s.ctx.state = .cmd ∧ b = 0xF9#8 := by
  obtain ⟨hu, hw, -⟩ := hs
  rw [Memory.read_write hw] at h
  cases st : s.ctx.state with
  | cmd => rw [if_pos (usable_cmd hu st).2.1.symm] at h; exact ⟨rfl, h⟩
  | cmdData =>
    have pend := pendingFrame_iff.1 (usable_cmdData hu st).1
    have one := pend.one_le
    rw [if_neg (by omega)] at h
    obtain ⟨n, hb, hn⟩ := pend.bodyLen_ne_zero
    rw [h, show bodyLen 0xF9#8 = some .zero from rfl] at hb
    exact absurd (Option.some.inj hb).symm hn
  | ready => exact absurd st (usable_not_ready hu)

theorem feed_outputKept (hs : s.Inv) {b : Byte} (hscripts : s.scripts = []) (hv : ¬ (s.ctx.state = .cmd ∧ b = 0xF9#8)) :
    OutputKept s (feed b s).2 := by
  cases feed_cases hs.1 b with
  | aborts e he eq => rw [eq]; exact .refl s
  | pends c eq out st buf cursor room =>
    obtain ⟨outBuf, outCursor, -, -⟩ := out
    rw [eq]; exact ⟨outBuf, outCursor, rfl, rfl, rfl, rfl⟩
  | completes c eq out st buf cursor room =>
    obtain ⟨outBuf, outCursor, -, -⟩ := out
    have notVersion : frameByte (s.setCtx c) 0 ≠ 0xF9#8 := fun h0 => by
      rw [frameByte, State.setCtx_ctx, buf] at h0
      exact hv (version_query_from_cmd hs h0)
    obtain ⟨dBuf, dCursor, rest⟩ := dispatch_outputKept (s := s.setCtx c) hscripts notVersion
    rw [eq]; exact ⟨dBuf.trans outBuf, dCursor.trans outCursor, rest⟩

/-- Settles O30: the frame of FEED, the one cell it stores to, and DISPATCH with a silent handler. -/
theorem feedStoresAtTheCursorAndNowhereElse : Obligations.FeedStoresAtTheCursorAndNowhereElse := by
  intro s t b hs h
  rw [exec_feed hs.1] at h
  obtain rfl := Host.Outcome.next.inj h
  have fr := feed_frame hs.1 b
  refine ⟨⟨fr.params, fr.handlers, fr.userData, fr.requests⟩, ⟨(feed b s).1, ?_⟩, fun a ha => feed_inputBuf hs b ha,
    fun hscripts hv => feed_outputKept hs hscripts hv⟩
  rw [Replies, State.answer_replies, fr.replies]

end Sys2Proof.Machine
end

section
/-! SUPPORT. Noninterference of `user_data` (10_state.md R21): the relation of two states that differ in it alone, kept by
every operation, with equal Results. -/

namespace Sys2Proof.Machine

variable {s s' : State}

/-! ### States that differ in `user_data` alone -/

/-- An event without the copy of `user_data` that the callback was given. -/
def forgetCopy : Event → Event
  | .sink callee _ bytes => .sink callee 0 bytes
  | .handler slot callee _ cmd a b => .handler slot callee 0 cmd a b
  | .query slot callee _ cmd id => .query slot callee 0 cmd id

theorem forgetUserData_eq (s : State) :
    forgetUserData s = { s with ctx := s.ctx.setUserData 0, trace := s.trace.map forgetCopy } := rfl

/-- The states differ in nothing but `user_data` and its copies in the trace. -/
def Alike (s s' : State) : Prop := forgetUserData s = forgetUserData s'

/-- What is read off a state with `user_data` forgotten. -/
theorem Alike.proj {α : Type} (h : Alike s s') (f : State → α) : f (forgetUserData s) = f (forgetUserData s') :=
  congrArg f h

theorem Alike.ctx (h : Alike s s') : s.ctx.setUserData 0 = s'.ctx.setUserData 0 := h.proj State.ctx
theorem Alike.params (h : Alike s s') : s.params = s'.params := h.proj (·.params)
theorem Alike.state (h : Alike s s') : s.ctx.state = s'.ctx.state := h.proj (·.ctx.state)
theorem Alike.remainingCount (h : Alike s s') : s.ctx.remainingCount = s'.ctx.remainingCount := h.proj (·.ctx.remainingCount)
theorem Alike.inputCursor (h : Alike s s') : s.ctx.inputCursor = s'.ctx.inputCursor := h.proj (·.ctx.inputCursor)
theorem Alike.inputBuf (h : Alike s s') : s.ctx.inputBuf = s'.ctx.inputBuf := h.proj (·.ctx.inputBuf)
theorem Alike.outputCursor (h : Alike s s') : s.ctx.outputCursor = s'.ctx.outputCursor := h.proj (·.ctx.outputCursor)
theorem Alike.outputBuf (h : Alike s s') : s.ctx.outputBuf = s'.ctx.outputBuf := h.proj (·.ctx.outputBuf)
theorem Alike.handlers (h : Alike s s') : s.ctx.handlers = s'.ctx.handlers := h.proj (·.ctx.handlers)
theorem Alike.callerMem (h : Alike s s') : s.callerMem = s'.callerMem := h.proj (·.callerMem)
theorem Alike.sinkCalls (h : Alike s s') : s.sinkCalls = s'.sinkCalls := h.proj (·.sinkCalls)
theorem Alike.scripts (h : Alike s s') : s.scripts = s'.scripts := h.proj (·.scripts)
theorem Alike.requests (h : Alike s s') : s.requests = s'.requests := h.proj (·.requests)

/-! ### The named updates keep the relation -/

theorem Alike.setCtx (h : Alike s s') {c c' : Context} (hc : c.setUserData 0 = c'.setUserData 0) :
    Alike (s.setCtx c) (s'.setCtx c') := by
  show (forgetUserData s).setCtx (c.setUserData 0) = (forgetUserData s').setCtx (c'.setUserData 0)
  rw [hc, show forgetUserData s = forgetUserData s' from h]

/-- An update of the Context that does not read `user_data`. -/
theorem Alike.updateCtx (h : Alike s s') (g : Context → Context)
    (hg : ∀ c, (g c).setUserData 0 = g (c.setUserData 0)) : Alike (s.setCtx (g s.ctx)) (s'.setCtx (g s'.ctx)) :=
  h.setCtx (by rw [hg, hg, h.ctx])

theorem Alike.emit (h : Alike s s') {e e' : Event} (he : forgetCopy e = forgetCopy e') :
    Alike (s.emit e) (s'.emit e') := by
  have forget_emit : ∀ (s : State) e, forgetUserData (s.emit e) = (forgetUserData s).emit (forgetCopy e) := by
    intro s e; simp [forgetUserData_eq, State.emit]
  rw [Alike, forget_emit, forget_emit, show forgetUserData s = _ from h, he]

theorem Alike.countSink (h : Alike s s') : Alike s.countSink s'.countSink := h.proj State.countSink
theorem Alike.answer (h : Alike s s') (r : Reply) : Alike (s.answer r) (s'.answer r) := h.proj (State.answer · r)
theorem Alike.answerHandler (h : Alike s s') (r : Reply) : Alike (s.answerHandler r) (s'.answerHandler r) :=
  h.proj (State.answerHandler · r)
theorem Alike.setCallerMem (h : Alike s s') (m : Memory) : Alike (s.setCallerMem m) (s'.setCallerMem m) :=
  h.proj (State.setCallerMem · m)
theorem Alike.setScripts (h : Alike s s') (l : List (List HandlerOp)) : Alike (s.setScripts l) (s'.setScripts l) :=
  h.proj (State.setScripts · l)
theorem Alike.setRequests (h : Alike s s') (l : List Request) : Alike (s.setRequests l) (s'.setRequests l) :=
  h.proj (State.setRequests · l)

theorem Alike.resetDecoder (h : Alike s s') : Alike (resetDecoder s) (resetDecoder s') :=
  h.updateCtx (·.setDecoder .cmd .zero 0) fun _ => rfl

theorem Alike.setOutputCursor (h : Alike s s') (n : Nat) :
    Alike (s.setCtx (s.ctx.setOutputCursor n)) (s'.setCtx (s'.ctx.setOutputCursor n)) :=
  h.updateCtx (·.setOutputCursor n) fun _ => rfl

/-! ### Output operations -/

/-- The same answer, in states that are alike. -/
def PairAlike {α : Type} (x x' : α × State) : Prop := x.1 = x'.1 ∧ Alike x.2 x'.2

/-- An operation on whose answer and effect `user_data` has no influence. -/
def Respects {α : Type} (f : State → α × State) : Prop := ∀ ⦃s s'⦄, Alike s s' → PairAlike (f s) (f s')

theorem flush_respects : Respects flush := fun s s' h => by
  have answer : sinkAnswer s = sinkAnswer s' := by rw [sinkAnswer, sinkAnswer, h.params, h.sinkCalls]
  have pending : pendingOut s = pendingOut s' := by rw [pendingOut, pendingOut, h.outputBuf, h.outputCursor]
  unfold flush
  rw [h.handlers, h.outputCursor]
  cases s'.ctx.handlers.output with
  | none => exact ⟨rfl, h.setOutputCursor 0⟩
  | some callee =>
    dsimp only
    split
    · exact ⟨rfl, h.setOutputCursor 0⟩
    · have sink : forgetCopy (.sink callee s.ctx.userData (pendingOut s))
          = forgetCopy (.sink callee s'.ctx.userData (pendingOut s')) := by rw [pending]; rfl
      exact ⟨answer, (h.emit sink).countSink.setOutputCursor 0⟩

theorem storeOut_alike (b : Byte) (h : Alike s s') : Alike (storeOut b s) (storeOut b s') :=
  h.updateCtx (·.pushOut b) fun _ => rfl

theorem append_respects (b : Byte) : Respects (append b) := fun s s' h => by
  obtain ⟨result, state⟩ := flush_respects h
  unfold append
  rw [h.outputCursor, h.params]
  split
  · exact ⟨result, storeOut_alike b state⟩
  · exact ⟨rfl, storeOut_alike b h⟩

theorem andThen_alike {x x' : Result × State} {f : State → Result × State} (hx : PairAlike x x') (hf : Respects f) :
    PairAlike (andThen x f) (andThen x' f) := by
  obtain ⟨result, state⟩ := hf hx.2
  exact ⟨by rw [andThen, andThen, hx.1, result], state⟩

theorem appendAll_respects : ∀ bytes, Respects (appendAll bytes)
  | [] => fun _ _ h => ⟨rfl, h⟩
  | b :: rest => fun _ _ h => andThen_alike (append_respects b h) (appendAll_respects rest)

theorem emitMessage_respects (bytes : List Byte) : Respects (emitMessage bytes) := fun _ _ h =>
  andThen_alike (appendAll_respects bytes h) flush_respects

theorem emitReply_respects (bytes : List Byte) : Respects (emitReply bytes) := fun _ _ h =>
  flush_respects (appendAll_respects bytes h).2

theorem failMid_respects (e : Result) : Respects (failMid e) := fun s s' h => by
  unfold failMid
  rw [h.params]
  cases s'.params.encFailPolicy with
  | leave => exact ⟨rfl, h⟩
  | flush => exact ⟨rfl, (flush_respects h).2⟩
  | discard => exact ⟨rfl, h.setOutputCursor 0⟩

/-- A composed message went the same way in states that are alike. -/
inductive ComposedAlike : Composed → Composed → Prop where
  | done (r : Result) {s s' : State} (h : Alike s s') : ComposedAlike (.done r s) (.done r s')
  | failed {s s' : State} (h : Alike s s') : ComposedAlike (.failed s) (.failed s')

theorem appendPieces_alike : ∀ (pieces : List (Option (List Byte))) (r : Result) {s s' : State}, Alike s s' →
    ComposedAlike (appendPieces pieces r s) (appendPieces pieces r s')
  | [], r, _, _, h => .done r h
  | none :: _, _, _, _, h => .failed h
  | some bytes :: rest, r, s, s', h => by
    obtain ⟨result, state⟩ := appendAll_respects bytes h
    rw [appendPieces, appendPieces, result]
    exact appendPieces_alike rest _ state

theorem composeChecked_respects (head : List Byte) (pieces : List (Option (List Byte))) (tail : List Byte) :
    Respects (composeChecked head pieces tail) := fun s s' h => by
  obtain ⟨result, state⟩ := appendAll_respects head h
  unfold composeChecked
  rw [result]
  have composed := appendPieces_alike pieces (appendAll head s').1 state
  generalize appendPieces pieces _ (appendAll head s).2 = x, appendPieces pieces _ (appendAll head s').2 = x'
    at composed ⊢
  cases composed with
  | done r h => exact andThen_alike ⟨rfl, h⟩ (emitMessage_respects tail)
  | failed h => exact failMid_respects _ h

theorem sendStatus_respects (base pin : Byte) (value : Half) : Respects (sendStatus base pin value) := fun s s' h => by
  unfold sendStatus
  split
  · exact emitMessage_respects _ h
  · exact ⟨rfl, h⟩

theorem sendString_respects (str : List Byte) : Respects (sendString str) := fun s s' h => by
  unfold sendString
  rw [h.params]
  split
  · exact ⟨rfl, h⟩
  · exact emitMessage_respects _ h

theorem sendCapability_respects (recs : List CapRecord) : Respects (sendCapability recs) := fun s s' h => by
  unfold sendCapability
  rw [h.params]
  split
  · exact ⟨rfl, h⟩
  · exact composeChecked_respects _ _ _ h

theorem sendAnalogMapping_respects (map : List Byte) : Respects (sendAnalogMapping map) := fun s s' h => by
  unfold sendAnalogMapping
  split
  · exact ⟨rfl, h⟩
  · exact composeChecked_respects _ _ _ h

/-! ### Handlers and the dispatcher -/

theorem decode14_alike (h : Alike s s') (buf len : Nat) (offset : Int) :
    decode14 buf len offset s = decode14 buf len offset s' := by rw [decode14, decode14, h.callerMem]

theorem encode14_respects (buf len : Nat) (offset : Int) (value : Half) : Respects (encode14 buf len offset value) :=
  fun s s' h => by
    unfold encode14
    rw [h.callerMem]
    cases encodePair s'.callerMem buf len offset value with
    | none => exact ⟨rfl, h⟩
    | some m => exact ⟨rfl, h.setCallerMem m⟩

theorem asReply_alike {x x' : Result × State} (h : PairAlike x x') : PairAlike (asReply x) (asReply x') :=
  ⟨by rw [asReply, asReply, h.1], h.2⟩

theorem handlerOp_respects (op : HandlerOp) : Respects (handlerOp op) := fun s s' h => by
  cases op with
  | append b => exact asReply_alike (append_respects b h)
  | flush => exact asReply_alike (flush_respects h)
  | sendAnalog pin value => exact asReply_alike (sendStatus_respects _ pin value h)
  | sendDigital port value => exact asReply_alike (sendStatus_respects _ port value h)
  | sendString str => exact asReply_alike (sendString_respects str h)
  | sendCapability recs => exact asReply_alike (sendCapability_respects recs h)
  | sendAnalogMapping map => exact asReply_alike (sendAnalogMapping_respects map h)
  | decode14 buf len offset => exact ⟨decode14_alike h buf len offset, h⟩
  | encode14 buf len offset value => exact asReply_alike (encode14_respects buf len offset value h)

theorem runHandlerOp_alike (op : HandlerOp) (h : Alike s s') : Alike (runHandlerOp op s) (runHandlerOp op s') := by
  obtain ⟨reply, state⟩ := handlerOp_respects op h
  rw [runHandlerOp, runHandlerOp, reply]
  exact state.answerHandler _

theorem runScript_alike : ∀ (script : List HandlerOp) {s s' : State}, Alike s s' →
    Alike (runScript script s) (runScript script s')
  | [], _, _, h => h
  | op :: rest, _, _, h => runScript_alike rest (runHandlerOp_alike op h)

theorem runNextScript_alike (h : Alike s s') : Alike (runNextScript s) (runNextScript s') := by
  unfold runNextScript
  rw [h.scripts]
  cases s'.scripts with
  | nil => exact h
  | cons script rest => exact runScript_alike script (h.setScripts rest)

theorem callCommand_alike (slot : CommandSlot) (cmd a : Byte) (b : Half) (h : Alike s s') :
    Alike (callCommand slot cmd a b s) (callCommand slot cmd a b s') := by
  unfold callCommand
  rw [h.handlers]
  cases commandCallback s'.ctx.handlers slot with
  | none => exact h
  | some callee => exact runNextScript_alike (h.emit rfl)

theorem callQuery_alike (slot : QuerySlot) (cmd id : Byte) (h : Alike s s') :
    Alike (callQuery slot cmd id s) (callQuery slot cmd id s') := by
  unfold callQuery
  rw [h.handlers]
  cases queryCallback s'.ctx.handlers slot with
  | none => exact h
  | some callee => exact runNextScript_alike (h.emit rfl)

theorem Alike.frameByte (h : Alike s s') (k : Nat) : frameByte s k = frameByte s' k := by
  unfold Machine.frameByte; rw [h.inputBuf]

theorem doValueIo_respects (slot : CommandSlot) : Respects (doValueIo slot) := fun s s' h => by
  unfold doValueIo
  rw [h.inputBuf, h.inputCursor, h.frameByte]
  cases decodePair s'.ctx.inputBuf 0 s'.ctx.inputCursor 1 with
  | none => exact ⟨rfl, h⟩
  | some v => exact ⟨rfl, callCommand_alike slot _ _ v h⟩

theorem doSysex_respects : Respects doSysex := fun s s' h => by
  unfold doSysex doAnalogMappingQuery doCapabilityQuery
  rw [h.frameByte, h.params, h.inputCursor]
  split
  · split
    · exact ⟨rfl, callQuery_alike _ _ _ h⟩
    · exact ⟨rfl, h⟩
  split
  · split
    · exact ⟨rfl, callQuery_alike _ _ _ h⟩
    · exact ⟨rfl, h⟩
  · exact ⟨rfl, h⟩

theorem dispatch_respects : Respects dispatch := fun s s' h => by
  have byte := h.frameByte
  rw [dispatch.eq_1 s, dispatch.eq_1 s', byte]
  split
  · exact doValueIo_respects .analogIO h
  split
  · exact doValueIo_respects .digitalIO h
  split
  · rw [doReportAnalog, doReportAnalog, byte, byte]; exact ⟨rfl, callCommand_alike _ _ _ _ h⟩
  split
  · rw [doReportDigital, doReportDigital, byte, byte]; exact ⟨rfl, callCommand_alike _ _ _ _ h⟩
  split
  · rw [doSetPinMode, doSetPinMode, byte, byte, byte]; exact ⟨rfl, callCommand_alike _ _ _ _ h⟩
  split
  · rw [doSetPinValue, doSetPinValue, byte, byte, byte]; exact ⟨rfl, callCommand_alike _ _ _ _ h⟩
  split
  · exact emitReply_respects _ h
  split
  · exact doSysex_respects h
  · exact ⟨rfl, h⟩

/-! ### The decoder -/

/-- A byte was taken alike: the same error, or states that are alike. -/
inductive TakenAlike : Except Result State → Except Result State → Prop where
  | error (e : Result) : TakenAlike (.error e) (.error e)
  | ok {s s' : State} (h : Alike s s') : TakenAlike (.ok s) (.ok s')

theorem inAppend_alike (b : Byte) (h : Alike s s') : TakenAlike (inAppend b s) (inAppend b s') := by
  unfold inAppend
  rw [h.inputCursor, h.params]
  split
  · exact .error _
  · exact .ok (h.updateCtx (·.pushIn b) fun _ => rfl)

theorem Alike.setDecoder (h : Alike s s') (st : DecoderState) (n : Remaining) (k : Nat) :
    Alike (s.setCtx (s.ctx.setDecoder st n k)) (s'.setCtx (s'.ctx.setDecoder st n k)) :=
  h.updateCtx (·.setDecoder st n k) fun _ => rfl

theorem feedCmd_alike (b : Byte) (h : Alike s s') : TakenAlike (feedCmd b s) (feedCmd b s') := by
  have taken := inAppend_alike b h
  unfold feedCmd
  generalize inAppend b s = x, inAppend b s' = x' at taken ⊢
  split
  · exact .error _
  · cases bodyLen b with
    | none => exact .error _
    | some n =>
      cases taken with
      | error e => exact .error e
      | ok h => dsimp only; rw [h.inputCursor]; exact .ok (h.setDecoder _ n _)

theorem countBodyByte_alike (h : Alike s s') : Alike (countBodyByte s) (countBodyByte s') := by
  unfold countBodyByte
  rw [h.remainingCount, h.state, h.inputCursor]
  split
  · exact h
  · exact h.setDecoder _ _ _

theorem feedData_alike (b : Byte) (h : Alike s s') : TakenAlike (feedData b s) (feedData b s') := by
  have taken := inAppend_alike b h
  unfold feedData
  rw [h.frameByte]
  generalize inAppend b s = x, inAppend b s' = x' at taken ⊢
  split
  · cases taken with
    | error e => exact .error e
    | ok h => dsimp only; rw [h.remainingCount, h.inputCursor]; exact .ok (h.setDecoder _ _ _)
  split
  · exact .error _
  · cases taken with
    | error e => exact .error e
    | ok h => exact .ok (countBodyByte_alike h)

theorem takeByte_alike (b : Byte) (h : Alike s s') : TakenAlike (takeByte b s) (takeByte b s') := by
  unfold takeByte
  rw [h.state]
  cases s'.ctx.state with
  | cmd => exact feedCmd_alike b h
  | cmdData => exact feedData_alike b h
  | ready => exact .ok h

theorem completeByte_respects : Respects completeByte := fun s s' h => by
  obtain ⟨result, state⟩ := dispatch_respects h
  unfold completeByte
  rw [h.state]
  split
  · exact ⟨result, state.resetDecoder⟩
  · exact ⟨rfl, h⟩

theorem feed_respects (b : Byte) : Respects (feed b) := fun s s' h => by
  have taken := takeByte_alike b h
  unfold feed
  generalize takeByte b s = x, takeByte b s' = x' at taken ⊢
  cases taken with
  | error e => exact ⟨rfl, h.resetDecoder⟩
  | ok h => exact completeByte_respects h

theorem feedAll_respects : ∀ bytes, Respects (feedAll bytes)
  | [] => fun _ _ h => ⟨rfl, h⟩
  | b :: rest => fun s s' h => by
    have fed := feed_respects b h
    unfold feedAll
    rw [fed.1]
    split
    · exact feedAll_respects rest fed.2
    · exact fed

theorem feedEach_alike : ∀ (bytes : List Byte) {s s' : State}, Alike s s' →
    Alike (feedEach bytes s) (feedEach bytes s')
  | [], _, _, h => h
  | b :: rest, s, s', h => by
    obtain ⟨result, state⟩ := feed_respects b h
    rw [feedEach, feedEach, result]
    exact feedEach_alike rest (state.answer _)

/-! ### Instructions and steps -/

/-- The same outcome, in states that are alike where there is a next one. -/
inductive OutcomeAlike :
    Host.Outcome State Fault Refusal → Host.Outcome State Fault Refusal → Prop where
  | next {s s' : State} (h : Alike s s') : OutcomeAlike (.next s) (.next s')
  | fault (r : Fault) : OutcomeAlike (.fault r) (.fault r)
  | refused (r : Refusal) : OutcomeAlike (.refused r) (.refused r)

theorem betweenOperations_alike (h : Alike s s') :
    betweenOperations s.params s.ctx = betweenOperations s'.params s'.ctx := by
  show betweenOperations s.params (s.ctx.setUserData 0) = betweenOperations s'.params (s'.ctx.setUserData 0)
  rw [h.params, h.ctx]

theorem enter_alike {k : State → Host.Outcome State Fault Refusal}
    (hk : ∀ ⦃s s'⦄, Alike s s' → OutcomeAlike (k s) (k s')) (h : Alike s s') :
    OutcomeAlike (enter s k) (enter s' k) := by
  unfold enter
  rw [betweenOperations_alike h, h.params, h.inputCursor, h.outputCursor, h.state]
  split
  · exact .fault _
  split
  · exact .refused _
  split
  · exact hk h
  · exact .refused _

theorem withContext_alike (ctx : Ref) {f : State → Result × State} (hf : Respects f) (h : Alike s s') :
    OutcomeAlike (withContext ctx s f) (withContext ctx s' f) := by
  cases ctx with
  | absent => exact .next (h.answer _)
  | present =>
    refine enter_alike (k := fun s => finishWith (f s)) (fun s s' h => ?_) h
    obtain ⟨result, state⟩ := hf h
    rw [finishWith, finishWith, result]
    exact .next (state.answer _)

theorem deliver_alike (bytes : List Byte) (h : Alike s s') : OutcomeAlike (deliver bytes s) (deliver bytes s') :=
  enter_alike (k := fun s => .next (feedEach bytes s)) (fun _ _ h => .next (feedEach_alike bytes h)) h

theorem attachTable_respects (table : HandlerTable) : Respects fun s => (Result.ok, attachTable table s) :=
  fun _ _ h => ⟨rfl, h.updateCtx (·.setHandlers table) fun _ => rfl⟩

theorem exec_alike (i : Instr) (h : Alike s s') : OutcomeAlike (exec i s) (exec i s') := by
  cases i with
  | init ctx =>
    cases ctx with
    | absent => exact .next (h.answer _)
    | present => exact .next (.answer (h.setCtx rfl) _)
  | attach ctx table =>
    cases table with
    | none => exact .next (h.answer _)
    | some table => exact withContext_alike ctx (attachTable_respects table) h
  | feed ctx b => exact withContext_alike ctx (feed_respects b) h
  | feedBulk ctx bytes => exact withContext_alike ctx (feedAll_respects bytes) h
  | decode14 buf len offset =>
    rw [exec_decode14, exec_decode14, decode14_alike h]
    exact .next (h.answer _)
  | encode14 buf len offset value =>
    obtain ⟨result, state⟩ := encode14_respects buf len offset value h
    rw [exec_encode14, exec_encode14, result]
    exact .next (state.answer _)
  | append ctx b => exact withContext_alike ctx (append_respects b) h
  | flush ctx => exact withContext_alike ctx flush_respects h
  | sendAnalog ctx pin value => exact withContext_alike ctx (sendStatus_respects _ pin value) h
  | sendDigital ctx port value => exact withContext_alike ctx (sendStatus_respects _ port value) h
  | sendString ctx str => exact withContext_alike ctx (sendString_respects str) h
  | sendCapability ctx recs => exact withContext_alike ctx (sendCapability_respects recs) h
  | sendAnalogMapping ctx map => exact withContext_alike ctx (sendAnalogMapping_respects map) h
  | versionReply => exact withContext_alike .present (emitReply_respects _) h
  | stringData chars =>
    refine withContext_alike .present (f := fun s => emitMessage (stringMessage s.params chars) s) (fun s s' h => ?_) h
    dsimp only
    rw [h.params]
    exact emitMessage_respects _ h
  | analogMessage _ _ | digitalMessage _ _ | capabilityResponse _ | analogMappingResponse _ =>
    exact withContext_alike .present (emitMessage_respects _) h
  | analogMappingQuery =>
    show OutcomeAlike (deliver _ s) (deliver _ s')
    rw [h.params]
    exact deliver_alike _ h
  | _ => exact deliver_alike _ h

theorem runUndecoded_alike (w : InstrWord) (h : Alike s s') : OutcomeAlike (runUndecoded w s) (runUndecoded w s') := by
  cases w with
  | wire bytes => exact deliver_alike bytes h
  | op code args => exact .refused _
  | message bytes => exact withContext_alike .present (emitMessage_respects bytes) h

theorem runWord_alike (w : InstrWord) (h : Alike s s') : OutcomeAlike (runWord w s) (runWord w s') := by
  unfold runWord
  rw [h.params]
  cases decode s'.params w with
  | ok i => exact exec_alike i h
  | error e => exact runUndecoded_alike w h

theorem runRequest_alike (r : Request) (h : Alike s s') : OutcomeAlike (runRequest r s) (runRequest r s') := by
  cases r with
  | instr w => exact runWord_alike w h
  | setUserData v => exact .next (h.setCtx h.ctx)
  | storeByte addr b =>
    show OutcomeAlike (.next (callerStores addr b s)) (.next (callerStores addr b s'))
    rw [callerStores, callerStores, h.callerMem]
    exact .next (h.setCallerMem _)

theorem step_alike (h : Alike s s') : OutcomeAlike (step s) (step s') := by
  unfold step fetch
  rw [h.requests]
  cases s'.requests with
  | nil => exact .next h
  | cons r rest => exact runRequest_alike r (h.setRequests rest)

/-- Outcomes that are alike, as the obligation words it. -/
theorem OutcomeAlike.stays {o o' : Host.Outcome State Fault Refusal} (h : OutcomeAlike o o') :
    (∀ t, o = .next t → ∃ t', o' = .next t' ∧ forgetUserData t = forgetUserData t')
      ∧ (∀ r, o = .fault r → o' = .fault r) ∧ ∀ r, o = .refused r → o' = .refused r := by
  cases h with
  | next h =>
    refine ⟨fun t e => ⟨_, rfl, ?_⟩, fun _ e => (nomatch e), fun _ e => (nomatch e)⟩
    rw [← Host.Outcome.next.inj e]; exact h
  | fault r => exact ⟨fun _ e => (nomatch e), fun _ e => e, fun _ e => (nomatch e)⟩
  | refused r => exact ⟨fun _ e => (nomatch e), fun _ e => (nomatch e), fun _ e => e⟩

/-- Settles O46: the relation is kept by every operation, so by every instruction and every step. -/
theorem userDataInfluencesNothing : Obligations.UserDataInfluencesNothing := by
  intro s s' same
  have h : Alike s s' := same
  exact ⟨fun i => (exec_alike i h).stays, (step_alike h).stays⟩

end Sys2Proof.Machine
end

section
/-! SUPPORT. The decoder and the encoder beside each other (30_encoding.md R50 to R62): the fields of a byte, what each
sub-decoder reads, and the statements that encode and decode agree. -/

namespace Sys2Proof

open Machine (bodyLen_isCommand bodyLen_unbounded bodyLen_sysexStart)

/-! ### Nibbles and payloads (R50, R52, R56) -/

@[simp] theorem isCommand_dataByte : ∀ d : Data7, isCommand (dataByte d) = false := by decide

theorem dataByte_payload7 : ∀ b : Byte, isCommand b = false → dataByte (payload7 b) = b := by decide

theorem payload7_dataByte : ∀ d : Data7, payload7 (dataByte d) = d := by decide

@[simp] theorem dataOf?_dataByte (d : Data7) : dataOf? (dataByte d) = some d := by
  rw [dataOf?, isCommand_dataByte, if_neg Bool.false_ne_true, payload7_dataByte]

/-- Exactly the data byte of a payload has that payload. -/
theorem dataOf?_eq_some {b : Byte} {d : Data7} : dataOf? b = some d ↔ b = dataByte d := by
  refine ⟨fun h => ?_, fun h => h ▸ dataOf?_dataByte d⟩
  unfold dataOf? at h
  split at h
  · exact nomatch h
  · rw [← Option.some.inj h]; exact (dataByte_payload7 b (Bool.eq_false_iff.2 ‹_›)).symm

theorem hiNibble_nibbleCommand (base : Byte) (n : Nibble) : hiNibble (nibbleCommand base n) = hiNibble base := by
  ext i hi
  simp [hiNibble, nibbleCommand]

theorem loNibble_nibbleCommand {base : Byte} (h : loNibble base = 0#4) (n : Nibble) :
    loNibble (nibbleCommand base n) = n := by
  ext i hi
  have zero : base.getLsbD i = false := by
    simpa [loNibble, hi] using congrArg (·.getLsbD i) h
  have inByte : i < 8 := by omega
  rw [BitVec.getLsbD_eq_getElem inByte] at zero
  simp [loNibble, nibbleCommand, zero, inByte, BitVec.getLsbD_eq_getElem hi]

/-- A byte is its two nibbles. -/
theorem nibbleCommand_loNibble {base c : Byte} (h : hiNibble c ++ 0#4 = base) :
    nibbleCommand base (loNibble c) = c := by
  subst h; revert c; decide

/-- The bits of the mask of R56. -/
theorem getElem_mask7 : ∀ i, (h : i < 8) → (0x7F#8)[i] = decide (i < 7) := by decide

theorem low7_value (v : Value14) : low7 (v.setWidth 16) = dataByte (v.extractLsb' 0 7) := by
  ext i hi
  simp [low7, dataByte, getElem_mask7 i hi, Bool.and_comm]

theorem high7_value (v : Value14) : high7 (v.setWidth 16) = dataByte (v.extractLsb' 7 7) := by
  ext i hi
  simp [high7, dataByte, getElem_mask7 i hi, Bool.and_comm, show 7 + i < 16 by omega]

/-- Both value bytes are data bytes, the least significant seven bits first (R56). -/
theorem valueFrame_eq (base : Byte) (n : Nibble) (v : Value14) :
    valueFrame base n v = [nibbleCommand base n, dataByte (v.extractLsb' 0 7), dataByte (v.extractLsb' 7 7)] := by
  rw [valueFrame, low7_value, high7_value]

/-- The value that a pair of payloads carries (R56). -/
def pairValue (x y : Data7) : Value14 := (joinPair (dataByte x) (dataByte y)).setWidth 14

theorem pairValue_extract (v : Value14) : pairValue (v.extractLsb' 0 7) (v.extractLsb' 7 7) = v := by
  ext i hi
  by_cases h : i < 7
  · simp [pairValue, joinPair, dataByte, h, BitVec.getLsbD_eq_getElem hi]
  · simp [pairValue, joinPair, dataByte, h, show i - 7 < 7 by omega, show 7 + (i - 7) = i by omega,
      BitVec.getLsbD_eq_getElem hi]

theorem extract_pairValue (x y : Data7) :
    (pairValue x y).extractLsb' 0 7 = x ∧ (pairValue x y).extractLsb' 7 7 = y := by
  constructor <;> ext i hi
  · simp [pairValue, joinPair, dataByte, hi, show i < 14 by omega]
  · simp [pairValue, joinPair, dataByte, show 7 + i < 14 by omega, BitVec.getLsbD_eq_getElem hi]

/-- The frame of a value is its command byte and the two payloads the value is made of (R52, R56). -/
theorem valueFrame_nibbles {base c : Byte} (h : hiNibble c ++ 0#4 = base) (x y : Data7) :
    valueFrame base (loNibble c) (pairValue x y) = [c, dataByte x, dataByte y] := by
  obtain ⟨low, high⟩ := extract_pairValue x y
  rw [valueFrame_eq, low, high, nibbleCommand_loNibble h]

/-! ### The sub-decoders: each reads exactly the bytes of what it answers -/

theorem untilTerminator_terminated (body : List Data7) :
    untilTerminator (body.map dataByte ++ [Config.sysexEnd]) = .ok body := by
  induction body with
  | nil => rfl
  | cons d rest ih => simp [untilTerminator, ih]

theorem eq_of_untilTerminator : ∀ {bytes : List Byte} {body : List Data7},
    untilTerminator bytes = .ok body → bytes = body.map dataByte ++ [Config.sysexEnd]
  | [], _, h => nomatch h
  | b :: rest, body, h => by
    unfold untilTerminator at h
    split at h
    · rename_i d hd
      split at h
      · rename_i tail ht
        obtain rfl := Except.ok.inj h
        rw [dataOf?_eq_some.1 hd, eq_of_untilTerminator ht]; rfl
      · exact nomatch h
    · split at h
      · split at h
        · rw [← Except.ok.inj h, ‹b = Config.sysexEnd›]; rfl
        · exact nomatch h
      · exact nomatch h

theorem pairChar?_charPair : ∀ c : Byte, pairChar? (c &&& 0x7F#8) ((c >>> 7) &&& 0x7F#8) = some c := by decide

/-- A character read from a pair is widened to that pair (R133). -/
theorem charPair_join : ∀ l : Byte, isCommand l = false →
    charPair ((0#8 <<< 7) ||| l) = [l, 0#8] ∧ charPair ((1#8 <<< 7) ||| l) = [l, 1#8] := by decide

theorem le_one_iff : ∀ h : Byte, h ≤ 1#8 ↔ h = 0#8 ∨ h = 1#8 := by decide

theorem charPair_of_pairChar? {l h c : Byte} (e : pairChar? l h = some c) : charPair c = [l, h] := by
  unfold pairChar? at e
  split at e
  · rename_i ok
    obtain ⟨zero, one⟩ := charPair_join l ok.1
    rw [← Option.some.inj e]
    rcases (le_one_iff h).1 ok.2 with rfl | rfl
    · exact zero
    · exact one
  · exact nomatch e

theorem decodeChars_terminated (chars : List Byte) :
    decodeChars (chars.flatMap charPair ++ [Config.sysexEnd]) = .ok chars := by
  induction chars with
  | nil => rfl
  | cons c rest ih =>
    simp only [List.flatMap_cons, charPair, List.cons_append, List.nil_append, decodeChars, pairChar?_charPair]
    rw [ih]

theorem eq_of_decodeChars : ∀ {bytes chars : List Byte},
    decodeChars bytes = .ok chars → bytes = chars.flatMap charPair ++ [Config.sysexEnd]
  | [], _, h => nomatch h
  | [b], chars, h => by
    unfold decodeChars at h
    split at h
    · rw [← Except.ok.inj h, ‹b = Config.sysexEnd›]; rfl
    · exact nomatch h
  | l :: g :: rest, chars, h => by
    unfold decodeChars at h
    split at h
    · rename_i c hc
      split at h
      · rename_i cs hcs
        obtain rfl := Except.ok.inj h
        rw [eq_of_decodeChars hcs, List.flatMap_cons, charPair_of_pairChar? hc]; rfl
      · exact nomatch h
    · exact nomatch h

theorem entryOf?_entryByte : ∀ e : Option Nibble, entryOf? (entryByte e) = some e
  | none => by decide
  | some channel => by revert channel; decide

theorem entryByte_loNibble : ∀ b : Byte, b ≤ Config.maxPin → entryByte (some (loNibble b)) = b := by decide

theorem entryByte_of_entryOf? : ∀ (b : Byte) (e : Option Nibble), entryOf? b = some e → b = entryByte e := by
  intro b e h
  unfold entryOf? at h
  split at h
  · rw [← Option.some.inj h]; assumption
  · split at h
    · rw [← Option.some.inj h]; exact (entryByte_loNibble b ‹_›).symm
    · exact nomatch h

theorem decodeEntries_terminated (entries : List (Option Nibble)) :
    decodeEntries (entries.map entryByte ++ [Config.sysexEnd]) = .ok entries := by
  induction entries with
  | nil => rfl
  | cons e rest ih => simp [decodeEntries, entryOf?_entryByte, ih]

theorem eq_of_decodeEntries : ∀ {bytes : List Byte} {entries : List (Option Nibble)},
    decodeEntries bytes = .ok entries → bytes = entries.map entryByte ++ [Config.sysexEnd]
  | [], _, h => nomatch h
  | b :: rest, entries, h => by
    unfold decodeEntries at h
    split at h
    · rename_i e he
      split at h
      · rename_i es hes
        obtain rfl := Except.ok.inj h
        rw [entryByte_of_entryOf? b e he, eq_of_decodeEntries hes]; rfl
      · exact nomatch h
    · split at h
      · rename_i last
        rw [← Except.ok.inj h, last.1, last.2]; rfl
      · exact nomatch h

/-- A pair as its two data bytes (R60). -/
def pairBytes (pair : CapPair) : List Byte := [dataByte pair.1, dataByte pair.2]

theorem groupBytes_eq (group : List CapPair) : groupBytes group = group.flatMap pairBytes ++ [Config.separator] := rfl

/-- Only the mode 0x7F is the separator's byte (log 21). -/
theorem dataByte_eq_separator : ∀ m : Data7, dataByte m = Config.separator ↔ m = 0x7F#7 := by decide

/-- After a group's first pair, pairs without the mode 0x7F are read up to the separator (log 21). -/
theorem decodeGroups_later {tail : List Byte} {gs : List (List CapPair)} (ht : decodeGroups [] tail = .ok gs) :
    ∀ (later cur : List CapPair), cur ≠ [] → (later.all fun pair => pair.1 != 0x7F#7) = true →
      decodeGroups cur (later.flatMap pairBytes ++ Config.separator :: tail) = .ok ((cur ++ later) :: gs)
  | [], cur, hc, _ => by
    match tail, ht with
    | b :: rest, ht =>
      show decodeGroups cur (Config.separator :: b :: rest) = _
      rw [decodeGroups, if_pos ⟨rfl, hc⟩, ht, List.append_nil]
  | (m, r) :: later, cur, hc, hl => by
    rw [List.all_cons, Bool.and_eq_true, bne_iff_ne] at hl
    have mode : ¬ (dataByte m = Config.separator ∧ cur ≠ []) := fun h => hl.1 ((dataByte_eq_separator m).1 h.1)
    show decodeGroups cur (dataByte m :: dataByte r :: (later.flatMap pairBytes ++ Config.separator :: tail)) = _
    rw [decodeGroups, if_neg mode, dataOf?_dataByte, dataOf?_dataByte]
    simpa using decodeGroups_later ht later (cur ++ [(m, r)]) (by simp) hl.2

theorem decodeGroups_terminated : ∀ groups : List (List CapPair), groups.all groupWellFormed = true →
    decodeGroups [] (groups.flatMap groupBytes ++ [Config.sysexEnd]) = .ok groups
  | [], _ => rfl
  | [] :: _, h => nomatch h
  | ((m, r) :: later) :: groups, h => by
    rw [List.all_cons, Bool.and_eq_true] at h
    have first : ¬ (dataByte m = Config.separator ∧ ([] : List CapPair) ≠ []) := fun h => h.2 rfl
    rw [List.flatMap_cons, groupBytes_eq, List.append_assoc, List.append_assoc]
    show decodeGroups [] (dataByte m :: dataByte r :: (later.flatMap pairBytes
      ++ Config.separator :: (groups.flatMap groupBytes ++ [Config.sysexEnd]))) = _
    rw [decodeGroups, if_neg first, dataOf?_dataByte, dataOf?_dataByte]
    exact decodeGroups_later (decodeGroups_terminated groups h.2) later [(m, r)] (by simp) h.1

/-- Adding a pair to the group being read: any pair begins one, and one without the mode 0x7F goes on with it. -/
theorem groupWellFormed_snoc {cur : List CapPair} (hc : cur = [] ∨ groupWellFormed cur = true) {m r : Data7}
    (hm : ¬ (dataByte m = Config.separator ∧ cur ≠ [])) : groupWellFormed (cur ++ [(m, r)]) = true := by
  cases cur with
  | nil => rfl
  | cons first later =>
    have mode : m ≠ 0x7F#7 := fun h => hm ⟨(dataByte_eq_separator m).2 h, by simp⟩
    have old : (later.all fun pair => pair.1 != 0x7F#7) = true := hc.resolve_left (by simp)
    show ((later ++ [(m, r)]).all fun pair => pair.1 != 0x7F#7) = true
    rw [List.all_append, old]
    simpa using mode

theorem eq_of_decodeGroups : ∀ {cur : List CapPair} {bytes : List Byte} {groups : List (List CapPair)},
    cur = [] ∨ groupWellFormed cur = true → decodeGroups cur bytes = .ok groups →
    cur.flatMap pairBytes ++ bytes = groups.flatMap groupBytes ++ [Config.sysexEnd]
      ∧ groups.all groupWellFormed = true
  | _, [], _, _, h => nomatch h
  | cur, [b], groups, _, h => by
    rw [decodeGroups] at h
    split at h
    · rename_i last
      rw [← Except.ok.inj h, last.1, last.2]; exact ⟨rfl, rfl⟩
    · exact nomatch h
  | cur, b :: c :: rest, groups, hc, h => by
    rw [decodeGroups] at h
    split at h
    · rename_i ends
      split at h
      · rename_i gs hgs
        obtain ⟨bytesEq, wf⟩ := eq_of_decodeGroups (.inl rfl) hgs
        rw [← Except.ok.inj h, ends.1]
        refine ⟨?_, by rw [List.all_cons, hc.resolve_left ends.2, wf]; rfl⟩
        rw [List.flatMap_cons, groupBytes_eq, List.append_assoc, List.append_assoc, ← bytesEq]; rfl
      · exact nomatch h
    · rename_i goesOn
      split at h
      · rename_i m r hm hr
        rw [dataOf?_eq_some.1 hm] at goesOn
        obtain ⟨bytesEq, wf⟩ := eq_of_decodeGroups (.inr (groupWellFormed_snoc hc goesOn)) h
        refine ⟨?_, wf⟩
        rw [← bytesEq, dataOf?_eq_some.1 hm, dataOf?_eq_some.1 hr, List.flatMap_append, List.append_assoc]; rfl
      · exact nomatch h

/-! ### Inbound frames (R51 to R58) -/

variable {p : Params}

/-- The word is the encoding of the instruction, which is well formed. -/
def StandsFor (p : Params) (i : Instr) (w : InstrWord) : Prop := encode p i = w ∧ wellFormed p i = true

/-- The two query frames have rows of their own (R101, R102). -/
theorem wellFormed_sysex {body : List Data7} : wellFormed p (.sysex body) = true ↔
    body ≠ [p.analogMappingQueryId] ∧ body ≠ [Config.capabilityQueryId] := by
  rw [wellFormed, Bool.and_eq_true, bne_iff_ne, bne_iff_ne]

theorem sysexInstr_standsFor (p : Params) (body : List Data7) :
    StandsFor p (sysexInstr p body) (.wire (sysexFrame body)) := by
  unfold sysexInstr
  split
  · rename_i h; rw [h]; exact ⟨rfl, rfl⟩
  · split
    · rename_i h; rw [h]; exact ⟨rfl, rfl⟩
    · exact ⟨rfl, wellFormed_sysex.2 ⟨‹_›, ‹_›⟩⟩

theorem sysexInstr_of_wellFormed {body : List Data7} (h : wellFormed p (.sysex body) = true) :
    sysexInstr p body = .sysex body := by
  obtain ⟨notMapping, notCapability⟩ := wellFormed_sysex.1 h
  rw [sysexInstr, if_neg notMapping, if_neg notCapability]

theorem sysexInstr_capabilityQuery (p : Params) : sysexInstr p [Config.capabilityQueryId] = .capabilityQuery := by
  have other : [Config.capabilityQueryId] ≠ [p.analogMappingQueryId] := fun h =>
    p.mappingQuery_ne (List.cons.inj h).1.symm
  rw [sysexInstr, if_neg other, if_pos rfl]

/-- The only command byte with two body bytes that is neither a value's nor SET_PIN_MODE's (R53). -/
theorem eq_F5_of_bodyLen_two : ∀ c : Byte, bodyLen c = some .two → hiNibble c ≠ 0xE#4 → hiNibble c ≠ 0x9#4 →
    c ≠ 0xF4#8 → c = 0xF5#8 := by decide

theorem hiNibble_of_bodyLen_one : ∀ c : Byte, bodyLen c = some .one → hiNibble c ≠ 0xC#4 → hiNibble c = 0xD#4 := by
  decide

theorem eq_FF_of_bodyLen_zero : ∀ c : Byte, bodyLen c = some .zero → c ≠ 0xF9#8 → c = 0xFF#8 := by decide

theorem twoByteInstr_standsFor {c : Byte} (h : bodyLen c = some .two) (x y : Data7) :
    StandsFor p (twoByteInstr c x y) (.wire [c, dataByte x, dataByte y]) := by
  unfold twoByteInstr
  by_cases hE : hiNibble c = 0xE#4
  · rw [if_pos hE]; exact ⟨congrArg InstrWord.wire (valueFrame_nibbles (by rw [hE]; rfl) x y), rfl⟩
  by_cases h9 : hiNibble c = 0x9#4
  · rw [if_neg hE, if_pos h9]; exact ⟨congrArg InstrWord.wire (valueFrame_nibbles (by rw [h9]; rfl) x y), rfl⟩
  by_cases hF4 : c = 0xF4#8
  · rw [if_neg hE, if_neg h9, if_pos hF4, hF4]; exact ⟨rfl, rfl⟩
  · rw [if_neg hE, if_neg h9, if_neg hF4, eq_F5_of_bodyLen_two c h hE h9 hF4]; exact ⟨rfl, rfl⟩

/-- The row of a frame with one body byte (R53). -/
def oneByteInstr (c : Byte) (x : Data7) : Instr :=
  if hiNibble c = 0xC#4 then .reportAnalog (loNibble c) x else .reportDigital (loNibble c) x

theorem oneByteInstr_standsFor {c : Byte} (h : bodyLen c = some .one) (x : Data7) :
    StandsFor p (oneByteInstr c x) (.wire [c, dataByte x]) := by
  have report : ∀ base : Byte, hiNibble c ++ 0#4 = base → reportFrame base (loNibble c) x = [c, dataByte x] :=
    fun base hb => by rw [reportFrame, nibbleCommand_loNibble hb]
  unfold oneByteInstr
  split
  · rename_i hC; exact ⟨congrArg InstrWord.wire (report _ (by rw [hC]; rfl)), rfl⟩
  · rename_i hC
    exact ⟨congrArg InstrWord.wire (report _ (by rw [hiNibble_of_bodyLen_one c h hC]; rfl)), rfl⟩

theorem zeroByteInstr_standsFor {c : Byte} (h : bodyLen c = some .zero) :
    StandsFor p (if c = 0xF9#8 then .protocolVersion else .systemReset) (.wire [c]) := by
  split
  · rename_i hF9; rw [hF9]; exact ⟨rfl, rfl⟩
  · rename_i hF9; rw [eq_FF_of_bodyLen_zero c h hF9]; exact ⟨rfl, rfl⟩

theorem decodeFrame_two {c : Byte} (h : bodyLen c = some .two) (x y : Data7) :
    decodeFrame p [c, dataByte x, dataByte y] = .ok (twoByteInstr c x y) := by
  simp [decodeFrame, bodyLen_isCommand c _ h, h]

theorem decodeFrame_one {c : Byte} (h : bodyLen c = some .one) (x : Data7) :
    decodeFrame p [c, dataByte x] = .ok (oneByteInstr c x) := by
  simp [decodeFrame, bodyLen_isCommand c _ h, h, oneByteInstr]

theorem decodeFrame_sysex (body : List Data7) : decodeFrame p (sysexFrame body) = .ok (sysexInstr p body) := by
  simp [decodeFrame, sysexFrame, bodyLen_isCommand _ _ bodyLen_sysexStart, bodyLen_sysexStart,
    untilTerminator_terminated]

/-- Everything the frame decoder reads is the word of what it answers. -/
theorem decodeFrame_standsFor {bytes : List Byte} {i : Instr} (h : decodeFrame p bytes = .ok i) :
    StandsFor p i (.wire bytes) := by
  match bytes with
  | [] => exact nomatch h
  | c :: body =>
    rw [decodeFrame.eq_def] at h
    simp only at h
    split at h
    · exact nomatch h
    cases hc : bodyLen c with
    | none => rw [hc] at h; exact nomatch h
    | some n =>
      rw [hc] at h
      cases n with
      | two =>
        simp only at h
        split at h
        · split at h
          · rename_i x y hx hy
            rw [← Except.ok.inj h, dataOf?_eq_some.1 hx, dataOf?_eq_some.1 hy]
            exact twoByteInstr_standsFor hc x y
          · exact nomatch h
        · exact nomatch h
      | one =>
        simp only at h
        split at h
        · split at h
          · rename_i x hx
            rw [← Except.ok.inj h, dataOf?_eq_some.1 hx]
            exact oneByteInstr_standsFor hc x
          · exact nomatch h
        · exact nomatch h
      | zero =>
        simp only at h
        split at h
        · rw [← Except.ok.inj h]
          exact zeroByteInstr_standsFor hc
        · exact nomatch h
      | unbounded =>
        simp only at h
        split at h
        · rename_i data hdata
          rw [← Except.ok.inj h, (bodyLen_unbounded c).1 hc, eq_of_untilTerminator hdata]
          exact sysexInstr_standsFor p data
        · exact nomatch h

/-! ### Outbound messages (R60) -/

theorem wellFormed_stringData {chars : List Byte} : wellFormed p (.stringData chars) = true ↔
    chars ≠ [] ∧ dataByte p.stringDataId ≠ Config.mappingResponseId
      ∧ dataByte p.stringDataId ≠ Config.capabilityResponseId := by
  simp [wellFormed, dataByte, and_assoc]

theorem wellFormed_capabilityResponse {groups : List (List CapPair)} :
    wellFormed p (.capabilityResponse groups) = true ↔ groups ≠ [] ∧ groups.all groupWellFormed = true := by
  simp [wellFormed]

theorem wellFormed_analogMappingResponse {entries : List (Option Nibble)} :
    wellFormed p (.analogMappingResponse entries) = true ↔ entries ≠ [] := by
  simp [wellFormed]

/-- The row of a value message (R60). -/
def valueMessageInstr (c : Byte) (x y : Data7) : Instr :=
  if hiNibble c = 0xE#4 then .analogMessage (loNibble c) (pairValue x y)
  else .digitalMessage (loNibble c) (pairValue x y)

theorem decodeMessage_value {c : Byte} (h : hiNibble c = 0xE#4 ∨ hiNibble c = 0x9#4) (x y : Data7) :
    decodeMessage p [c, dataByte x, dataByte y] = .ok (valueMessageInstr c x y) := by
  simp [decodeMessage, h, pairValue, valueMessageInstr]

theorem valueMessage_standsFor {c : Byte} (h : hiNibble c = 0xE#4 ∨ hiNibble c = 0x9#4) (x y : Data7) :
    StandsFor p (valueMessageInstr c x y) (.message [c, dataByte x, dataByte y]) := by
  unfold valueMessageInstr
  split
  · rename_i hE; exact ⟨congrArg InstrWord.message (valueFrame_nibbles (by rw [hE]; rfl) x y), rfl⟩
  · rename_i hE; exact ⟨congrArg InstrWord.message (valueFrame_nibbles (by rw [h.resolve_left hE]; rfl) x y), rfl⟩

theorem sysex_not_value : ¬ (hiNibble Config.sysexStart = 0xE#4 ∨ hiNibble Config.sysexStart = 0x9#4) := by decide

theorem sysex_not_version : Config.sysexStart ≠ 0xF9#8 := by decide

/-- How a SysEx message is read: by its sub-id (R58, R60). -/
theorem decodeMessage_sysex (id : Byte) (rest : List Byte) :
    decodeMessage p (Config.sysexStart :: id :: rest) =
      if id = Config.mappingResponseId then nonEmpty (decodeEntries rest) .analogMappingResponse
      else if id = Config.capabilityResponseId then nonEmpty (decodeGroups [] rest) .capabilityResponse
      else if id = dataByte p.stringDataId then nonEmpty (decodeChars rest) .stringData
      else .error .noSuchMessage := by
  rw [decodeMessage.eq_def]
  simp only [sysex_not_value, sysex_not_version, if_false, if_true]

theorem nonEmpty_ok {α : Type} {l : List α} (h : l ≠ []) (make : List α → Instr) :
    nonEmpty (.ok l) make = .ok (make l) := by
  cases l with
  | nil => exact absurd rfl h
  | cons => rfl

theorem nonEmpty_eq_ok {α : Type} {x : Except DecodeError (List α)} {make : List α → Instr} {i : Instr}
    (h : nonEmpty x make = .ok i) : ∃ l, x = .ok l ∧ l ≠ [] ∧ i = make l := by
  unfold nonEmpty at h
  split at h
  · exact nomatch h
  · exact ⟨_, rfl, by simp, (Except.ok.inj h).symm⟩
  · exact nomatch h

theorem sysexMessage_standsFor {id : Byte} {rest : List Byte} {i : Instr}
    (h : decodeMessage p (Config.sysexStart :: id :: rest) = .ok i) :
    StandsFor p i (.message (Config.sysexStart :: id :: rest)) := by
  rw [decodeMessage_sysex] at h
  by_cases hm : id = Config.mappingResponseId
  · rw [if_pos hm] at h
    obtain ⟨entries, he, hne, rfl⟩ := nonEmpty_eq_ok h
    rw [hm, eq_of_decodeEntries he]
    exact ⟨rfl, wellFormed_analogMappingResponse.2 hne⟩
  by_cases hc : id = Config.capabilityResponseId
  · rw [if_neg hm, if_pos hc] at h
    obtain ⟨groups, hg, hne, rfl⟩ := nonEmpty_eq_ok h
    obtain ⟨bytesEq, wf⟩ := eq_of_decodeGroups (.inl rfl) hg
    rw [hc, show rest = _ from bytesEq]
    exact ⟨rfl, wellFormed_capabilityResponse.2 ⟨hne, wf⟩⟩
  by_cases hs : id = dataByte p.stringDataId
  · rw [if_neg hm, if_neg hc, if_pos hs] at h
    obtain ⟨chars, hcs, hne, rfl⟩ := nonEmpty_eq_ok h
    rw [hs] at hm hc
    rw [hs, eq_of_decodeChars hcs]
    exact ⟨rfl, wellFormed_stringData.2 ⟨hne, hm, hc⟩⟩
  · rw [if_neg hm, if_neg hc, if_neg hs] at h; exact nomatch h

/-- Everything the message decoder reads is the word of what it answers. -/
theorem decodeMessage_standsFor {bytes : List Byte} {i : Instr} (h : decodeMessage p bytes = .ok i) :
    StandsFor p i (.message bytes) := by
  match bytes with
  | [] => exact nomatch h
  | c :: body =>
    by_cases hv : hiNibble c = 0xE#4 ∨ hiNibble c = 0x9#4
    · simp only [decodeMessage.eq_def, if_pos hv] at h
      split at h
      · split at h
        · rename_i x y hx hy
          rw [← Except.ok.inj h, dataOf?_eq_some.1 hx, dataOf?_eq_some.1 hy]
          exact valueMessage_standsFor hv x y
        · exact nomatch h
      · exact nomatch h
    by_cases hF9 : c = 0xF9#8
    · simp only [decodeMessage.eq_def, if_neg hv, if_pos hF9] at h
      split at h
      · rename_i version; rw [← Except.ok.inj h, version]; exact ⟨rfl, rfl⟩
      · exact nomatch h
    by_cases hF0 : c = Config.sysexStart
    · subst hF0
      match body with
      | [] => exact nomatch h
      | id :: rest => exact sysexMessage_standsFor h
    · simp only [decodeMessage.eq_def, if_neg hv, if_neg hF9, if_neg hF0] at h; exact nomatch h

/-! ### The words that the encoder makes, read back -/

theorem bodyLen_value {base : Byte} (h : base = 0xE0#8 ∨ base = 0x90#8) :
    ∀ n : Nibble, bodyLen (nibbleCommand base n) = some .two := by
  rcases h with rfl | rfl <;> decide

theorem bodyLen_report {base : Byte} (h : base = 0xC0#8 ∨ base = 0xD0#8) :
    ∀ n : Nibble, bodyLen (nibbleCommand base n) = some .one := by
  rcases h with rfl | rfl <;> decide

/-- A frame with a 14-bit value is read by its command byte's high nibble, with that value (R56). -/
theorem decodeFrame_valueFrame {base : Byte} (h : base = 0xE0#8 ∨ base = 0x90#8) (n : Nibble) (v : Value14) :
    decodeFrame p (valueFrame base n v) =
      .ok (if hiNibble base = 0xE#4 then .analogIo n v else .digitalIo n v) := by
  have low : loNibble base = 0#4 := by rcases h with rfl | rfl <;> rfl
  have value := pairValue_extract v
  rw [valueFrame_eq, decodeFrame_two (bodyLen_value h n), twoByteInstr, hiNibble_nibbleCommand,
    loNibble_nibbleCommand low, ← pairValue, value]
  rcases h with rfl | rfl <;> rfl

theorem decodeFrame_reportFrame {base : Byte} (h : base = 0xC0#8 ∨ base = 0xD0#8) (n : Nibble) (x : Data7) :
    decodeFrame p (reportFrame base n x) =
      .ok (if hiNibble base = 0xC#4 then .reportAnalog n x else .reportDigital n x) := by
  have low : loNibble base = 0#4 := by rcases h with rfl | rfl <;> rfl
  rw [reportFrame, decodeFrame_one (bodyLen_report h n), oneByteInstr, hiNibble_nibbleCommand,
    loNibble_nibbleCommand low]

theorem decodeMessage_valueFrame {base : Byte} (h : base = 0xE0#8 ∨ base = 0x90#8) (n : Nibble) (v : Value14) :
    decodeMessage p (valueFrame base n v) =
      .ok (if hiNibble base = 0xE#4 then .analogMessage n v else .digitalMessage n v) := by
  have low : loNibble base = 0#4 := by rcases h with rfl | rfl <;> rfl
  have high : hiNibble (nibbleCommand base n) = 0xE#4 ∨ hiNibble (nibbleCommand base n) = 0x9#4 := by
    rw [hiNibble_nibbleCommand]; rcases h with rfl | rfl <;> decide
  rw [valueFrame_eq, decodeMessage_value high, valueMessageInstr, hiNibble_nibbleCommand,
    loNibble_nibbleCommand low, pairValue_extract]

/-! ### The statements -/

/-- Settles O49: what each decoder reads is the word of what it answers (`decodeFrame_standsFor`,
`decodeMessage_standsFor`). -/
theorem encodeOfDecodeIsTheBytes : Obligations.EncodeOfDecodeIsTheBytes :=
  fun _ _ _ => ⟨decodeFrame_standsFor, decodeMessage_standsFor⟩

/-- Settles O48: row by row, the reading of the bytes its word is made of. -/
theorem decodeOfEncodeIsTheInstruction : Obligations.DecodeOfEncodeIsTheInstruction := by
  intro p i wf
  cases i with
  | analogIo n v => exact decodeFrame_valueFrame (.inl rfl) n v
  | digitalIo n v => exact decodeFrame_valueFrame (.inr rfl) n v
  | reportAnalog n x => exact decodeFrame_reportFrame (.inl rfl) n x
  | reportDigital n x => exact decodeFrame_reportFrame (.inr rfl) n x
  | setPinMode pin x => exact decodeFrame_two (p := p) (c := 0xF4#8) rfl pin x
  | setPinValue pin x => exact decodeFrame_two (p := p) (c := 0xF5#8) rfl pin x
  | sysex body => exact (decodeFrame_sysex body).trans (congrArg Except.ok (sysexInstr_of_wellFormed wf))
  | analogMappingQuery => exact (decodeFrame_sysex _).trans (congrArg Except.ok (if_pos rfl))
  | capabilityQuery => exact (decodeFrame_sysex _).trans (congrArg Except.ok (sysexInstr_capabilityQuery p))
  | analogMessage n v => exact decodeMessage_valueFrame (.inl rfl) n v
  | digitalMessage n v => exact decodeMessage_valueFrame (.inr rfl) n v
  | stringData chars =>
    obtain ⟨hne, hm, hc⟩ := wellFormed_stringData.1 wf
    show decodeMessage p (stringMessage p chars) = _
    rw [stringMessage, decodeMessage_sysex, if_neg hm, if_neg hc, if_pos rfl, decodeChars_terminated, nonEmpty_ok hne]
  | capabilityResponse groups =>
    obtain ⟨hne, hg⟩ := wellFormed_capabilityResponse.1 wf
    show decodeMessage p (capabilityMessage groups) = _
    rw [capabilityMessage, decodeMessage_sysex, if_neg (by decide), if_pos rfl, decodeGroups_terminated groups hg,
      nonEmpty_ok hne]
  | analogMappingResponse entries =>
    show decodeMessage p (mappingMessage entries) = _
    rw [mappingMessage, decodeMessage_sysex, if_pos rfl, decodeEntries_terminated,
      nonEmpty_ok (wellFormed_analogMappingResponse.1 wf)]
  | _ => rfl

/-- Settles O26: by the 256 values of the byte. -/
theorem bodyLengthOfEveryFirstByte : Obligations.BodyLengthOfEveryFirstByte := by
  unfold Obligations.BodyLengthOfEveryFirstByte
  decide

/-- Settles O50: each word by running the decoder on it. -/
theorem theSpecsOwnWordsDecodeAsItSays : Obligations.TheSpecsOwnWordsDecodeAsItSays :=
  ⟨rfl, rfl, rfl, rfl, rfl, rfl, rfl, rfl, rfl, rfl, rfl, rfl, rfl, rfl, rfl, rfl, rfl⟩

end Sys2Proof
end

section
/-! SUPPORT. Where bit 7 may be set in a frame or a message (30_encoding.md R50, R51, R57, R60). -/

namespace Sys2Proof

open Machine (bodyLen_isCommand bodyLen_sysexStart)

/-- Bit 7 is set in the first byte and, behind 0xF0, in the 0xF7 at the end, and nowhere else (R50, R57). -/
def Bit7Marks (bytes : List Byte) : Prop :=
  ∃ first rest, bytes = first :: rest ∧ first.msb = true
    ∧ (first ≠ 0xF0#8 → ∀ b ∈ rest, b.msb = false)
    ∧ (first = 0xF0#8 → ∃ body, rest = body ++ [0xF7#8] ∧ ∀ b ∈ body, b.msb = false)

/-- A command byte with a fixed body, and data bytes. -/
theorem bit7Marks_fixed {first : Byte} {n : Remaining} (hb : bodyLen first = some n) (hn : n ≠ .unbounded)
    {rest : List Byte} (h : ∀ b ∈ rest, isCommand b = false) : Bit7Marks (first :: rest) := by
  refine ⟨first, rest, rfl, bodyLen_isCommand first n hb, fun _ => h, fun start => absurd ?_ hn⟩
  rw [start] at hb
  exact Option.some.inj (hb.symm.trans bodyLen_sysexStart)

/-- 0xF0, data bytes, and the terminator. -/
theorem bit7Marks_sysex {body : List Byte} (h : ∀ b ∈ body, isCommand b = false) :
    Bit7Marks (Config.sysexStart :: (body ++ [Config.sysexEnd])) :=
  ⟨_, _, rfl, by decide, fun other => absurd rfl other, fun _ => ⟨body, rfl, h⟩⟩

theorem isCommand_mask7 : ∀ c : Byte, isCommand (c &&& 0x7F#8) = false := by decide

theorem isCommand_charPair (c : Byte) : ∀ b ∈ charPair c, isCommand b = false := by
  intro b hb
  simp only [charPair, List.mem_cons, List.not_mem_nil, or_false] at hb
  rcases hb with rfl | rfl <;> exact isCommand_mask7 _

theorem isCommand_entryByte : ∀ e : Option Nibble, isCommand (entryByte e) = false
  | none => by decide
  | some channel => by revert channel; decide

theorem isCommand_groupBytes (group : List CapPair) : ∀ b ∈ groupBytes group, isCommand b = false := by
  intro b hb
  rw [groupBytes_eq, List.mem_append, List.mem_flatMap, List.mem_singleton] at hb
  obtain ⟨pair, -, hb⟩ | rfl := hb
  · simp only [pairBytes, List.mem_cons, List.not_mem_nil, or_false] at hb
    rcases hb with rfl | rfl <;> exact isCommand_dataByte _
  · decide

theorem bit7Marks_valueFrame {base : Byte} (h : base = 0xE0#8 ∨ base = 0x90#8) (n : Nibble) (v : Value14) :
    Bit7Marks (valueFrame base n v) := by
  rw [valueFrame_eq]
  exact bit7Marks_fixed (bodyLen_value h n) (by decide) (by simp)

theorem bit7Marks_reportFrame {base : Byte} (h : base = 0xC0#8 ∨ base = 0xD0#8) (n : Nibble) (x : Data7) :
    Bit7Marks (reportFrame base n x) :=
  bit7Marks_fixed (bodyLen_report h n) (by decide) (by simp)

theorem bit7Marks_pinFrame {cmd : Byte} (h : bodyLen cmd = some .two) (pin x : Data7) :
    Bit7Marks (pinFrame cmd pin x) :=
  bit7Marks_fixed h (by decide) (by simp)

theorem bit7Marks_sysexFrame (body : List Data7) : Bit7Marks (sysexFrame body) :=
  bit7Marks_sysex (by simp)

theorem bit7Marks_stringMessage (p : Params) (chars : List Byte) : Bit7Marks (stringMessage p chars) := by
  refine bit7Marks_sysex (body := dataByte p.stringDataId :: chars.flatMap charPair) fun b hb => ?_
  rw [List.mem_cons, List.mem_flatMap] at hb
  obtain rfl | ⟨c, -, hb⟩ := hb
  · exact isCommand_dataByte _
  · exact isCommand_charPair c b hb

theorem bit7Marks_capabilityMessage (groups : List (List CapPair)) : Bit7Marks (capabilityMessage groups) := by
  refine bit7Marks_sysex (body := Config.capabilityResponseId :: groups.flatMap groupBytes) fun b hb => ?_
  rw [List.mem_cons, List.mem_flatMap] at hb
  obtain rfl | ⟨group, -, hb⟩ := hb
  · decide
  · exact isCommand_groupBytes group b hb

theorem bit7Marks_mappingMessage (entries : List (Option Nibble)) : Bit7Marks (mappingMessage entries) := by
  refine bit7Marks_sysex (body := Config.mappingResponseId :: entries.map entryByte) fun b hb => ?_
  rw [List.mem_cons, List.mem_map] at hb
  obtain rfl | ⟨e, -, rfl⟩ := hb
  · decide
  · exact isCommand_entryByte e

/-- The bytes of a frame or message meet `P`; a select code has none. -/
def InstrWord.BytesMeet (P : List Byte → Prop) : InstrWord → Prop
  | .op _ _ => True
  | .wire bytes => P bytes
  | .message bytes => P bytes

theorem encode_bit7Marks (p : Params) (i : Instr) : (encode p i).BytesMeet Bit7Marks := by
  cases i with
  | analogIo n v => exact bit7Marks_valueFrame (.inl rfl) n v
  | digitalIo n v => exact bit7Marks_valueFrame (.inr rfl) n v
  | reportAnalog n x => exact bit7Marks_reportFrame (.inl rfl) n x
  | reportDigital n x => exact bit7Marks_reportFrame (.inr rfl) n x
  | setPinMode pin x => exact bit7Marks_pinFrame rfl pin x
  | setPinValue pin x => exact bit7Marks_pinFrame rfl pin x
  | protocolVersion | systemReset => exact bit7Marks_fixed rfl (by decide) (by simp)
  | sysex _ | analogMappingQuery | capabilityQuery => exact bit7Marks_sysexFrame _
  | analogMessage n v => exact bit7Marks_valueFrame (.inl rfl) n v
  | digitalMessage n v => exact bit7Marks_valueFrame (.inr rfl) n v
  | versionReply => exact bit7Marks_fixed (n := .zero) rfl (by decide) (by decide)
  | stringData chars => exact bit7Marks_stringMessage p chars
  | capabilityResponse groups => exact bit7Marks_capabilityMessage groups
  | analogMappingResponse entries => exact bit7Marks_mappingMessage entries
  | _ => trivial

/-- Settles O25: row by row, the bytes of each format (`encode_bit7Marks`). -/
theorem onlyTheFirstByteAndTheTerminatorHaveBit7 : Obligations.OnlyTheFirstByteAndTheTerminatorHaveBit7 := by
  intro p i bytes h
  have marks := encode_bit7Marks p i
  obtain h | h := h <;> rw [h] at marks <;> exact marks

end Sys2Proof
end

section
/-! SUPPORT. What an outbound message does when it is composed (30_encoding.md R60, 44_output_encoders.md R130): what it
sends, that an accepted encoder is the message row it produces, and that the message is its APPENDs and a FLUSH, one by
one. -/

namespace Sys2Proof.Machine

variable {s t : State}

/-! ### A whole message leaves -/

theorem emitMessage_onlySinkCalls (bytes : List Byte) (s : State) : OnlySinkCalls s (emitMessage bytes s).2 :=
  (appendAll_onlySinkCalls bytes s).trans (appendAll_frame bytes s) (flush_onlySinkCalls _)

theorem emitMessage_cells {bytes : List Byte} (h : OutputOk s) :
    OtherCellsKept bytes.length s (emitMessage bytes s).2 := fun a ha => by
  show memRead (flush (appendAll bytes s).2).2.ctx.outputBuf a = _
  rw [flush_outputBuf]
  exact appendAll_cells h a ha

/-- An instruction that composes a message and answers sends it (R130). -/
theorem sendsMessage_of_emit {i : Instr} {bytes : List Byte} {r : Result} (h : s.Inv)
    (run : exec i s = .next ((emitMessage bytes s).2.answer { result := r }))
    (ok : s.params.sinkResultPropagates = false → r = .ok) : SendsMessage i bytes s := by
  have frame := emitMessage_frame bytes s
  refine ⟨_, run, frame.only _, emitMessage_outputCursor bytes s, fun sink => ?_, emitMessage_onlySinkCalls bytes s,
    ⟨r, ?_, ok⟩, emitMessage_cells h.output⟩
  · rw [delivered_answer]; exact emitMessage_delivered h.output sink
  · rw [Replies, State.answer_replies, frame.replies]

theorem entryByte_eq_elim : entryByte = fun e => e.elim 0x7F#8 fun channel => channel.setWidth 8 := by
  funext e; cases e <;> rfl

/-- Settles O23: each word by its format, and what composing it sends by `sendsMessage_of_emit`. -/
theorem eachMessageLeavesAsItsFormatSays : Obligations.EachMessageLeavesAsItsFormatSays := by
  intro s h
  have value : ∀ (base : Byte) (n : Nibble) (v : Value14), valueFrame base n v =
      [base ||| n.setWidth 8, (v.extractLsb' 0 7).setWidth 8, (v.extractLsb' 7 7).setWidth 8] := valueFrame_eq
  refine ⟨fun pin v => ?_, fun port v => ?_, ?_, fun chars => ?_, fun groups => ?_, fun entries => ?_⟩
  · rw [← value]
    exact ⟨rfl, sendsMessage_of_emit h (exec_analogMessage h.1 pin v) emitMessage_result⟩
  · rw [← value]
    exact ⟨rfl, sendsMessage_of_emit h (exec_digitalMessage h.1 port v) emitMessage_result⟩
  · exact ⟨rfl, sendsMessage_of_emit h (exec_versionReply h.1) emitReply_result⟩
  · exact ⟨rfl, sendsMessage_of_emit h (exec_stringData h.1 chars) emitMessage_result⟩
  · exact ⟨rfl, sendsMessage_of_emit h (exec_capabilityResponse h.1 groups) emitMessage_result⟩
  · rw [← entryByte_eq_elim]
    exact ⟨rfl, sendsMessage_of_emit h (exec_analogMappingResponse h.1 entries) emitMessage_result⟩

/-! ### An accepted encoder is its message row -/

theorem withContext_congr {ctx : Ref} {f g : State → Result × State} (h : f s = g s) :
    withContext ctx s f = withContext ctx s g := by
  cases ctx with
  | absent => rfl
  | present => simp only [withContext, enter, h]

theorem statusBytes_eq {pin : Byte} {value : Half} (hp : pin ≤ 0x0F#8) (hv : value ≤ 0x3FFF#16) (base : Byte) :
    statusBytes base pin value = valueFrame base (pin.setWidth 4) (value.setWidth 14) := by
  have pinFits : (pin.setWidth 4).setWidth 8 = pin := by bv_omega
  have valueFits : (value.setWidth 14).setWidth 16 = value := by bv_omega
  rw [statusBytes, valueFrame, nibbleCommand, pinFits, valueFits]

theorem firstError_assoc (r r' r'' : Result) : firstError (firstError r r') r'' = firstError r (firstError r' r'') := by
  cases r <;> rfl

@[simp] theorem firstError_ok (r : Result) : firstError r .ok = r := by cases r <;> rfl

theorem andThen_assoc (x : Result × State) (f g : State → Result × State) :
    andThen (andThen x f) g = andThen x fun s => andThen (f s) g := by
  simp only [andThen, firstError_assoc]

/-- APPEND of a list in two parts, with the first error of the two (R123). -/
theorem appendAll_append_andThen : ∀ (xs ys : List Byte) (s : State),
    appendAll (xs ++ ys) s = andThen (appendAll xs s) (appendAll ys)
  | [], ys, s => rfl
  | x :: xs, ys, s => by
    simp only [List.cons_append, appendAll, andThen_assoc]
    congr 1
    funext u
    exact appendAll_append_andThen xs ys u

/-- A message in two parts is the first part appended and the rest composed. -/
theorem emitMessage_append (xs ys : List Byte) (s : State) :
    emitMessage (xs ++ ys) s = andThen (appendAll xs s) (emitMessage ys) := by
  rw [emitMessage, appendAll_append_andThen, andThen_assoc]; rfl

theorem emitMessage_cons (b : Byte) (rest : List Byte) (s : State) :
    emitMessage (b :: rest) s = andThen (append b s) (emitMessage rest) := by
  rw [emitMessage, appendAll, andThen_assoc]; rfl

/-- Pieces that are all valid are appended as the list of their bytes (R134, R135). -/
theorem appendPieces_valid : ∀ {pieces : List (Option (List Byte))} (r : Result) (s : State),
    pieces.all Option.isSome = true →
    appendPieces pieces r s = .done (andThen (r, s) (appendAll (validBytes pieces))).1
      (andThen (r, s) (appendAll (validBytes pieces))).2
  | [], r, s, _ => by simp [appendPieces, validBytes, appendAll, andThen]
  | none :: _, _, _, hv => by simp at hv
  | some bytes :: rest, r, s, hv => by
    rw [List.all_cons, Bool.and_eq_true] at hv
    rw [appendPieces, appendPieces_valid _ _ hv.2, validBytes]
    simp only [andThen, appendAll_append_andThen, firstError_assoc]

/-- With every piece valid a checked message is the message of all its bytes (R137). -/
theorem composeChecked_valid {pieces : List (Option (List Byte))} (hv : pieces.all Option.isSome = true)
    (head tail : List Byte) (s : State) :
    composeChecked head pieces tail s = emitMessage (head ++ validBytes pieces ++ tail) s := by
  rw [composeChecked, appendPieces_valid _ _ hv, emitMessage_append, appendAll_append_andThen]

/-- Every record is valid, so each is a piece. -/
theorem capPieces_valid {p : Params} : ∀ {recs : List CapRecord} (previous : Option Byte),
    (∀ r ∈ recs, capRecordValid p r = true) → (capPieces p previous recs).all Option.isSome = true
  | [], _, _ => rfl
  | r :: rest, previous, h => by
    have later := capPieces_valid (some r.pin) fun x hx => h x (List.mem_cons_of_mem _ hx)
    rw [capPieces, if_pos (h r List.mem_cons_self), List.all_cons, later]
    rfl

theorem pairBytes_pairOf {r : CapRecord} (hm : r.mode ≤ 0x7F#8) (hr : r.resolution ≤ 0x7F#8) :
    pairBytes (pairOf r) = [r.mode, r.resolution] := by
  have data : ∀ b : Byte, b ≤ 0x7F#8 → dataByte (payload7 b) = b := by decide
  rw [pairBytes, pairOf, data _ hm, data _ hr]

theorem groupsOf_cons_ne_nil (r : CapRecord) (rest : List CapRecord) : groupsOf (r :: rest) ≠ [] := by
  rw [groupsOf]
  split
  · simp
  · split <;> simp

/-- A record's pair, then a separator where the next record is not of the same pin (R134). -/
theorem groupsOf_cons_bytes (r : CapRecord) (rest : List CapRecord) :
    (groupsOf (r :: rest)).flatMap groupBytes = pairBytes (pairOf r)
      ++ (if rest.head?.map CapRecord.pin = some r.pin then [] else [Config.separator])
      ++ (groupsOf rest).flatMap groupBytes := by
  rw [groupsOf]
  split
  · rename_i none
    cases rest with
    | nil => rw [none]; rfl
    | cons next more => exact absurd none (groupsOf_cons_ne_nil next more)
  · rename_i g gs some
    rw [some]
    split <;> simp [groupBytes_eq]

/-- What SEND_CAPABILITY appends behind a record of the pin `q`, with the last separator: a separator where the pin
changes, and the groups (R134). -/
theorem capPieces_bytes {p : Params} : ∀ {recs : List CapRecord} (q : Byte),
    (∀ r ∈ recs, capRecordValid p r = true ∧ r.mode ≤ 0x7F#8 ∧ r.resolution ≤ 0x7F#8) →
    validBytes (capPieces p (some q) recs) ++ [Config.separator] =
      (if recs.head?.map CapRecord.pin = some q then [] else [Config.separator])
        ++ (groupsOf recs).flatMap groupBytes
  | [], _, _ => rfl
  | r :: rest, q, h => by
    obtain ⟨valid, mode, resolution⟩ := h r List.mem_cons_self
    have ih := capPieces_bytes r.pin fun x hx => h x (List.mem_cons_of_mem _ hx)
    rw [capPieces, if_pos valid, validBytes, List.append_assoc, ih, groupsOf_cons_bytes,
      pairBytes_pairOf mode resolution]
    simp [separatorBefore]

/-- The bytes of accepted records between the head of the message and the terminator. -/
theorem capPieces_message {p : Params} {recs : List CapRecord} (hne : recs ≠ [])
    (h : ∀ r ∈ recs, capRecordValid p r = true ∧ r.mode ≤ 0x7F#8 ∧ r.resolution ≤ 0x7F#8) :
    validBytes (capPieces p none recs) ++ [Config.separator] = (groupsOf recs).flatMap groupBytes := by
  cases recs with
  | nil => exact absurd rfl hne
  | cons r rest =>
    obtain ⟨valid, mode, resolution⟩ := h r List.mem_cons_self
    have later := capPieces_bytes r.pin fun x hx => h x (List.mem_cons_of_mem _ hx)
    rw [capPieces, if_pos valid, validBytes, List.append_assoc, later, groupsOf_cons_bytes,
      pairBytes_pairOf mode resolution, separatorBefore, List.nil_append, List.append_assoc]

theorem sendCapability_valid {recs : List CapRecord} (hne : recs ≠ []) (hrule : s.params.capRule = .dataBytes)
    (h : ∀ r ∈ recs, r.mode ≤ 0x7F#8 ∧ r.resolution ≤ 0x7F#8) :
    sendCapability recs s = emitMessage (capabilityMessage (groupsOf recs)) s := by
  have valid : ∀ r ∈ recs, capRecordValid s.params r = true ∧ r.mode ≤ 0x7F#8 ∧ r.resolution ≤ 0x7F#8 :=
    fun r hr => ⟨(capRecordValid_dataBytes hrule).2 (h r hr), h r hr⟩
  have body := capPieces_message hne valid
  rw [sendCapability, if_neg hne, composeChecked_valid (capPieces_valid none fun r hr => (valid r hr).1),
    capabilityMessage, ← body]
  simp

theorem mappingEntryValid_entryByte : ∀ e : Option Nibble, mappingEntryValid (entryByte e) = true
  | none => by decide
  | some channel => by revert channel; decide

theorem mapPieces_entries (entries : List (Option Nibble)) :
    mapPieces (entries.map entryByte) = (entries.map entryByte).map fun b => some [b] := by
  simp [mapPieces, mappingEntryValid_entryByte]

theorem validBytes_singletons : ∀ bytes : List Byte, validBytes (bytes.map fun b => some [b]) = bytes
  | [] => rfl
  | b :: rest => congrArg (b :: ·) (validBytes_singletons rest)

theorem sendAnalogMapping_valid {entries : List (Option Nibble)} (hne : entries ≠ []) (s : State) :
    sendAnalogMapping (entries.map entryByte) s = emitMessage (mappingMessage entries) s := by
  rw [sendAnalogMapping, if_neg (by simpa using hne), mapPieces_entries, composeChecked_valid (by simp),
    validBytes_singletons]
  rfl

/-- Settles O24: on accepted arguments the bytes an encoder composes are those of the message row. -/
theorem encodersProduceTheirMessageRows : Obligations.EncodersProduceTheirMessageRows := by
  have status : ∀ {base pin : Byte} {value : Half} {s : State}, pin ≤ 0x0F#8 → value ≤ 0x3FFF#16 →
      sendStatus base pin value s = emitMessage (valueFrame base (pin.setWidth 4) (value.setWidth 14)) s :=
    fun hp hv => by rw [sendStatus, if_pos (statusInRange_iff.2 ⟨hp, hv⟩), statusBytes_eq hp hv]
  refine fun s => ⟨fun pin value hp hv => ?_, fun port value hp hv => ?_, fun str hne => ?_,
    fun recs hne hrule hrecs => ?_, fun entries hne => ?_⟩
  · exact withContext_congr (ctx := .present) (status hp hv)
  · exact withContext_congr (ctx := .present) (status hp hv)
  · exact withContext_congr (ctx := .present) (f := sendString str)
      (g := fun s => emitMessage (stringMessage s.params str) s) (if_neg hne)
  · exact withContext_congr (ctx := .present) (sendCapability_valid hne hrule hrecs)
  · rw [← entryByte_eq_elim]
    exact withContext_congr (ctx := .present) (sendAnalogMapping_valid hne s)

/-! ### A message and its APPENDs one by one (log 5, log 6) -/

/-- An output operation does the same whatever replies the caller has had, and hands on those replies. -/
theorem IgnoresRest.answer {f : State → Result × State} (hf : IgnoresRest f) (frame : ∀ s, OutputFrame s (f s).2)
    (s : State) (r : Reply) : f (s.answer r) = ((f s).1, (f s).2.answer r) := by
  have ignored := hf s (s.answer r)
  have kept : (f s).2.withRest (s.answer r) = (f s).2.answer r := by
    have fr := frame s
    simp only [State.withRest, State.answer, ← fr.state, ← fr.remainingCount, ← fr.inputCursor, ← fr.inputBuf,
      ← fr.replies, ← fr.handlerReplies, ← fr.scripts, ← fr.requests]
  rw [← kept]
  exact ignored

/-- An output operation that leaves the cursor in range leaves a usable Context (R25). -/
theorem OutputFrame.usable (fr : OutputFrame s t) (hu : s.Usable) (hc : t.ctx.outputCursor ≤ s.params.outCap) :
    t.Usable := by
  simp only [State.Usable, betweenOperations, pendingFrame, fr.params, fr.state, fr.remainingCount, fr.inputCursor,
    fr.inputBuf, Bool.and_eq_true, decide_eq_true_eq] at hu ⊢
  exact ⟨hc, hu.2⟩

theorem append_usable (b : Byte) (hu : s.Usable) : (append b s).2.Usable := by
  refine (append_frame b s).usable hu ?_
  have cursor : s.ctx.outputCursor ≤ s.params.outCap := by
    simp only [State.Usable, betweenOperations, Bool.and_eq_true, decide_eq_true_eq] at hu
    exact hu.1
  rw [(append_cell b s).2, nextCell_eq_mod cursor]
  exact Nat.mod_lt _ s.params.outCap_ge

/-- Replies to the caller at the end of those it has had. -/
def State.answers (s : State) (rs : List Reply) : State := { s with replies := s.replies ++ rs }

theorem State.answer_answers (s : State) (r : Reply) (rs : List Reply) :
    (s.answer r).answers rs = s.answers (r :: rs) := by
  simp [State.answers, State.answer]

/-- The first Result of these replies that is not OK, or OK (R123). -/
def firstErrorOf (rs : List Reply) : Result := ((rs.map Reply.result).find? fun r => decide (r ≠ .ok)).getD .ok

theorem firstErrorOf_cons (r : Reply) (rs : List Reply) :
    firstErrorOf (r :: rs) = firstError r.result (firstErrorOf rs) := by
  unfold firstErrorOf
  cases h : r.result <;> simp [h, firstError]

/-- The interface operations a message is made of (R130). -/
def messageOps (bytes : List Byte) : List Instr := (bytes.map fun b => Instr.append .present b) ++ [.flush .present]

/-- Run one by one, the operations a message is made of do what the message does, and the message's Result is the
first error among their replies (R123, R130). -/
theorem execAll_messageOps : ∀ (bytes : List Byte) {s : State}, s.Usable →
    ∃ rs, execAll (messageOps bytes) s = .next ((emitMessage bytes s).2.answers rs)
      ∧ firstErrorOf rs = (emitMessage bytes s).1
  | [], s, hu => by
    refine ⟨[{ result := (flush s).1 }], ?_, ?_⟩
    · simp only [messageOps, List.map_nil, List.nil_append, execAll, exec_flush hu]; rfl
    · rw [firstErrorOf_cons]; exact firstError_ok _
  | b :: rest, s, hu => by
    have usable : ((append b s).2.answer { result := (append b s).1 }).Usable := append_usable b hu
    obtain ⟨rs, run, result⟩ := execAll_messageOps rest usable
    rw [(emitMessage_ignores rest).answer (emitMessage_frame rest)] at run result
    refine ⟨{ result := (append b s).1 } :: rs, ?_, ?_⟩
    · show execAll (.append .present b :: messageOps rest) s = _
      simp only [execAll, exec_append hu, run, State.answer_answers]
      rfl
    · rw [firstErrorOf_cons, result, emitMessage_cons]; rfl

/-! ### The step -/

/-- Select codes 0xD to 0xF are unassigned (R62). -/
theorem decodeOp_unassigned {code : BitVec 4} (h : 0xD#4 ≤ code) (args : Args) :
    decodeOp code args = .error (.unassignedOperation code) := by
  have three : ∀ c : BitVec 4, 0xD#4 ≤ c → c = 0xD#4 ∨ c = 0xE#4 ∨ c = 0xF#4 := by decide
  rcases three code h with rfl | rfl | rfl <;> rfl

theorem step_request {r : Request} {rest : List Request} (h : s.requests = r :: rest) :
    step s = runRequest r (s.setRequests rest) := by
  rw [step, fetch, h]

/-- A word that decodes is run as its instruction. -/
theorem step_decoded {w : InstrWord} {i : Instr} {rest : List Request} (hr : s.requests = .instr w :: rest)
    (hd : decode s.params w = .ok i) : step s = exec i (s.setRequests rest) := by
  simp only [step_request hr, runRequest, runWord, State.setRequests_params, hd]

theorem step_undecoded {w : InstrWord} {e : DecodeError} {rest : List Request} (hr : s.requests = .instr w :: rest)
    (hd : decode s.params w = .error e) : step s = runUndecoded w (s.setRequests rest) := by
  simp only [step_request hr, runRequest, runWord, State.setRequests_params, hd]

/-- Settles O47: by the head of the queue; bytes that are no message by `execAll_messageOps`. -/
theorem aStepRunsTheDecodedInstruction : Obligations.AStepRunsTheDecodedInstruction := by
  intro s rest
  refine ⟨fun w i hr hd => ?_, fun bytes e hr hd hu => ?_, fun code args hr hc => ?_, fun bytes e hr hd hu => ?_,
    fun v hr => step_request hr, fun addr b hr => step_request hr, fun hr => by rw [step, fetch, hr]⟩
  · exact step_decoded hr hd
  · rw [step_undecoded hr hd]; exact deliver_usable (s := s.setRequests rest) hu bytes
  · exact step_undecoded hr (decodeOp_unassigned hc args)
  · have replies := (emitMessage_frame bytes (s.setRequests rest)).replies
    obtain ⟨rs, run, result⟩ := execAll_messageOps bytes (s := s.setRequests rest) hu
    refine ⟨_, rs, run, congrArg (· ++ rs) replies, ?_⟩
    rw [step_undecoded hr hd, runUndecoded, withContext_usable (s := s.setRequests rest) hu, ← result, State.answer,
      replies]
    rfl

end Sys2Proof.Machine
end

section
/-! SUPPORT. A SysEx frame longer than the input buffer (30_encoding.md R54, 40_frame_decoder.md R73, R75): the bytes
that fit, the one that does not, and those after it. -/

namespace Sys2Proof.Machine

variable {s t u : State}

/-! ### FEEDs that only the decoder and the replies show -/

/-- Bytes were fed, with these replies, and nothing beside the decoder and the input buffer changed: no event, no output
(R169). -/
structure FedQuietly (s t : State) (rs : List Reply) : Prop where
  keeps : FeedKeeps s t
  trace : t.trace = s.trace
  output : OutputKept s t
  replies : t.replies = s.replies ++ rs

theorem FedQuietly.refl (s : State) : FedQuietly s s [] := ⟨⟨rfl, rfl, rfl, rfl⟩, rfl, .refl s, by simp⟩

theorem FedQuietly.trans {rs rs' : List Reply} (h : FedQuietly s t rs) (h' : FedQuietly t u rs') :
    FedQuietly s u (rs ++ rs') := by
  obtain ⟨⟨p, hd, ud, rq⟩, tr, ⟨ob, oc, cm, sk, sc, hr⟩, rp⟩ := h
  obtain ⟨⟨p', hd', ud', rq'⟩, tr', ⟨ob', oc', cm', sk', sc', hr'⟩, rp'⟩ := h'
  exact ⟨⟨p'.trans p, hd'.trans hd, ud'.trans ud, rq'.trans rq⟩, tr'.trans tr,
    ⟨ob'.trans ob, oc'.trans oc, cm'.trans cm, sk'.trans sk, sc'.trans sc, hr'.trans hr⟩,
    by rw [rp', rp, List.append_assoc]⟩

theorem FedQuietly.params {rs : List Reply} (h : FedQuietly s t rs) : t.params = s.params := by
  obtain ⟨⟨params, -⟩, -⟩ := h
  exact params

/-- What a FEED that dispatches nothing does. -/
theorem OnlyDecoderChanges.fedQuietly (h : OnlyDecoderChanges s t) (r : Reply) : FedQuietly s (t.answer r) [r] := by
  obtain ⟨_, _, _, _, rfl⟩ := h
  exact ⟨⟨rfl, rfl, rfl, rfl⟩, rfl, .refl s, rfl⟩

theorem resetDecoder_onlyDecoder (s : State) : OnlyDecoderChanges s (resetDecoder s) := ⟨_, _, _, _, rfl⟩

theorem feedEach_append : ∀ (xs ys : List Byte) (s : State), feedEach (xs ++ ys) s = feedEach ys (feedEach xs s)
  | [], _, _ => rfl
  | _ :: xs, ys, _ => feedEach_append xs ys _

/-! ### The bytes that fit -/

theorem State.Inv.inputWf (h : s.Inv) : Memory.wf s.ctx.inputBuf = true := by
  obtain ⟨-, wf, -⟩ := h
  exact wf

/-- A SysEx frame is pending, of which `got` has come in (R25, R74). -/
structure SysexPending (got : List Byte) (s : State) : Prop where
  inv : s.Inv
  state : s.ctx.state = .cmdData
  start : frameByte s 0 = Config.sysexStart
  got : memSlice s.ctx.inputBuf 0 s.ctx.inputCursor = got

theorem SysexPending.answer {got : List Byte} (h : SysexPending got s) (r : Reply) : SysexPending got (s.answer r) :=
  ⟨h.inv.answer r, h.state, h.start, h.got⟩

theorem SysexPending.cursor {got : List Byte} (h : SysexPending got s) : s.ctx.inputCursor = got.length := by
  rw [← h.got, length_memSlice]

theorem SysexPending.pending {got : List Byte} (h : SysexPending got s) : Pending s.params s.ctx :=
  pendingFrame_iff.1 (usable_cmdData h.inv.1 h.state).1

/-- The start byte, on a decoder in CMD (R71). -/
theorem feed_sysexStart (hs : s.Inv) (hc : s.ctx.state = .cmd) :
    ∃ t, feed Config.sysexStart s = (.ok, t) ∧ OnlyDecoderChanges s t ∧ SysexPending [Config.sysexStart] t := by
  have cursor := (usable_cmd hs.1 hc).2.1
  have run := feed_cmd_accepts hc cursor bodyLen_sysexStart
  rw [completeByte_not_ready (by simp)] at run
  have inv := feed_inv hs Config.sysexStart
  rw [run] at inv
  refine ⟨_, run, ⟨_, _, _, _, rfl⟩, inv, rfl, ?_, ?_⟩
  · show memRead (memWrite s.ctx.inputBuf s.ctx.inputCursor _) 0 = _
    rw [cursor, Memory.read_write hs.inputWf, if_pos rfl]
  · show memSlice (memWrite s.ctx.inputBuf s.ctx.inputCursor _) 0 1 = _
    rw [cursor]; exact memSlice_push hs.inputWf _ 0

/-- A data byte with room for it (R74): the count of a SysEx frame is never counted down. -/
theorem SysexPending.feed_data {got : List Byte} {b : Byte} (h : SysexPending got s) (hb : isCommand b = false)
    (room : got.length < s.params.inCap) :
    ∃ t, feed b s = (.ok, t) ∧ OnlyDecoderChanges s t ∧ SysexPending (got ++ [b]) t := by
  have one := h.pending.one_le
  have count : s.ctx.remainingCount = .unbounded := h.pending.unbounded_iff.2 h.start
  have wf := h.inv.inputWf
  have run := feed_data_accepts h.state hb (by rw [h.cursor]; omega)
  simp only [countBodyByte, State.setCtx_ctx, Context.pushIn_remainingCount, count] at run
  rw [completeByte_not_ready (by simp [h.state])] at run
  have inv := feed_inv h.inv b
  rw [run] at inv
  refine ⟨_, run, ⟨_, _, _, _, rfl⟩, inv, h.state, ?_, ?_⟩
  · show memRead (memWrite s.ctx.inputBuf s.ctx.inputCursor b) 0 = _
    rw [Memory.read_write wf, if_neg (by omega)]; exact h.start
  · exact (memSlice_push wf b _).trans (congrArg (· ++ [b]) h.got)

/-- A run of data bytes that all fit. -/
theorem SysexPending.feedEach_data : ∀ {data got : List Byte} {s : State}, SysexPending got s →
    (∀ b ∈ data, isCommand b = false) → got.length + data.length ≤ s.params.inCap →
    SysexPending (got ++ data) (feedEach data s)
      ∧ FedQuietly s (feedEach data s) (List.replicate data.length { result := .ok })
  | [], got, s, h, _, _ => ⟨by rw [List.append_nil]; exact h, .refl s⟩
  | b :: data, got, s, h, hd, fits => by
    rw [List.length_cons] at fits
    obtain ⟨t, run, only, pending⟩ := h.feed_data (hd b List.mem_cons_self) (by omega)
    have quiet := only.fedQuietly { result := .ok }
    have params : t.params = s.params := quiet.params
    obtain ⟨after, rest⟩ := (pending.answer { result := .ok }).feedEach_data (data := data)
      (fun x hx => hd x (List.mem_cons_of_mem _ hx))
      (by rw [State.answer_params, params, List.length_append, List.length_singleton]; omega)
    rw [feedEach, run]
    exact ⟨by rwa [List.append_assoc] at after, quiet.trans rest⟩

/-- The start byte and data bytes that all fit. -/
theorem feedEach_sysexStart_data (hs : s.Inv) (hc : s.ctx.state = .cmd) {data : List Byte}
    (hd : ∀ b ∈ data, isCommand b = false) (fits : data.length + 1 ≤ s.params.inCap) :
    SysexPending (Config.sysexStart :: data) (feedEach (Config.sysexStart :: data) s)
      ∧ FedQuietly s (feedEach (Config.sysexStart :: data) s) (List.replicate (data.length + 1) { result := .ok }) := by
  obtain ⟨t, run, only, pending⟩ := feed_sysexStart hs hc
  have quiet := only.fedQuietly { result := .ok }
  have params : t.params = s.params := quiet.params
  obtain ⟨after, rest⟩ := (pending.answer { result := .ok }).feedEach_data hd
    (by rw [State.answer_params, params, List.length_singleton]; omega)
  rw [feedEach, run]
  exact ⟨after, quiet.trans rest⟩

/-! ### The bytes after an error -/

/-- Bytes that begin no frame, on a decoder that is reset (R71, R72): each is `UnsupportedCommand`. -/
theorem feedEach_rejects : ∀ {bytes : List Byte} {s : State}, DecoderReset s →
    (∀ b ∈ bytes, bodyLen b = none) →
    DecoderReset (feedEach bytes s) ∧ (feedEach bytes s).ctx.inputBuf = s.ctx.inputBuf
      ∧ FedQuietly s (feedEach bytes s) (List.replicate bytes.length { result := .unsupportedCommand })
  | [], s, h, _ => ⟨h, rfl, .refl s⟩
  | b :: bytes, s, h, hb => by
    have run := feed_cmd_rejects h.1 (hb b List.mem_cons_self)
    have quiet := (resetDecoder_onlyDecoder s).fedQuietly { result := .unsupportedCommand }
    obtain ⟨reset, buf, rest⟩ := feedEach_rejects (bytes := bytes)
      (s := (resetDecoder s).answer { result := .unsupportedCommand }) ⟨rfl, rfl, rfl⟩
      fun x hx => hb x (List.mem_cons_of_mem _ hx)
    rw [feedEach, run]
    exact ⟨reset, buf, quiet.trans rest⟩

/-! ### The frame -/

theorem bodyLen_dataByte : ∀ d : Data7, bodyLen (dataByte d) = none := by decide

theorem bodyLen_sysexEnd : bodyLen Config.sysexEnd = none := by decide

/-- How a frame of a body and its terminator meets a buffer with room for `k` of its bytes: data bytes that fit, the
byte that does not, and bytes that begin no frame. -/
structure Overflows (k : Nat) (data : List Byte) (b : Byte) (rest : List Byte) : Prop where
  fits : data.length = k
  isData : ∀ x ∈ data, isCommand x = false
  last : isCommand b = false ∨ b = Config.sysexEnd
  after : ∀ x ∈ rest, bodyLen x = none

theorem sysex_overflows {body : List Data7} {k : Nat} (hk : k ≤ body.length) :
    ∃ data b rest, body.map dataByte ++ [Config.sysexEnd] = data ++ b :: rest ∧ Overflows k data b rest := by
  have fits : ((body.take k).map dataByte).length = k := by rw [List.length_map, List.length_take]; omega
  have isData : ∀ x ∈ (body.take k).map dataByte, isCommand x = false := fun x hx => by
    obtain ⟨d, -, rfl⟩ := List.mem_map.1 hx
    exact isCommand_dataByte d
  have whole : body.map dataByte = (body.take k).map dataByte ++ (body.drop k).map dataByte := by
    rw [← List.map_append, List.take_append_drop]
  cases hd : body.drop k with
  | nil => exact ⟨_, Config.sysexEnd, [], by rw [whole, hd]; simp, fits, isData, .inr rfl, by simp⟩
  | cons d more =>
    refine ⟨_, dataByte d, more.map dataByte ++ [Config.sysexEnd], by rw [whole, hd]; simp, fits, isData,
      .inl (isCommand_dataByte d), fun x hx => ?_⟩
    rw [List.mem_append, List.mem_map, List.mem_singleton] at hx
    obtain ⟨d, -, rfl⟩ | rfl := hx
    · exact bodyLen_dataByte d
    · exact bodyLen_sysexEnd

/-- A full buffer refuses the next byte of the frame (R73), and every byte after it is refused in CMD. -/
theorem SysexPending.feedEach_overflow {got rest : List Byte} {b : Byte} (h : SysexPending got s)
    (full : got.length = s.params.inCap) (hb : isCommand b = false ∨ b = Config.sysexEnd)
    (after : ∀ x ∈ rest, bodyLen x = none) :
    DecoderReset (feedEach (b :: rest) s) ∧ (feedEach (b :: rest) s).ctx.inputBuf = s.ctx.inputBuf
      ∧ FedQuietly s (feedEach (b :: rest) s)
        ({ result := .bufferFull } :: List.replicate rest.length { result := .unsupportedCommand }) := by
  have run := feed_data_full h.state (h.cursor.trans full) (hb.imp_right fun e => ⟨h.start, e⟩)
  have quiet := (resetDecoder_onlyDecoder s).fedQuietly { result := .bufferFull }
  obtain ⟨reset, buf, others⟩ := feedEach_rejects (bytes := rest)
    (s := (resetDecoder s).answer { result := .bufferFull }) ⟨rfl, rfl, rfl⟩ after
  rw [feedEach, run]
  exact ⟨reset, buf, quiet.trans others⟩

/-- Settles O40: the start byte and the data bytes that fit, the byte that does not, and the bytes after it. -/
theorem overlongSysexFramesFillTheBufferAndFail : Obligations.OverlongSysexFramesFillTheBufferAndFail := by
  intro s body hs hc long
  have cap := s.params.inCap_ge
  obtain ⟨data, b, rest, split, fits, isData, last, after⟩ :=
    sysex_overflows (body := body) (k := s.params.inCap - 1) (by omega)
  have restLen : rest.length = body.length + 1 - s.params.inCap := by
    have := congrArg List.length split
    simp only [List.length_append, List.length_map, List.length_cons, List.length_nil] at this
    omega
  have full : data.length + 1 = s.params.inCap := by omega
  obtain ⟨filled, fed⟩ := feedEach_sysexStart_data hs hc isData (Nat.le_of_eq full)
  obtain ⟨reset, buf, failed⟩ := filled.feedEach_overflow (full.trans (congrArg Params.inCap fed.params.symm)) last after
  have frame : feedEach (sysexFrame body) s = feedEach (b :: rest) (feedEach (Config.sysexStart :: data) s) := by
    rw [sysexFrame, split, ← List.cons_append, feedEach_append]
  have quiet := fed.trans failed
  refine ⟨_, (exec_sysex hs.1 body).trans (congrArg _ frame), reset, quiet.keeps, quiet.trace, quiet.output, ?_, ?_⟩
  · rw [quiet.replies, full, restLen]; simp
  · have cursor : (feedEach (Config.sysexStart :: data) s).ctx.inputCursor = s.params.inCap := filled.cursor.trans full
    rw [buf, ← cursor, filled.got, cursor]
    show _ = (Config.sysexStart :: (body.map dataByte ++ [Config.sysexEnd])).take s.params.inCap
    rw [split, ← List.cons_append, List.take_left' (l₁ := Config.sysexStart :: data) full]

end Sys2Proof.Machine
end

section
/-! SUPPORT. FEED row by row (40_frame_decoder.md R84), what a FEED that fails can have done (R72, R169), FEED_BULK
(R78), and the frame that comes in while another is pending (R80). -/

namespace Sys2Proof.Machine

variable {s : State} {b : Byte}

/-! ### The rows of R84 -/

/-- The reset does nothing to a decoder at rest (R25, R72). -/
theorem resetDecoder_of_cmd (hu : s.Usable) (hc : s.ctx.state = .cmd) : resetDecoder s = s := by
  obtain ⟨count, cursor, -⟩ := usable_cmd hu hc
  rw [resetDecoder, ← hc, ← count, ← cursor]
  rfl

theorem State.Usable.pending (hu : s.Usable) (hc : s.ctx.state = .cmdData) : Pending s.params s.ctx :=
  pendingFrame_iff.1 (usable_cmdData hu hc).1

theorem bodyLen_of_not_command (hb : isCommand b = false) : bodyLen b = none := by
  cases h : bodyLen b with
  | none => rfl
  | some n => rw [bodyLen_isCommand b n h] at hb; exact nomatch hb

/-- The state on the edge to READY: the byte that completes the frame is stored (R74, R75). -/
def frameReady (b : Byte) (count : Remaining) (s : State) : State :=
  s.setCtx ((s.ctx.pushIn b).setDecoder .ready count (s.ctx.inputCursor + 1))

/-- The edges out of READY: DISPATCH, then the reset, in the same FEED (R76, R90). -/
theorem completeByte_frameReady (b : Byte) (count : Remaining) (s : State) :
    completeByte (frameReady b count s)
      = ((dispatch (frameReady b count s)).1, resetDecoder (dispatch (frameReady b count s)).2) :=
  completeByte_ready rfl

/-- CMD to CMD_DATA: the command byte of a frame with a body. -/
theorem feed_cmd_begins {n : Remaining} (hu : s.Usable) (hc : s.ctx.state = .cmd) (hb : bodyLen b = some n)
    (hn : n ≠ .zero) : feed b s = (.ok, s.setCtx ((s.ctx.pushIn b).setDecoder .cmdData n 1)) := by
  rw [feed_cmd_accepts hc (usable_cmd hu hc).2.1 hb, if_neg hn]
  exact completeByte_not_ready (by simp)

/-- CMD to READY: the command byte of a frame without a body. -/
theorem feed_cmd_completes (hu : s.Usable) (hc : s.ctx.state = .cmd) (hb : bodyLen b = some .zero) :
    feed b s = completeByte (frameReady b .zero s) := by
  have cursor := (usable_cmd hu hc).2.1
  rw [feed_cmd_accepts hc cursor hb, if_pos rfl, frameReady, cursor]

/-- CMD_DATA to itself in a SysEx frame: stored, and never counted down (R74). -/
theorem feed_sysex_data (hc : s.ctx.state = .cmdData) (count : s.ctx.remainingCount = .unbounded)
    (hb : isCommand b = false) (room : s.ctx.inputCursor ≠ s.params.inCap) :
    feed b s = (.ok, s.setCtx (s.ctx.pushIn b)) := by
  simp only [feed_data_accepts hc hb room, countBodyByte, State.setCtx_ctx, Context.pushIn_remainingCount, count]
  exact completeByte_not_ready (by simp [hc])

/-- A body of known length is at most two bytes, and every input buffer has room for it (R25, D5). -/
theorem Pending.room {p : Params} {c : Context} (h : Pending p c) (bounded : c.remainingCount ≠ .unbounded) :
    c.inputCursor < p.inCap := by
  have cap := p.inCap_ge
  obtain ⟨-, count⟩ | ⟨-, -, cursor⟩ | ⟨-, -, cursor⟩ | ⟨-, -, cursor⟩ := h.count
  · exact absurd count bounded
  all_goals omega

/-- CMD_DATA to itself in a frame of known length: the first of two body bytes (R74). -/
theorem feed_first_of_two (hu : s.Usable) (hc : s.ctx.state = .cmdData) (count : s.ctx.remainingCount = .two)
    (hb : isCommand b = false) :
    feed b s = (.ok, s.setCtx ((s.ctx.pushIn b).setDecoder .cmdData .one (s.ctx.inputCursor + 1))) := by
  have room := (hu.pending hc).room (by simp [count])
  simp only [feed_data_accepts hc hb (Nat.ne_of_lt room), countBodyByte, State.setCtx_ctx, Context.pushIn_remainingCount, count,
    countDown, Context.pushIn_state, hc]
  exact completeByte_not_ready (by simp)

/-- CMD_DATA to READY in a frame of known length: the last body byte (R74). -/
theorem feed_last (hu : s.Usable) (hc : s.ctx.state = .cmdData) (count : s.ctx.remainingCount = .one)
    (hb : isCommand b = false) : feed b s = completeByte (frameReady b .zero s) := by
  have room := (hu.pending hc).room (by simp [count])
  simp only [feed_data_accepts hc hb (Nat.ne_of_lt room), countBodyByte, State.setCtx_ctx, Context.pushIn_remainingCount, count,
    countDown]
  rfl

/-- What the caller sees of a FEED that ended with a Result and a state. -/
def replied (x : Result × State) : State := x.2.answer { result := x.1 }

/-- Settles O27: each row by its lemma. -/
theorem feedFollowsTheTransitionTable : Obligations.FeedFollowsTheTransitionTable := by
  intro s b hs n sysex stored toCmd atReady dispatched
  have hu := hs.1
  have completed : ∀ count, replied (completeByte (frameReady b count s)) = dispatched count := fun count =>
    congrArg replied (completeByte_frameReady b count s)
  refine ⟨exec_init s, replied (feed b s), exec_feed hu b, fun hc hb => ?_, fun hc k hb hk => ?_, fun hc hb => ?_,
    fun hc hx hb room => ?_, fun hc hb hn => ?_, fun hc hx hb full => ?_, fun hc hx hb room => ?_,
    fun hc hx hb count => ?_, fun hc hx hb count => ?_⟩
  · rw [feed_cmd_rejects hc (hb.elim bodyLen_of_not_command id), resetDecoder_of_cmd hu hc]; rfl
  · rw [feed_cmd_begins hu hc hb hk, Context.pushIn, (usable_cmd hu hc).2.1]; rfl
  · exact ⟨(usable_cmd hu hc).2.1, by rw [feed_cmd_completes hu hc hb, completed]⟩
  · obtain rfl := hb
    have count := (hu.pending hc).unbounded_iff.2 hx
    rw [← completed, frameReady, ← count]
    exact congrArg replied (feed_terminator hc hx (Nat.ne_of_lt room))
  · exact congrArg replied (feed_data_rejects hc hb hn)
  · exact congrArg replied (feed_data_full hc full (hb.imp_right fun e => ⟨hx, e⟩))
  · exact congrArg replied (feed_sysex_data hc ((hu.pending hc).unbounded_iff.2 hx) hb (Nat.ne_of_lt room))
  · rw [feed_first_of_two hu hc count hb, ← hc]; rfl
  · rw [feed_last hu hc count hb, completed]

/-! ### A FEED that fails -/

theorem doValueIo_result (slot : CommandSlot) (s : State) :
    (doValueIo slot s).1 = .ok ∨ (doValueIo slot s).1 = .outOfBounds ∧ s.ctx.inputCursor < 3 := by
  unfold doValueIo decodePair
  by_cases inside : inBounds s.ctx.inputCursor 1 = true
  · rw [if_pos inside]; exact .inl rfl
  · rw [if_neg inside]
    refine .inr ⟨rfl, ?_⟩
    simp only [inBounds, Bool.and_eq_true, decide_eq_true_eq] at inside
    omega

theorem doSysex_result (s : State) :
    (doSysex s).1 = .ok ∨ (doSysex s).1 = .unsupportedCommand ∨ (doSysex s).1 = .invalidFrame := by
  unfold doSysex doAnalogMappingQuery doCapabilityQuery
  split
  · split
    · exact .inl rfl
    · exact .inr (.inr rfl)
  · split
    · split
      · exact .inl rfl
      · exact .inr (.inr rfl)
    · exact .inr (.inl rfl)

theorem bodyLen_of_value_nibble : ∀ c : Byte, hiNibble c = 0xE#4 ∨ hiNibble c = 0x9#4 → bodyLen c = some .two := by
  decide

/-- The Results of DISPATCH when the sink's do not propagate (R90 to R100): OutOfBounds only for an analog or digital IO
frame shorter than its three bytes. -/
theorem dispatch_result (quiet : s.params.sinkResultPropagates = false) :
    (dispatch s).1 = .ok ∨ (dispatch s).1 = .unsupportedCommand ∨ (dispatch s).1 = .invalidFrame
      ∨ (dispatch s).1 = .outOfBounds ∧ bodyLen (frameByte s 0) = some .two ∧ s.ctx.inputCursor < 3 := by
  have value : ∀ slot, hiNibble (frameByte s 0) = 0xE#4 ∨ hiNibble (frameByte s 0) = 0x9#4 →
      (doValueIo slot s).1 = .ok ∨ (doValueIo slot s).1 = .outOfBounds
        ∧ bodyLen (frameByte s 0) = some .two ∧ s.ctx.inputCursor < 3 := fun slot h =>
    (doValueIo_result slot s).imp_right fun ⟨result, short⟩ => ⟨result, bodyLen_of_value_nibble _ h, short⟩
  rw [dispatch]
  by_cases hE : hiNibble (frameByte s 0) = 0xE#4
  · rw [if_pos hE]; exact (value .analogIO (.inl hE)).imp_right (.inr ∘ .inr)
  by_cases h9 : hiNibble (frameByte s 0) = 0x9#4
  · rw [if_neg hE, if_pos h9]; exact (value .digitalIO (.inr h9)).imp_right (.inr ∘ .inr)
  rw [if_neg hE, if_neg h9]
  split
  · exact .inl rfl
  split
  · exact .inl rfl
  split
  · exact .inl rfl
  split
  · exact .inl rfl
  split
  · exact .inl (emitReply_result quiet)
  split
  · exact (doSysex_result s).imp_right (Or.imp_right .inl)
  · exact .inr (.inl rfl)

/-- FEED does not complete a frame with two body bytes before its third byte: it goes on, or it rejects (R74, R84). -/
theorem feed_short_result (hs : s.Inv)
    (two : bodyLen (memRead (memWrite s.ctx.inputBuf s.ctx.inputCursor b) 0) = some .two)
    (short : s.ctx.inputCursor < 2) : (feed b s).1 = .ok ∨ (feed b s).1 = .unsupportedCommand := by
  have hu := hs.1
  rw [Memory.read_write hs.inputWf] at two
  cases hc : s.ctx.state with
  | cmd =>
    rw [if_pos (usable_cmd hu hc).2.1.symm] at two
    rw [feed_cmd_begins hu hc two (by decide)]; exact .inl rfl
  | cmdData =>
    have pend := hu.pending hc
    have one := pend.one_le
    rw [if_neg (by omega)] at two
    have count : s.ctx.remainingCount = .two := by
      obtain ⟨hb, -⟩ | ⟨-, count, -⟩ | ⟨-, -, cursor⟩ | ⟨hb, -⟩ := pend.count
      · rw [hb] at two; exact nomatch two
      · exact count
      · omega
      · rw [hb] at two; exact nomatch two
    cases hb : isCommand b with
    | true =>
      rw [feed_data_rejects hc hb fun ⟨start, _⟩ => ?_]
      · exact .inr rfl
      · rw [← frameByte, start, bodyLen_sysexStart] at two; exact nomatch two
    | false => rw [feed_first_of_two hu hc count hb]; exact .inl rfl
  | ready => exact absurd hc (usable_not_ready hu)

/-- Where the sink's Results do not propagate, DISPATCH finds its error before it calls a handler or appends a byte
(R169). -/
theorem dispatch_state_of_error (quiet : s.params.sinkResultPropagates = false) (failed : (dispatch s).1 ≠ .ok) :
    (dispatch s).2 = s := by
  obtain ⟨e, -, eq⟩ | ⟨_, _, _, _, eq⟩ | ⟨_, _, _, eq⟩ | ⟨-, eq⟩ := dispatch_cases s
  · rw [eq]
  · exact absurd (congrArg Prod.fst eq) failed
  · exact absurd (congrArg Prod.fst eq) failed
  · exact absurd ((congrArg Prod.fst eq).trans (emitReply_result quiet)) failed

/-- The Results of FEED when the sink's do not propagate. -/
theorem feed_result (hs : s.Inv) (quiet : s.params.sinkResultPropagates = false) (b : Byte) :
    (feed b s).1 = .ok ∨ (feed b s).1 = .unsupportedCommand ∨ (feed b s).1 = .bufferFull
      ∨ (feed b s).1 = .invalidFrame := by
  cases feed_cases hs.1 b with
  | aborts e he eq => rw [eq]; exact .inr (he.imp_right .inl)
  | pends c eq => rw [eq]; exact .inl rfl
  | completes c eq out st buf cursor room =>
    have result : (feed b s).1 = (dispatch (s.setCtx c)).1 := by rw [eq]
    obtain h | h | h | ⟨-, two, short⟩ := dispatch_result (s := s.setCtx c) quiet
    · exact .inl (result.trans h)
    · exact .inr (.inl (result.trans h))
    · exact .inr (.inr (.inr (result.trans h)))
    · rw [frameByte, State.setCtx_ctx, buf] at two
      rw [State.setCtx_ctx, cursor] at short
      exact (feed_short_result hs two (by omega)).imp_right .inl

/-- A FEED that fails has changed the decoder and nothing beside it, and has reset it (R72, R77). -/
theorem feed_error_only_resets (hu : s.Usable) (quiet : s.params.sinkResultPropagates = false)
    (failed : (feed b s).1 ≠ .ok) : DecoderReset (feed b s).2 ∧ OnlyDecoderChanges s (feed b s).2 := by
  cases feed_cases hu b with
  | aborts e he eq => rw [eq]; exact ⟨⟨rfl, rfl, rfl⟩, resetDecoder_onlyDecoder s⟩
  | pends c eq => rw [eq] at failed; exact absurd rfl failed
  | completes c eq out =>
    obtain ⟨outBuf, outCursor, handlers, userData⟩ := out
    have stored : OnlyDecoderChanges s (s.setCtx c) :=
      ⟨c.state, c.remainingCount, c.inputCursor, c.inputBuf, by
        simp only [← outBuf, ← outCursor, ← handlers, ← userData]⟩
    rw [eq] at failed ⊢
    rw [dispatch_state_of_error (s := s.setCtx c) quiet failed]
    exact ⟨⟨rfl, rfl, rfl⟩, stored.setDecoder _ _ _⟩

/-- Settles O29: the reset, the one cell by `feed_inputBuf`, and the Results by `feed_result`. -/
theorem feedErrorsOnlyResetTheDecoder : Obligations.FeedErrorsOnlyResetTheDecoder := by
  intro s t b e hs quiet run reply failed
  rw [exec_feed hs.1] at run
  obtain rfl := Host.Outcome.next.inj run
  rw [Replies, State.answer_replies, (feed_frame hs.1 b).replies] at reply
  obtain rfl : (feed b s).1 = e := by simpa using reply
  obtain ⟨reset, only⟩ := feed_error_only_resets hs.1 quiet failed
  refine ⟨reset, ?_, fun a ha => feed_inputBuf hs b ha, (feed_result hs quiet b).resolve_left failed⟩
  obtain ⟨st, n, k, buf, eq⟩ := only
  rw [eq] at reset ⊢
  obtain ⟨rfl, rfl, rfl⟩ := reset
  rfl

/-! ### FEED_BULK -/

/-- Settles O31: the recursion of FEED_BULK, through `exec`. -/
theorem feedBulkIsFeedUntilTheFirstError : Obligations.FeedBulkIsFeedUntilTheFirstError := by
  intro s hs
  refine ⟨fun a => rfl, fun bytes => rfl, exec_feedBulk hs.1 [], fun b rest => ?_⟩
  have after := feed_inv hs b
  refine ⟨(feed b s).2, (feed b s).1, exec_feed hs.1 b, after, (feed_frame hs.1 b).replies, fun ok => ?_,
    fun failed => ?_, _, exec_feedBulk hs.1 _⟩
  · rw [exec_feedBulk hs.1, exec_feedBulk after.1, feedAll, if_pos ok]
  · rw [exec_feedBulk hs.1, exec_feed hs.1, feedAll, if_neg failed]

/-! ### A frame inside a frame -/

/-- Bytes that begin no frame, on a decoder just reset, leave only their replies (R71, R72). -/
theorem feedEach_resetDecoder : ∀ {bytes : List Byte} (s : State), (∀ x ∈ bytes, bodyLen x = none) →
    feedEach bytes (resetDecoder s)
      = (resetDecoder s).answers (List.replicate bytes.length { result := .unsupportedCommand })
  | [], s, _ => by simp [feedEach, State.answers]
  | x :: bytes, s, h => by
    have run : feed x (resetDecoder s) = (.unsupportedCommand, resetDecoder s) :=
      feed_cmd_rejects rfl (h x List.mem_cons_self)
    have rest := feedEach_resetDecoder (s.answer { result := .unsupportedCommand })
      fun y hy => h y (List.mem_cons_of_mem _ hy)
    rw [feedEach, run, List.length_cons, List.replicate_succ, ← State.answer_answers]
    exact rest

/-- A frame's bytes: a command byte that the map knows, and bytes that begin no frame. -/
def BeginsOnce (bytes : List Byte) : Prop :=
  ∃ c n rest, bytes = c :: rest ∧ bodyLen c = some n ∧ ∀ x ∈ rest, bodyLen x = none

/-- A frame that comes in while a frame is pending is lost, byte by byte (R80). -/
theorem BeginsOnce.lost {bytes : List Byte} (h : BeginsOnce bytes) (hc : s.ctx.state = .cmdData) :
    feedEach bytes s = (resetDecoder s).answers (List.replicate bytes.length { result := .unsupportedCommand }) := by
  obtain ⟨c, n, rest, rfl, hb, hrest⟩ := h
  have run := feed_data_rejects hc (bodyLen_isCommand c n hb) fun ⟨_, e⟩ => by
    rw [e, bodyLen_sysexEnd] at hb; exact nomatch hb
  have others := feedEach_resetDecoder (s.answer { result := .unsupportedCommand }) hrest
  rw [feedEach, run, List.length_cons, List.replicate_succ, ← State.answer_answers]
  exact others

/-- A command byte and data bytes (R51, F1 to F3). -/
theorem beginsOnce_fixed {c : Byte} {n : Remaining} (hb : bodyLen c = some n) (data : List Data7) :
    BeginsOnce (c :: data.map dataByte) :=
  ⟨c, n, _, rfl, hb, List.forall_mem_map.2 fun d _ => bodyLen_dataByte d⟩

theorem beginsOnce_valueFrame {base : Byte} (h : base = 0xE0#8 ∨ base = 0x90#8) (n : Nibble) (v : Value14) :
    BeginsOnce (valueFrame base n v) := by
  rw [valueFrame_eq]
  exact beginsOnce_fixed (bodyLen_value h n) [_, _]

theorem beginsOnce_sysexFrame (body : List Data7) : BeginsOnce (sysexFrame body) := by
  refine ⟨_, _, _, rfl, bodyLen_sysexStart, fun x hx => ?_⟩
  obtain hx | hx := List.mem_append.1 hx
  · obtain ⟨d, -, rfl⟩ := List.mem_map.1 hx
    exact bodyLen_dataByte d
  · rw [List.mem_singleton.1 hx]; exact bodyLen_sysexEnd

theorem length_sysexFrame (body : List Data7) : (sysexFrame body).length = body.length + 2 := by simp [sysexFrame]

/-- Settles O32: every frame row begins once, so it is lost; after it the decoder is at rest and takes the next command
byte. -/
theorem aFrameInsideAFrameIsLost : Obligations.AFrameInsideAFrameIsLost := by
  intro s hs hc reset failed
  have hu := hs.1
  have lost : ∀ {i : Instr} {bytes : List Byte}, exec i s = .next (feedEach bytes s) → BeginsOnce bytes →
      exec i s = .next (failed bytes.length) := fun run h => run.trans (congrArg _ (h.lost hc))
  have sysex : ∀ {i : Instr} {body : List Data7}, exec i s = .next (feedEach (sysexFrame body) s) →
      exec i s = .next (failed (body.length + 2)) := fun {_ body} run => by
    rw [lost run (beginsOnce_sysexFrame body), length_sysexFrame]
  refine ⟨fun channel value => lost (exec_analogIo hu channel value) (beginsOnce_valueFrame (.inl rfl) channel value),
    fun channel value => lost (exec_digitalIo hu channel value) (beginsOnce_valueFrame (.inr rfl) channel value),
    fun channel enabled => lost (exec_reportAnalog hu channel enabled)
      (beginsOnce_fixed (bodyLen_report (.inl rfl) channel) [enabled]),
    fun channel enabled => lost (exec_reportDigital hu channel enabled)
      (beginsOnce_fixed (bodyLen_report (.inr rfl) channel) [enabled]),
    fun pin mode => lost (exec_setPinMode hu pin mode) (beginsOnce_fixed (n := .two) rfl [pin, mode]),
    fun pin value => lost (exec_setPinValue hu pin value) (beginsOnce_fixed (n := .two) rfl [pin, value]),
    lost (exec_protocolVersion hu) (beginsOnce_fixed (n := .zero) rfl []),
    lost (exec_systemReset hu) (beginsOnce_fixed (n := .zero) rfl []),
    fun body => sysex (exec_sysex hu body), sysex (exec_analogMappingQuery hu), sysex (exec_capabilityQuery hu),
    fun k b n hb hn => ?_⟩
  have rest : (failed k).Usable := usable_of_reset rfl rfl rfl hs.output.cursor
  refine ⟨_, exec_feed rest b, ?_⟩
  rw [feed_cmd_begins rest rfl hb hn]
  exact ⟨rfl, rfl, rfl, rfl⟩

end Sys2Proof.Machine
end

section
/-! SUPPORT. The frames of 41_dispatch.md and 42_sysex.md delivered to a decoder in CMD: how the bytes come in until the
frame stands complete in READY, what DISPATCH finds there, and what the handler it calls can do. -/

namespace Sys2Proof.Machine

variable {s t u v : State}

/-! ### Where the bytes of a frame are stored -/

/-- FEED moves the input cursor on by one byte, or back to the start (R72, R73). -/
theorem feed_inputCursor_le (hu : s.Usable) (b : Byte) :
    (feed b s).2.ctx.inputCursor ≤ s.ctx.inputCursor + 1 := by
  cases feed_cases hu b with
  | aborts e he eq => rw [eq]; exact Nat.zero_le _
  | pends c eq out st buf cursor room => rw [eq]; exact Nat.le_of_eq cursor
  | completes c eq out st buf cursor room => rw [eq]; exact Nat.zero_le _

/-- Bytes fed leave every byte alone that lies beyond what they can fill from the cursor (R73). -/
theorem feedEach_inputBuf : ∀ {bytes : List Byte} {s : State}, s.Inv → ∀ {a : Nat},
    s.ctx.inputCursor + bytes.length ≤ a → memRead (feedEach bytes s).ctx.inputBuf a = memRead s.ctx.inputBuf a
  | [], _, _, _, _ => rfl
  | b :: rest, s, hs, a, ha => by
    rw [List.length_cons] at ha
    have cursor := feed_inputCursor_le hs.1 b
    have later := feedEach_inputBuf (bytes := rest) ((feed_inv hs b).answer { result := (feed b s).1 }) (a := a)
      (by rw [State.answer_ctx]; omega)
    exact later.trans (feed_inputBuf hs b (by omega))

/-- The bytes of `in` before the cursor are these. -/
def FrameIn (bytes : List Byte) (s : State) : Prop := memSlice s.ctx.inputBuf 0 s.ctx.inputCursor = bytes

theorem FrameIn.cursor {bytes : List Byte} (h : FrameIn bytes s) : s.ctx.inputCursor = bytes.length := by
  rw [← h, length_memSlice]

theorem getElem?_memSlice (m : Memory) : ∀ (a n k : Nat), k < n → (memSlice m a n)[k]? = some (memRead m (a + k))
  | _, 0, _, h => absurd h (Nat.not_lt_zero _)
  | _, _ + 1, 0, _ => rfl
  | a, n + 1, k + 1, h => by
    rw [memSlice_succ, List.getElem?_cons_succ, getElem?_memSlice m (a + 1) n k (by omega), Nat.add_assoc,
      Nat.add_comm 1]

/-- `in[k]` of a frame that has come in. -/
theorem FrameIn.read {bytes : List Byte} {b : Byte} {k : Nat} (h : FrameIn bytes s) (hk : bytes[k]? = some b) :
    frameByte s k = b := by
  have inside : k < s.ctx.inputCursor := by rw [h.cursor]; exact (List.getElem?_eq_some_iff.1 hk).1
  have read := getElem?_memSlice s.ctx.inputBuf 0 s.ctx.inputCursor k inside
  rw [h, hk, Nat.zero_add] at read
  exact (Option.some.inj read).symm

/-- The byte that completes a frame stands behind those that have come in (R73). -/
theorem FrameIn.push {got : List Byte} (h : FrameIn got s) (hs : s.Inv) (b : Byte) (count : Remaining) :
    FrameIn (got ++ [b]) (frameReady b count s) :=
  (memSlice_push hs.inputWf b _).trans (congrArg (· ++ [b]) h)

/-! ### The bytes before the last -/

/-- These bytes have come in since `s`, each was accepted, and nothing but the decoder and the replies shows it. -/
structure FrameComing (got : List Byte) (s u : State) : Prop where
  inv : u.Inv
  stored : FrameIn got u
  quiet : FedQuietly s u (List.replicate got.length { result := .ok })

theorem FrameComing.none (hs : s.Inv) (hc : s.ctx.state = .cmd) : FrameComing [] s s :=
  ⟨hs, by rw [FrameIn, (usable_cmd hs.1 hc).2.1, memSlice_zero], .refl s⟩

/-- An accepted byte that completes no frame. -/
theorem FrameComing.accepts {got : List Byte} {b : Byte} {st : DecoderState} {n : Remaining} (h : FrameComing got s u)
    (run : feed b u = (.ok, u.setCtx ((u.ctx.pushIn b).setDecoder st n (u.ctx.inputCursor + 1)))) :
    FrameComing (got ++ [b]) s (feedEach [b] u) := by
  have inv := feed_inv h.inv b
  have only : OnlyDecoderChanges u (feed b u).2 := by rw [run]; exact ⟨_, _, _, _, rfl⟩
  have quiet := h.quiet.trans (only.fedQuietly { result := (feed b u).1 })
  refine ⟨inv.answer _, ?_, ?_⟩
  · show FrameIn _ (feed b u).2
    rw [run]; exact h.stored.push h.inv b .zero
  · rw [run] at quiet
    rw [List.length_append, List.length_singleton, List.replicate_succ']
    rw [feedEach, run]
    exact quiet

/-- All bytes of the frame but the last have come in, and the count stands at this. -/
structure FrameMissing (n : Remaining) (got : List Byte) (s : State) : Prop where
  coming : FrameComing got s (feedEach got s)
  state : (feedEach got s).ctx.state = .cmdData
  count : (feedEach got s).ctx.remainingCount = n

/-- The command byte of a frame with a body. -/
theorem frameMissing_begin {c : Byte} {n : Remaining} (hs : s.Inv) (hc : s.ctx.state = .cmd) (hb : bodyLen c = some n)
    (hn : n ≠ .zero) : FrameMissing n [c] s := by
  have cursor := (usable_cmd hs.1 hc).2.1
  have run := feed_cmd_begins hs.1 hc hb hn
  rw [show 1 = s.ctx.inputCursor + 1 by rw [cursor]] at run
  refine ⟨(FrameComing.none hs hc).accepts run, ?_, ?_⟩ <;> rw [feedEach, run] <;> rfl

/-- The first of two body bytes. -/
theorem FrameMissing.first_of_two {got : List Byte} {b : Byte} (h : FrameMissing .two got s)
    (hb : isCommand b = false) :
    FrameMissing .one (got ++ [b]) s := by
  have run := feed_first_of_two h.coming.inv.1 h.state h.count hb
  refine ⟨?_, ?_, ?_⟩ <;> rw [feedEach_append]
  · exact h.coming.accepts run
  all_goals rw [feedEach, run]; rfl

/-! ### The whole frame -/

/-- What the caller sees of the FEED that completes the frame standing in `v`: DISPATCH, the reset, and the reply. -/
def dispatched (v : State) : State := (resetDecoder (dispatch v).2).answer { result := (dispatch v).1 }

/-- Delivered to `s`, the frame's bytes all come in, and it is dispatched in `v`. -/
structure FrameComplete (bytes : List Byte) (s v : State) : Prop where
  nonempty : 1 ≤ bytes.length
  stored : FrameIn bytes v
  quiet : FedQuietly s v (List.replicate (bytes.length - 1) { result := .ok })
  run : feedEach bytes s = dispatched v

/-- The last byte of a frame, whatever the count was (R75). -/
theorem FrameComing.complete {got : List Byte} {b : Byte} {count : Remaining}
    (h : FrameComing got s (feedEach got s))
    (last : feed b (feedEach got s) = completeByte (frameReady b count (feedEach got s))) :
    FrameComplete (got ++ [b]) s (frameReady b count (feedEach got s)) := by
  refine ⟨by simp, h.stored.push h.inv b count, ?_, ?_⟩
  · rw [List.length_append, List.length_singleton, Nat.add_sub_cancel]
    exact ⟨h.quiet.keeps, h.quiet.trace, h.quiet.output, h.quiet.replies⟩
  · rw [feedEach_append, feedEach, last, completeByte_frameReady]; rfl

/-- A frame without a body. -/
theorem frameComplete_bare {c : Byte} (hs : s.Inv) (hc : s.ctx.state = .cmd) (hb : bodyLen c = some .zero) :
    FrameComplete [c] s (frameReady c .zero s) :=
  FrameComing.complete (got := []) (.none hs hc) (feed_cmd_completes hs.1 hc hb)

theorem FrameMissing.complete {got : List Byte} (h : FrameMissing .one got s) (x : Data7) :
    ∃ v, FrameComplete (got ++ [dataByte x]) s v :=
  ⟨_, h.coming.complete (feed_last h.coming.inv.1 h.state h.count (isCommand_dataByte x))⟩

/-- A frame with one body byte. -/
theorem frameComplete_one {c : Byte} (hs : s.Inv) (hc : s.ctx.state = .cmd) (hb : bodyLen c = some .one) (x : Data7) :
    ∃ v, FrameComplete [c, dataByte x] s v :=
  (frameMissing_begin hs hc hb nofun).complete x

/-- A frame with two body bytes. -/
theorem frameComplete_two {c : Byte} (hs : s.Inv) (hc : s.ctx.state = .cmd) (hb : bodyLen c = some .two) (x y : Data7) :
    ∃ v, FrameComplete [c, dataByte x, dataByte y] s v :=
  ((frameMissing_begin hs hc hb nofun).first_of_two (isCommand_dataByte x)).complete y

/-- A SysEx frame that fits the input buffer. -/
theorem frameComplete_sysex {body : List Data7} (hs : s.Inv) (hc : s.ctx.state = .cmd)
    (fits : body.length + 2 ≤ s.params.inCap) : ∃ v, FrameComplete (sysexFrame body) s v := by
  have isData : ∀ b ∈ body.map dataByte, isCommand b = false := List.forall_mem_map.2 fun d _ => isCommand_dataByte d
  obtain ⟨pending, quiet⟩ := feedEach_sysexStart_data hs hc isData (by rw [List.length_map]; omega)
  have room : (feedEach (Config.sysexStart :: body.map dataByte) s).ctx.inputCursor
      ≠ (feedEach (Config.sysexStart :: body.map dataByte) s).params.inCap := by
    rw [pending.cursor, quiet.params, List.length_cons, List.length_map]; omega
  exact ⟨_, FrameComing.complete ⟨pending.inv, pending.got, quiet⟩ (feed_terminator pending.state pending.start room)⟩

/-! ### What the decoder shows of a delivered frame -/

/-- A delivered frame was consumed whole (R76): stored from the start of `in`, the decoder reset, one reply a byte, OK
for each but the last. -/
structure FrameTaken (bytes : List Byte) (r : Result) (s t : State) : Prop where
  reset : DecoderReset t
  stored : FrameStored bytes s t
  keeps : FeedKeeps s t
  replies : t.replies = s.replies ++ List.replicate (bytes.length - 1) { result := .ok } ++ [{ result := r }]

theorem FrameComplete.taken {bytes : List Byte} (h : FrameComplete bytes s v) (hs : s.Inv) (hc : s.ctx.state = .cmd) :
    FrameTaken bytes (dispatch v).1 s (feedEach bytes s) := by
  have cursor := (usable_cmd hs.1 hc).2.1
  have fr := dispatch_frame v
  obtain ⟨params, handlers, userData, requests⟩ := h.quiet.keeps
  refine ⟨?_, ⟨?_, fun a ha => feedEach_inputBuf hs (by omega)⟩, ?_, ?_⟩ <;> rw [h.run]
  · exact ⟨rfl, rfl, rfl⟩
  · show memSlice (dispatch v).2.ctx.inputBuf 0 bytes.length = bytes
    rw [fr.inputBuf, ← h.stored.cursor]; exact h.stored
  · exact ⟨fr.params.trans params, fr.handlers.trans handlers, fr.userData.trans userData, fr.requests.trans requests⟩
  · rw [← h.quiet.replies, ← fr.replies]; rfl

end Sys2Proof.Machine
end

section
/-! SUPPORT. The handlers that DISPATCH calls (41_dispatch.md R90 to R96, R98 to R104), and the statements about the
frames that do. -/

namespace Sys2Proof.Machine

variable {s t u v : State}

/-! ### What a call can do -/

/-- The trace grew by calls of the sink alone. -/
def TracesSinks (s t : State) : Prop := ∃ evs, t.trace = s.trace ++ evs ∧ ∀ e ∈ evs, (sinkChunk e).isSome = true

theorem TracesSinks.of_trace (h : t.trace = s.trace) : TracesSinks s t := ⟨[], by rw [h, List.append_nil], nofun⟩

theorem TracesSinks.trans (h : TracesSinks s t) (h' : TracesSinks t u) : TracesSinks s u := by
  obtain ⟨evs, e, sinks⟩ := h
  obtain ⟨evs', e', sinks'⟩ := h'
  exact ⟨evs ++ evs', by rw [e', e, List.append_assoc], fun x hx => (List.mem_append.1 hx).elim (sinks x) (sinks' x)⟩

/-- Every operation a handler may issue is an output operation or the codec's (R187). -/
theorem handlerOp_tracesSinks (op : HandlerOp) (s : State) : TracesSinks s (handlerOp op s).2 := by
  cases op with
  | append b => exact (append_frame b s).trace
  | flush => exact (flush_frame s).trace
  | sendAnalog pin value => exact (sendStatus_frame _ pin value s).trace
  | sendDigital port value => exact (sendStatus_frame _ port value s).trace
  | sendString str => exact (sendString_frame str s).trace
  | sendCapability recs => exact (sendCapability_frame recs s).trace
  | sendAnalogMapping map => exact (sendAnalogMapping_frame map s).trace
  | decode14 buf len offset => exact .of_trace rfl
  | encode14 buf len offset value =>
    show TracesSinks s (encode14 buf len offset value s).2
    obtain ⟨-, e⟩ | ⟨-, e⟩ := encode14_cases buf len offset value s <;> rw [e] <;> exact .of_trace rfl

theorem runScript_tracesSinks : ∀ (script : List HandlerOp) (s : State), TracesSinks s (runScript script s)
  | [], _ => .of_trace rfl
  | op :: rest, s => (handlerOp_tracesSinks op s).trans (runScript_tracesSinks rest (runHandlerOp op s))

theorem runNextScript_tracesSinks (s : State) : TracesSinks s (runNextScript s) := by
  unfold runNextScript
  split
  · exact .of_trace rfl
  · exact runScript_tracesSinks _ (s.setScripts _)

/-- `call h(...)` of a slot whose callback is invoked with the event `ev`, with none where the slot is absent (R104):
whatever happens beside the event is what the callback issues. -/
structure Calls (ev : Option Event) (s t : State) : Prop where
  trace : ∃ evs, t.trace = s.trace ++ ev.toList ++ evs ∧ ∀ e ∈ evs, (sinkChunk e).isSome = true
  silent : ev = none ∨ s.scripts = [] → t.trace = s.trace ++ ev.toList ∧ OutputKept s t

theorem Calls.nothing (s : State) : Calls none s s :=
  ⟨⟨[], by simp, nofun⟩, fun _ => ⟨by simp, .refl s⟩⟩

theorem Calls.invokes (e : Event) (s : State) : Calls (some e) s (runNextScript (s.emit e)) := by
  refine ⟨runNextScript_tracesSinks (s.emit e), fun h => ?_⟩
  have noScript : (s.emit e).scripts = [] := h.resolve_left nofun
  rw [runNextScript_nil noScript]
  exact ⟨rfl, .refl s⟩

/-- The event of a three-argument slot. -/
def commandEvent (slot : CommandSlot) (cmd a : Byte) (b : Half) (s : State) : Option Event :=
  (commandCallback s.ctx.handlers slot).map fun h => .handler slot h s.ctx.userData cmd a b

/-- The event of a query slot. -/
def queryEvent (slot : QuerySlot) (cmd id : Byte) (s : State) : Option Event :=
  (queryCallback s.ctx.handlers slot).map fun h => .query slot h s.ctx.userData cmd id

theorem callCommand_calls (slot : CommandSlot) (cmd a : Byte) (b : Half) (s : State) :
    Calls (commandEvent slot cmd a b s) s (callCommand slot cmd a b s) := by
  obtain ⟨absent, e⟩ | ⟨callee, present, e⟩ := callCommand_cases slot cmd a b s
  · rw [e, commandEvent, absent]; exact .nothing s
  · rw [e, commandEvent, present]; exact .invokes _ s

theorem callQuery_calls (slot : QuerySlot) (cmd id : Byte) (s : State) :
    Calls (queryEvent slot cmd id s) s (callQuery slot cmd id s) := by
  obtain ⟨absent, e⟩ | ⟨callee, present, e⟩ := callQuery_cases slot cmd id s
  · rw [e, queryEvent, absent]; exact .nothing s
  · rw [e, queryEvent, present]; exact .invokes _ s

/-- DISPATCH finds its errors before it calls or appends anything, the version query's apart (R97). -/
theorem dispatch_calls_of_error (notVersion : frameByte v 0 ≠ 0xF9#8) (failed : (dispatch v).1 ≠ .ok) :
    Calls none v (dispatch v).2 := by
  obtain ⟨e, -, eq⟩ | ⟨_, _, _, _, eq⟩ | ⟨_, _, _, eq⟩ | ⟨version, -⟩ := dispatch_cases v
  · rw [eq]; exact .nothing v
  · exact absurd (congrArg Prod.fst eq) failed
  · exact absurd (congrArg Prod.fst eq) failed
  · exact absurd version notVersion

/-- What the frame's last byte calls is all that its delivery calls. -/
theorem FrameComplete.calls {bytes : List Byte} {ev : Option Event} (h : FrameComplete bytes s v)
    (called : Calls ev v (dispatch v).2) : Calls ev s (feedEach bytes s) := by
  obtain ⟨-, traced, ⟨ob, oc, cm, sk, sc, hr⟩, -⟩ := h.quiet
  obtain ⟨trace, silent⟩ := called
  rw [traced] at trace silent
  refine ⟨?_, fun quiet => ?_⟩ <;> rw [h.run]
  · exact trace
  · obtain ⟨none, ob', oc', cm', sk', sc', hr'⟩ := silent (by rw [sc]; exact quiet)
    exact ⟨none, ob'.trans ob, oc'.trans oc, cm'.trans cm, sk'.trans sk, sc'.trans sc, hr'.trans hr⟩

/-- A complete frame whose DISPATCH is OK and calls is handled. -/
theorem FrameComplete.handled {i : Instr} {bytes : List Byte} {ev : Option Event} (h : FrameComplete bytes s v)
    (hs : s.Inv) (hc : s.ctx.state = .cmd) (word : encode s.params i = .wire bytes)
    (run : exec i s = .next (feedEach bytes s)) (ok : (dispatch v).1 = .ok) (called : Calls ev v (dispatch v).2) :
    FrameHandled i bytes ev s := by
  obtain ⟨reset, stored, keeps, replies⟩ := h.taken hs hc
  obtain ⟨trace, silent⟩ := h.calls called
  refine ⟨word, _, run, reset, stored, keeps, ?_, trace, silent⟩
  rw [replies, ok, List.append_assoc, ← List.replicate_succ', Nat.sub_add_cancel h.nonempty]

/-- A complete frame that DISPATCH hands to a three-argument slot. -/
theorem FrameComplete.commandHandled {i : Instr} {bytes : List Byte} {slot : CommandSlot} {cmd a : Byte} {b : Half}
    (h : FrameComplete bytes s v) (hs : s.Inv) (hc : s.ctx.state = .cmd) (word : encode s.params i = .wire bytes)
    (run : exec i s = .next (feedEach bytes s)) (call : dispatch v = (.ok, callCommand slot cmd a b v)) :
    FrameHandled i bytes (commandEvent slot cmd a b s) s := by
  obtain ⟨-, handlers, userData, -⟩ := h.quiet.keeps
  refine h.handled hs hc word run (by rw [call]) ?_
  rw [call, show commandEvent slot cmd a b s = commandEvent slot cmd a b v by
    rw [commandEvent, commandEvent, handlers, userData]]
  exact callCommand_calls slot cmd a b v

/-- A complete frame that DISPATCH hands to a query slot. -/
theorem FrameComplete.queryHandled {i : Instr} {bytes : List Byte} {slot : QuerySlot} {cmd id : Byte}
    (h : FrameComplete bytes s v) (hs : s.Inv) (hc : s.ctx.state = .cmd) (word : encode s.params i = .wire bytes)
    (run : exec i s = .next (feedEach bytes s)) (call : dispatch v = (.ok, callQuery slot cmd id v)) :
    FrameHandled i bytes (queryEvent slot cmd id s) s := by
  obtain ⟨-, handlers, userData, -⟩ := h.quiet.keeps
  refine h.handled hs hc word run (by rw [call]) ?_
  rw [call, show queryEvent slot cmd id s = queryEvent slot cmd id v by
    rw [queryEvent, queryEvent, handlers, userData]]
  exact callQuery_calls slot cmd id v

/-! ### The arms of DISPATCH (R90) -/

theorem dispatch_analogIo (h : hiNibble (frameByte v 0) = 0xE#4) : dispatch v = doAnalogIo v := if_pos h

theorem dispatch_digitalIo (h : hiNibble (frameByte v 0) = 0x9#4) : dispatch v = doDigitalIo v := by
  simp only [dispatch, h]; rfl

theorem dispatch_reportAnalog (h : hiNibble (frameByte v 0) = 0xC#4) : dispatch v = doReportAnalog v := by
  simp only [dispatch, h]; rfl

theorem dispatch_reportDigital (h : hiNibble (frameByte v 0) = 0xD#4) : dispatch v = doReportDigital v := by
  simp only [dispatch, h]; rfl

theorem dispatch_setPinMode (h : frameByte v 0 = 0xF4#8) : dispatch v = doSetPinMode v := by
  simp only [dispatch, h]; rfl

theorem dispatch_setPinValue (h : frameByte v 0 = 0xF5#8) : dispatch v = doSetPinValue v := by
  simp only [dispatch, h]; rfl

theorem dispatch_protocolVersion (h : frameByte v 0 = 0xF9#8) : dispatch v = doProtocolVersion v := by
  simp only [dispatch, h]; rfl

theorem dispatch_sysex (h : frameByte v 0 = Config.sysexStart) : dispatch v = doSysex v := by
  simp only [dispatch, h]; rfl

theorem dispatch_systemReset (h : frameByte v 0 = 0xFF#8) : dispatch v = (.unsupportedCommand, v) := by
  simp only [dispatch, h]; rfl

/-! ### The frames with a channel or a pin -/

/-- The channel a nibble command addresses (R52, R55). -/
theorem channelOf_nibbleCommand {base : Byte} (h : loNibble base = 0#4) (n : Nibble) :
    channelOf (nibbleCommand base n) = n.setWidth 8 := by rw [channelOf, loNibble_nibbleCommand h]

/-- DECODE14 of a frame's two payloads is its value (R56, R110). -/
theorem joinPair_value (value : Value14) :
    joinPair (dataByte (value.extractLsb' 0 7)) (dataByte (value.extractLsb' 7 7)) = value.setWidth 16 := by
  ext i hi
  by_cases h : i < 7
  · simp [joinPair, dataByte, h]
  · simp [joinPair, dataByte, h, show 7 + (i - 7) = i by omega]
    exact fun isSet => by have := BitVec.lt_of_getLsbD isSet; omega

/-- DO_ANALOG_IO and DO_DIGITAL_IO on a frame of three bytes (R91, R92). -/
theorem doValueIo_frame {base : Byte} (h : loNibble base = 0#4) {n : Nibble} {value : Value14}
    (stored : FrameIn (valueFrame base n value) v) (slot : CommandSlot) :
    doValueIo slot v
      = (.ok, callCommand slot (nibbleCommand base n) (n.setWidth 8) (value.setWidth 16) v) := by
  rw [valueFrame_eq] at stored
  have low : memRead v.ctx.inputBuf 1 = dataByte (value.extractLsb' 0 7) := stored.read (k := 1) rfl
  have high : memRead v.ctx.inputBuf 2 = dataByte (value.extractLsb' 7 7) := stored.read (k := 2) rfl
  have pair : decodePair v.ctx.inputBuf 0 v.ctx.inputCursor 1 = some (value.setWidth 16) := by
    rw [stored.cursor, ← joinPair_value, ← low, ← high]; rfl
  rw [doValueIo, pair, stored.read (k := 0) rfl, channelOf_nibbleCommand h]

/-- A value frame is handled by the slot that DISPATCH has for its command nibble. -/
theorem valueFrame_handled {i : Instr} {base : Byte} {slot : CommandSlot} (hb : base = 0xE0#8 ∨ base = 0x90#8)
    (hs : s.Inv) (hc : s.ctx.state = .cmd) {n : Nibble} {value : Value14}
    (word : encode s.params i = .wire (valueFrame base n value))
    (run : exec i s = .next (feedEach (valueFrame base n value) s))
    (arm : ∀ v, hiNibble (frameByte v 0) = hiNibble base → dispatch v = doValueIo slot v) :
    FrameHandled i (valueFrame base n value)
      (commandEvent slot (nibbleCommand base n) (n.setWidth 8) (value.setWidth 16) s) s := by
  have low : loNibble base = 0#4 := by rcases hb with rfl | rfl <;> rfl
  obtain ⟨v, complete⟩ := frameComplete_two hs hc (bodyLen_value hb n) (value.extractLsb' 0 7) (value.extractLsb' 7 7)
  rw [← valueFrame_eq] at complete
  have command : hiNibble (frameByte v 0) = hiNibble base := by
    rw [complete.stored.read (k := 0) rfl, hiNibble_nibbleCommand]
  exact complete.commandHandled hs hc word run ((arm v command).trans (doValueIo_frame low complete.stored slot))

/-- Settles O33: both rows by `valueFrame_handled`, through the arm of DISPATCH for the command nibble. -/
theorem valueFramesInvokeTheirHandlers : Obligations.ValueFramesInvokeTheirHandlers := by
  refine fun s hs hc => ⟨fun channel value => ?_, fun channel value => ?_⟩
  · have handled := valueFrame_handled (.inl rfl) hs hc rfl (exec_analogIo hs.1 channel value) fun _ =>
      dispatch_analogIo
    rw [valueFrame_eq] at handled
    exact handled
  · have handled := valueFrame_handled (.inr rfl) hs hc rfl (exec_digitalIo hs.1 channel value) fun _ =>
      dispatch_digitalIo
    rw [valueFrame_eq] at handled
    exact handled

/-- A report frame is handled by the slot that DISPATCH has for its command nibble; its body byte is not tested. -/
theorem reportFrame_handled {i : Instr} {base : Byte} {slot : CommandSlot} (hb : base = 0xC0#8 ∨ base = 0xD0#8)
    (hs : s.Inv) (hc : s.ctx.state = .cmd) {n : Nibble} {enabled : Data7}
    (word : encode s.params i = .wire (reportFrame base n enabled))
    (run : exec i s = .next (feedEach (reportFrame base n enabled) s))
    (arm : ∀ v, hiNibble (frameByte v 0) = hiNibble base → dispatch v
      = (.ok, callCommand slot (frameByte v 0) (channelOf (frameByte v 0)) (widen (frameByte v 1)) v)) :
    FrameHandled i (reportFrame base n enabled)
      (commandEvent slot (nibbleCommand base n) (n.setWidth 8) (widen (dataByte enabled)) s) s := by
  have low : loNibble base = 0#4 := by rcases hb with rfl | rfl <;> rfl
  obtain ⟨v, complete⟩ := frameComplete_one hs hc (bodyLen_report hb n) enabled
  have command : frameByte v 0 = nibbleCommand base n := complete.stored.read rfl
  refine complete.commandHandled hs hc word run ?_
  rw [arm v (by rw [command, hiNibble_nibbleCommand]), command, channelOf_nibbleCommand low,
    complete.stored.read (k := 1) rfl]

/-- A data byte widened to 16 bits is its payload widened (R55). -/
theorem widen_dataByte (d : Data7) : widen (dataByte d) = d.setWidth 16 :=
  BitVec.setWidth_setWidth (by decide)

/-- Settles O34: both rows by `reportFrame_handled`, through the arm of DISPATCH for the command nibble. -/
theorem reportFramesInvokeTheirHandlers : Obligations.ReportFramesInvokeTheirHandlers := by
  refine fun s hs hc => ⟨fun channel enabled => ?_, fun channel enabled => ?_⟩ <;> rw [← widen_dataByte]
  · exact reportFrame_handled (.inl rfl) hs hc rfl (exec_reportAnalog hs.1 channel enabled) fun _ =>
      dispatch_reportAnalog
  · exact reportFrame_handled (.inr rfl) hs hc rfl (exec_reportDigital hs.1 channel enabled) fun _ =>
      dispatch_reportDigital

/-- A set-pin frame is handled by the slot that DISPATCH has for its command byte. -/
theorem pinFrame_handled {i : Instr} {cmd : Byte} {slot : CommandSlot} (hb : bodyLen cmd = some .two)
    (hs : s.Inv) (hc : s.ctx.state = .cmd) {pin x : Data7} (word : encode s.params i = .wire (pinFrame cmd pin x))
    (run : exec i s = .next (feedEach (pinFrame cmd pin x) s))
    (arm : ∀ v, frameByte v 0 = cmd → dispatch v
      = (.ok, callCommand slot (frameByte v 0) (frameByte v 1) (widen (frameByte v 2)) v)) :
    FrameHandled i (pinFrame cmd pin x) (commandEvent slot cmd (dataByte pin) (widen (dataByte x)) s) s := by
  obtain ⟨v, complete⟩ := frameComplete_two hs hc hb pin x
  have command : frameByte v 0 = cmd := complete.stored.read rfl
  refine complete.commandHandled hs hc word run ?_
  rw [arm v command, command, complete.stored.read (k := 1) rfl, complete.stored.read (k := 2) rfl]

/-- Settles O35: both rows by `pinFrame_handled`, through the arm of DISPATCH for the command byte. -/
theorem pinFramesInvokeTheirHandlers : Obligations.PinFramesInvokeTheirHandlers := by
  refine fun s hs hc => ⟨fun pin mode => ?_, fun pin value => ?_⟩ <;> rw [← widen_dataByte]
  · exact pinFrame_handled rfl hs hc rfl (exec_setPinMode hs.1 pin mode) fun _ => dispatch_setPinMode
  · exact pinFrame_handled rfl hs hc rfl (exec_setPinValue hs.1 pin value) fun _ => dispatch_setPinValue

/-- The reset after the frame of one byte leaves that byte in `in[0]` and nothing else (R72). -/
theorem resetDecoder_frameReady (hu : s.Usable) (hc : s.ctx.state = .cmd) (b : Byte) (count : Remaining) :
    resetDecoder (frameReady b count s) = s.setCtx { s.ctx with inputBuf := memWrite s.ctx.inputBuf 0 b } := by
  have stored : resetDecoder (frameReady b count s) = (resetDecoder s).setCtx
      { (resetDecoder s).ctx with inputBuf := memWrite s.ctx.inputBuf s.ctx.inputCursor b } := rfl
  obtain ⟨-, cursor, -⟩ := usable_cmd hu hc
  rw [stored, resetDecoder_of_cmd hu hc, cursor]

/-- Settles O38: the frame's one byte is stored, and DISPATCH has no arm for it. -/
theorem systemResetFrameResetsNothing : Obligations.SystemResetFrameResetsNothing := by
  intro s hs hc
  have complete := frameComplete_bare hs hc (c := 0xFF#8) rfl
  refine ⟨rfl, ?_⟩
  rw [exec_systemReset hs.1, complete.run, dispatched, dispatch_systemReset (complete.stored.read rfl),
    resetDecoder_frameReady hs.1 hc]
  rfl

/-! ### The SysEx frames (R99 to R103) -/

/-- The body's first byte is the sub-id of one of the two queries (R58). -/
def QueryId (p : Params) (body : List Data7) : Prop :=
  body.head? = some p.analogMappingQueryId ∨ body.head? = some Config.capabilityQueryId

theorem dataByte_injective : Function.Injective dataByte := fun d d' h => by
  rw [← payload7_dataByte d, h, payload7_dataByte]

theorem FrameIn.dispatch_sysexFrame {body : List Data7} (h : FrameIn (sysexFrame body) v) : dispatch v = doSysex v :=
  dispatch_sysex (h.read rfl)

/-- An unknown sub-id, or none: the terminator stands in its place (R100). -/
theorem FrameIn.dispatch_unknown {body : List Data7} (h : FrameIn (sysexFrame body) v)
    (unknown : ¬ QueryId v.params body) : dispatch v = (.unsupportedCommand, v) := by
  have other : ∀ id : Data7, body.head? ≠ some id → frameByte v 1 ≠ dataByte id := fun id hne => by
    cases body with
    | nil =>
      rw [h.read (k := 1) (b := Config.sysexEnd) rfl]
      intro e
      exact absurd (e ▸ isCommand_dataByte id) (by decide)
    | cons d rest =>
      rw [h.read (k := 1) (b := dataByte d) rfl]
      exact fun e => hne (congrArg some (dataByte_injective e))
  rw [h.dispatch_sysexFrame, doSysex, if_neg (other _ (unknown ∘ .inl)), if_neg (other _ (unknown ∘ .inr))]

/-- The arm of DO_SYSEX for the mapping query (R101). -/
theorem FrameIn.dispatch_analogMappingQuery {rest : List Data7}
    (h : FrameIn (sysexFrame (v.params.analogMappingQueryId :: rest)) v) :
    dispatch v = doAnalogMappingQuery (dataByte v.params.analogMappingQueryId) v := by
  rw [h.dispatch_sysexFrame, doSysex, h.read (k := 1) rfl, if_pos rfl]

/-- The arm of DO_SYSEX for the capability query (R102), whose sub-id is not the mapping query's (D12). -/
theorem FrameIn.dispatch_capabilityQuery {rest : List Data7}
    (h : FrameIn (sysexFrame (Config.capabilityQueryId :: rest)) v) :
    dispatch v = doCapabilityQuery (dataByte Config.capabilityQueryId) v := by
  have other : dataByte Config.capabilityQueryId ≠ dataByte v.params.analogMappingQueryId := fun e =>
    v.params.mappingQuery_ne (dataByte_injective e).symm
  rw [h.dispatch_sysexFrame, doSysex, h.read (k := 1) rfl, if_neg other, if_pos rfl]

/-- A query with a payload fails, whether or not its handler is present (R100). -/
theorem FrameIn.dispatch_payload {body : List Data7} (h : FrameIn (sysexFrame body) v) (query : QueryId v.params body)
    (payload : body.length ≠ 1) : dispatch v = (.invalidFrame, v) := by
  have long : v.ctx.inputCursor ≠ 3 := by rw [h.cursor, length_sysexFrame]; omega
  obtain ⟨rest, rfl⟩ | ⟨rest, rfl⟩ := query.imp List.head?_eq_some_iff.1 List.head?_eq_some_iff.1
  · rw [h.dispatch_analogMappingQuery, doAnalogMappingQuery, if_neg long]
  · rw [h.dispatch_capabilityQuery, doCapabilityQuery, if_neg long]

/-- A bare query calls its slot (R101, R102). -/
theorem FrameIn.dispatch_bare {body : List Data7} (h : FrameIn (sysexFrame body) v) (query : QueryId v.params body)
    (bare : body.length = 1) : ∃ slot id, dispatch v = (.ok, callQuery slot Config.sysexStart id v) := by
  have short : v.ctx.inputCursor = 3 := by rw [h.cursor, length_sysexFrame, bare]
  obtain ⟨rest, rfl⟩ | ⟨rest, rfl⟩ := query.imp List.head?_eq_some_iff.1 List.head?_eq_some_iff.1
  · exact ⟨_, _, by rw [h.dispatch_analogMappingQuery, doAnalogMappingQuery, if_pos short]⟩
  · exact ⟨_, _, by rw [h.dispatch_capabilityQuery, doCapabilityQuery, if_pos short]⟩

/-- A SysEx frame is no version query. -/
theorem FrameIn.sysex_not_version {body : List Data7} (h : FrameIn (sysexFrame body) v) : frameByte v 0 ≠ 0xF9#8 := by
  rw [h.read (b := Config.sysexStart) rfl]; decide

/-- Settles O36: a bare query by the arm of its sub-id, one with a payload by `FrameIn.dispatch_payload`. -/
theorem queryFramesInvokeTheirHandlers : Obligations.QueryFramesInvokeTheirHandlers := by
  intro s hs hc
  have cap := s.params.inCap_ge
  refine ⟨?_, ?_, fun id payload known hne fits => ?_⟩
  · obtain ⟨v, complete⟩ := frameComplete_sysex hs hc (body := [s.params.analogMappingQueryId]) cap
    have stored := complete.stored
    rw [← complete.quiet.params] at stored
    refine complete.queryHandled hs hc rfl (exec_analogMappingQuery hs.1) ?_
    have bare : v.ctx.inputCursor = 3 := stored.cursor
    rw [stored.dispatch_analogMappingQuery, doAnalogMappingQuery, if_pos bare, complete.quiet.params]; rfl
  · obtain ⟨v, complete⟩ := frameComplete_sysex hs hc (body := [Config.capabilityQueryId]) cap
    refine complete.queryHandled hs hc rfl (exec_capabilityQuery hs.1) ?_
    have bare : v.ctx.inputCursor = 3 := complete.stored.cursor
    rw [complete.stored.dispatch_capabilityQuery, doCapabilityQuery, if_pos bare]; rfl
  · obtain ⟨v, complete⟩ := frameComplete_sysex hs hc (body := id :: payload) (by rw [List.length_cons]; omega)
    have query : QueryId v.params (id :: payload) := by
      rw [complete.quiet.params]; exact known.imp (congrArg some) (congrArg some)
    have failed := complete.stored.dispatch_payload query fun e => hne (List.length_eq_zero_iff.1 (Nat.succ.inj e))
    obtain ⟨reset, -, keeps, replies⟩ := complete.taken hs hc
    obtain ⟨trace, output⟩ := (complete.calls (by rw [failed]; exact .nothing v)).silent (.inl rfl)
    rw [failed, length_sysexFrame] at replies
    exact ⟨_, exec_sysex hs.1 _, reset, keeps, output, by rw [trace]; simp, replies⟩

/-- Settles O39: the Result is DISPATCH's, by the sub-id and then by the length; the errors call nothing. -/
theorem sysexFramesAreJudgedBySubIdThenLength : Obligations.SysexFramesAreJudgedBySubIdThenLength := by
  intro s body hs hc fits known
  obtain ⟨v, complete⟩ := frameComplete_sysex hs hc fits
  have query : QueryId v.params body ↔ known := by rw [complete.quiet.params]; rfl
  obtain ⟨reset, stored, keeps, replies⟩ := complete.taken hs hc
  rw [length_sysexFrame] at replies
  refine ⟨rfl, _, (dispatch v).1, exec_sysex hs.1 body, reset, keeps, stored, replies, fun unknown => ?_,
    fun hk payload => ?_, fun hk bare => ?_, fun failed => ?_, fun e => by rw [e]; rfl, fun e => by rw [e]; rfl⟩
  · rw [complete.stored.dispatch_unknown (unknown ∘ query.1)]
  · rw [complete.stored.dispatch_payload (query.2 hk) payload]
  · obtain ⟨slot, id, call⟩ := complete.stored.dispatch_bare (query.2 hk) bare
    rw [call]
  · have called := complete.calls (dispatch_calls_of_error complete.stored.sysex_not_version failed)
    obtain ⟨trace, output⟩ := called.silent (.inl rfl)
    exact ⟨by rw [trace]; simp, output⟩

end Sys2Proof.Machine
end

section
/-! SUPPORT. The version query (41_dispatch.md R97): in how many chunks a reply leaves, and whose Result it returns. -/

namespace Sys2Proof.Machine

variable {s t u : State} {callee : Callback}

/-! ### The chunks of a reply -/

/-- FLUSH with a sink and something pending calls the sink once (R121). -/
theorem flush_calls (sink : s.ctx.handlers.output = some callee) (pending : s.ctx.outputCursor ≠ 0) :
    flush s = (sinkAnswer s, ((s.emit (.sink callee s.ctx.userData (pendingOut s))).countSink).setCtx
      (s.ctx.setOutputCursor 0)) := by
  rw [flush, sink]
  exact if_neg pending

/-- FLUSH without a sink is OK (R122). -/
theorem flush_without_sink (sink : s.ctx.handlers.output = none) : (flush s).1 = .ok := by rw [flush, sink]

/-- APPENDs that all fit leave as one: none calls the sink (R120). -/
theorem appendAll_fits : ∀ {bytes : List Byte} {s : State}, s.ctx.outputCursor + bytes.length ≤ s.params.outCap →
    (appendAll bytes s).2.trace = s.trace
  | [], _, _ => rfl
  | b :: rest, s, fits => by
    rw [List.length_cons] at fits
    obtain ⟨-, e⟩ | ⟨full, -⟩ := append_cases b s
    · have later := appendAll_fits (bytes := rest) (s := storeOut b s)
        (show s.ctx.outputCursor + 1 + rest.length ≤ s.params.outCap by omega)
      rw [appendAll, andThen, e]
      exact later
    · omega

theorem OutputFrame.trace_length (fr : OutputFrame s t) : s.trace.length ≤ t.trace.length := by
  obtain ⟨evs, e, -⟩ := fr.trace
  rw [e, List.length_append]
  exact Nat.le_add_right _ _

/-- APPENDs that do not all fit call the sink on the way (R120). -/
theorem appendAll_overflows : ∀ {bytes : List Byte} {s : State}, s.ctx.handlers.output = some callee →
    s.ctx.outputCursor ≤ s.params.outCap → s.params.outCap < s.ctx.outputCursor + bytes.length →
    s.trace.length + 1 ≤ (appendAll bytes s).2.trace.length
  | [], _, _, inside, long => absurd long (Nat.not_lt_of_le inside)
  | b :: rest, s, sink, inside, long => by
    rw [List.length_cons] at long
    have cap := s.params.outCap_ge
    obtain ⟨room, e⟩ | ⟨full, e⟩ := append_cases b s
    · have later := appendAll_overflows (bytes := rest) (s := storeOut b s) sink
        (show s.ctx.outputCursor + 1 ≤ s.params.outCap by omega)
        (show s.params.outCap < s.ctx.outputCursor + 1 + rest.length by omega)
      rw [appendAll, andThen, e]
      exact later
    · have called : (append b s).2.trace.length = s.trace.length + 1 := by
        rw [e, flush_calls sink (by omega)]
        exact List.length_append
      rw [← called]
      exact (appendAll_frame rest _).trace_length

/-- After an APPEND something is pending (R120). -/
theorem appendAll_pending (bytes : List Byte) (b : Byte) (s : State) :
    (appendAll (bytes ++ [b]) s).2.ctx.outputCursor ≠ 0 := by
  rw [appendAll_append]
  exact (append_cell b _).2 ▸ Nat.succ_ne_zero _

/-- APPENDs that all fit stand behind what was pending. -/
theorem appendAll_fits_pendingOut {bytes : List Byte} (h : OutputOk s) (sink : HasSink s)
    (fits : s.ctx.outputCursor + bytes.length ≤ s.params.outCap) :
    pendingOut (appendAll bytes s).2 = pendingOut s ++ bytes := by
  have stream := appendAll_outbound (bytes := bytes) h sink
  have same : delivered (appendAll bytes s).2 = delivered s := by
    rw [delivered, delivered, chunks, chunks, appendAll_fits fits]
  rw [outbound, outbound, same, List.append_assoc] at stream
  exact List.append_cancel_left stream

/-! ### The engine's own reply -/

variable {bytes : List Byte} {b : Byte}

/-- A reply that calls the sink at its end calls it with what is then pending, and returns what it answers. -/
theorem emitReply_calls (sink : s.ctx.handlers.output = some callee) :
    emitReply (bytes ++ [b]) s = (sinkAnswer (appendAll (bytes ++ [b]) s).2,
      (((appendAll (bytes ++ [b]) s).2.emit (.sink callee s.ctx.userData
        (pendingOut (appendAll (bytes ++ [b]) s).2))).countSink).setCtx
          ((appendAll (bytes ++ [b]) s).2.ctx.setOutputCursor 0)) := by
  have fr := appendAll_frame (bytes ++ [b]) s
  rw [emitReply, flush_calls (fr.handlers ▸ sink) (appendAll_pending bytes b s), fr.userData]

/-- A reply that fits behind what is pending leaves in one chunk with it. -/
theorem emitReply_one_chunk (h : OutputOk s) (sink : s.ctx.handlers.output = some callee)
    (fits : s.ctx.outputCursor + (bytes ++ [b]).length ≤ s.params.outCap) :
    (emitReply (bytes ++ [b]) s).2.trace
      = s.trace ++ [.sink callee s.ctx.userData (pendingOut s ++ (bytes ++ [b]))] := by
  have present : HasSink s := by rw [HasSink, sink]; rfl
  rw [emitReply_calls sink, ← appendAll_fits_pendingOut h present fits, ← appendAll_fits fits]
  rfl

/-- A reply that does not fit leaves in more than one chunk. -/
theorem emitReply_two_chunks (h : OutputOk s) (sink : s.ctx.handlers.output = some callee)
    (long : s.params.outCap < s.ctx.outputCursor + (bytes ++ [b]).length) :
    s.trace.length + 2 ≤ (emitReply (bytes ++ [b]) s).2.trace.length := by
  have before := appendAll_overflows sink h.cursor long
  rw [emitReply_calls sink]
  show _ ≤ ((appendAll (bytes ++ [b]) s).2.trace ++ [_]).length
  rw [List.length_append, List.length_singleton]
  omega

theorem OnlySinkCalls.trace_of_no_sink (h : OnlySinkCalls s t) (sink : s.ctx.handlers.output = none) :
    t.trace = s.trace := by
  obtain ⟨evs, e, calls⟩ := h
  have none : evs = [] := List.eq_nil_iff_forall_not_mem.2 fun x hx => by
    obtain ⟨callee, _, present, -⟩ := calls x hx
    exact nomatch sink.symm.trans present
  rw [e, none, List.append_nil]

/-- Without a sink, or where the sink's Results do not propagate, a reply is OK (R123). -/
theorem emitReply_ok (h : s.ctx.handlers.output = none ∨ s.params.sinkResultPropagates = false) :
    (emitReply bytes s).1 = .ok :=
  h.elim (fun sink => flush_without_sink ((appendAll_frame bytes s).handlers ▸ sink)) emitReply_result

/-- Where they propagate, a reply returns what the sink answered in its last call (R97, R123). -/
theorem emitReply_propagates (sink : s.ctx.handlers.output = some callee)
    (propagates : s.params.sinkResultPropagates = true) :
    ∃ n, (emitReply (bytes ++ [b]) s).2.sinkCalls = n + 1
      ∧ (emitReply (bytes ++ [b]) s).1 = Config.sinkResult n := by
  have fr := appendAll_frame (bytes ++ [b]) s
  refine ⟨(appendAll (bytes ++ [b]) s).2.sinkCalls, ?_, ?_⟩ <;> rw [emitReply_calls sink]
  · rfl
  · rw [sinkAnswer, fr.params, if_pos propagates]

/-- How a reply of these bytes leaves, and the Result it returns (R97, R120 to R123). -/
structure ReplyLeaves (bytes : List Byte) (s : State) (x : Result × State) : Prop where
  frame : OutputFrame s x.2
  cursor : x.2.ctx.outputCursor = 0
  stream : HasSink s → delivered x.2 = outbound s ++ bytes
  oneChunk : ∀ callee, s.ctx.handlers.output = some callee → s.ctx.outputCursor + bytes.length ≤ s.params.outCap →
    x.2.trace = s.trace ++ [.sink callee s.ctx.userData (pendingOut s ++ bytes)]
  moreChunks : ∀ callee, s.ctx.handlers.output = some callee → s.params.outCap < s.ctx.outputCursor + bytes.length →
    s.trace.length + 2 ≤ x.2.trace.length
  sinks : OnlySinkCalls s x.2
  cells : OtherCellsKept bytes.length s x.2
  ok : s.ctx.handlers.output = none ∨ s.params.sinkResultPropagates = false → x.1 = .ok
  propagates : ∀ callee, s.ctx.handlers.output = some callee → s.params.sinkResultPropagates = true →
    ∃ n, x.2.sinkCalls = n + 1 ∧ x.1 = Config.sinkResult n

theorem emitReply_leaves (bytes : List Byte) (b : Byte) (h : OutputOk s) :
    ReplyLeaves (bytes ++ [b]) s (emitReply (bytes ++ [b]) s) where
  frame := emitReply_frame _ s
  cursor := emitMessage_outputCursor _ s
  stream := emitMessage_delivered h
  oneChunk _ := emitReply_one_chunk h
  moreChunks _ := emitReply_two_chunks h
  sinks := emitMessage_onlySinkCalls _ s
  cells := emitMessage_cells h
  ok := emitReply_ok
  propagates _ := emitReply_propagates

/-! ### The query -/

theorem FrameTaken.replies_singleton {c : Byte} {r : Result} (h : FrameTaken [c] r s t) : Replies s t r :=
  h.replies.trans (congrArg (· ++ _) (List.append_nil _))

/-- Settles O37: the query's one byte is dispatched to the reply, which leaves as `ReplyLeaves` says. -/
theorem versionQueryIsAnsweredThroughTheBuffer : Obligations.VersionQueryIsAnsweredThroughTheBuffer := by
  intro s hs hc
  have complete := frameComplete_bare hs hc (c := 0xF9#8) rfl
  have taken := complete.taken hs hc
  have run := exec_protocolVersion hs.1
  have leaves : ReplyLeaves versionMessage (frameReady 0xF9#8 .zero s) (dispatch (frameReady 0xF9#8 .zero s)) := by
    rw [dispatch_protocolVersion (complete.stored.read rfl)]
    exact emitReply_leaves [0xF9#8, Config.versionMajor] Config.versionMinor
      ⟨hs.output.cursor, hs.output.wf, hs.output.within⟩
  rw [complete.run, dispatched] at taken run
  generalize dispatch (frameReady 0xF9#8 .zero s) = reply at taken run leaves
  have sinks : OnlySinkCalls s reply.2 := leaves.sinks
  refine ⟨rfl, (exec_protocolVersion hs.1).trans (exec_feed hs.1 _).symm, _, run, taken.reset, taken.stored,
    taken.keeps, leaves.frame.callerMem, leaves.frame.scripts, leaves.cursor, leaves.stream, sinks.trace_of_no_sink,
    leaves.oneChunk, leaves.moreChunks, sinks, leaves.cells, fun quiet => ?_, fun sink propagates => ?_⟩
  · rw [← leaves.ok quiet]
    exact taken.replies_singleton
  · obtain ⟨callee, sink⟩ := Option.isSome_iff_exists.1 sink
    obtain ⟨n, calls, result⟩ := leaves.propagates callee sink propagates
    exact ⟨n, calls, by rw [← result]; exact taken.replies_singleton⟩

end Sys2Proof.Machine
end

section
/-! SUPPORT. The value codec (42_value_codec.md R110 to R112): what DECODE14 reads and ENCODE14 writes, on two bytes, on
a memory and as operations, and the statements about them. -/

namespace Sys2Proof.Machine

/-! ### Two bytes and the value they carry -/

/-- The bits of the mask of R112. -/
theorem getElem_mask14_half : ∀ i, (h : i < 16) → (0x3FFF#16)[i] = decide (i < 14) := by decide

/-- Masking to 14 bits is cutting the value to them. -/
theorem mask14_eq (value : Half) : value &&& 0x3FFF#16 = (value.setWidth 14).setWidth 16 := by
  ext i hi
  simp [getElem_mask14_half i hi, Bool.and_comm, BitVec.getLsbD_eq_getElem hi]

theorem low7_mask14 (value : Half) : low7 (value &&& 0x3FFF#16) = low7 value := by
  rw [low7, low7, BitVec.and_assoc]; rfl

theorem high7_mask14 (value : Half) : high7 (value &&& 0x3FFF#16) = high7 value := by
  rw [high7, high7, BitVec.ushiftRight_and_distrib, BitVec.and_assoc]; rfl

/-- Decoding the two bytes of a value gives its low 14 bits (R112). -/
theorem joinPair_low7_high7 (value : Half) : joinPair (low7 value) (high7 value) = value &&& 0x3FFF#16 := by
  rw [← low7_mask14, ← high7_mask14, mask14_eq, low7_value, high7_value, joinPair_value]

/-- A value of at most 14 bits is its own masking (R112). -/
theorem mask14_of_le {value : Half} (h : value ≤ 0x3FFF#16) : value &&& 0x3FFF#16 = value := by
  have small : value.toNat < 2 ^ 14 := Nat.lt_succ_of_le h
  rw [mask14_eq]
  exact BitVec.eq_of_toNat_eq (by simp; omega)

/-- Encoding the value of two data bytes gives the two bytes (R112). -/
theorem split_joinPair {lsb msb : Byte} (hl : lsb.msb = false) (hm : msb.msb = false) :
    low7 (joinPair lsb msb) = lsb ∧ high7 (joinPair lsb msb) = msb := by
  rw [← dataByte_payload7 lsb hl, ← dataByte_payload7 msb hm]
  obtain ⟨low, high⟩ := extract_pairValue (payload7 lsb) (payload7 msb)
  have joined := joinPair_value (pairValue (payload7 lsb) (payload7 msb))
  rw [low, high] at joined
  rw [joined, low7_value, high7_value, low, high]
  exact ⟨rfl, rfl⟩

/-! ### A pair of bytes in a memory -/

/-- The memory with the two bytes of a value at `a` and `a + 1` (R111). -/
def writePair (m : Memory) (a : Nat) (value : Half) : Memory :=
  memWrite (memWrite m a (low7 value)) (a + 1) (high7 value)

section
variable {m : Memory} (h : Memory.wf m = true) (a : Nat) (value : Half)
include h

theorem wf_writePair : Memory.wf (writePair m a value) = true := Memory.wf_memWrite (Memory.wf_memWrite h _ _) _ _

theorem memRead_writePair (a' : Nat) : memRead (writePair m a value) a'
    = if a' = a + 1 then high7 value else if a' = a then low7 value else memRead m a' := by
  rw [writePair, Memory.read_write (Memory.wf_memWrite h _ _), Memory.read_write h]

theorem memRead_writePair_low : memRead (writePair m a value) a = low7 value := by
  rw [memRead_writePair h, if_neg (by omega), if_pos rfl]

theorem memRead_writePair_high : memRead (writePair m a value) (a + 1) = high7 value := by
  rw [memRead_writePair h, if_pos rfl]

theorem memRead_writePair_other {a' : Nat} (ne : a' ≠ a) (ne' : a' ≠ a + 1) :
    memRead (writePair m a value) a' = memRead m a' := by
  rw [memRead_writePair h, if_neg ne', if_neg ne]

/-- Writing the bytes that stand there already changes nothing. -/
theorem writePair_same (low : low7 value = memRead m a) (high : high7 value = memRead m (a + 1)) :
    writePair m a value = m := by
  refine memory_ext (wf_writePair h a value) h fun a' => ?_
  rw [memRead_writePair h]
  split
  · next e => rw [high, e]
  · split
    · next e => rw [low, e]
    · rfl

end

/-! ### The two operations -/

theorem inBounds_iff {len : Nat} {offset : Int} : inBounds len offset = true ↔ 0 ≤ offset ∧ offset + 1 < (len : Int) := by
  rw [inBounds, Bool.and_eq_true, decide_eq_true_iff, decide_eq_true_iff]

/-- What DECODE14 answers (R110). -/
theorem decode14_eq (buf len : Nat) (offset : Int) (s : State) :
    decode14 buf len offset s = if 0 ≤ offset ∧ offset + 1 < (len : Int) then
      { result := .ok
        value := some (joinPair (memRead s.callerMem (buf + offset.toNat))
          (memRead s.callerMem (buf + offset.toNat + 1))) }
      else { result := .outOfBounds } := by
  rw [decode14, decodePair]
  by_cases inside : 0 ≤ offset ∧ offset + 1 < (len : Int)
  · rw [if_pos (inBounds_iff.2 inside), if_pos inside]
  · rw [if_neg (inside ∘ inBounds_iff.1), if_neg inside]

/-- ENCODE14 in bounds (R111). -/
theorem encode14_inside {len : Nat} {offset : Int} (inside : 0 ≤ offset ∧ offset + 1 < (len : Int)) (buf : Nat)
    (value : Half) (s : State) : encode14 buf len offset value s
      = (.ok, s.setCallerMem (writePair s.callerMem (buf + offset.toNat) value)) := by
  obtain ⟨-, e⟩ | ⟨outside, -⟩ := encode14_cases buf len offset value s
  · exact e
  · exact absurd (inBounds_iff.2 inside) (Bool.eq_false_iff.1 outside)

/-- ENCODE14 out of bounds (R111). -/
theorem encode14_outside {len : Nat} {offset : Int} (outside : ¬ (0 ≤ offset ∧ offset + 1 < (len : Int))) (buf : Nat)
    (value : Half) (s : State) : encode14 buf len offset value s = (.outOfBounds, s) := by
  obtain ⟨inside, -⟩ | ⟨-, e⟩ := encode14_cases buf len offset value s
  · exact absurd (inBounds_iff.1 inside) outside
  · exact e

/-- Settles O9: `exec` answers what `decode14_eq` says and leaves the state alone. -/
theorem decode14ReadsThePairOrIsOutOfBounds : Obligations.Decode14ReadsThePairOrIsOutOfBounds := by
  refine fun s buf len offset => ⟨fun _ => rfl, ?_⟩
  rw [exec_decode14, decode14_eq]
  rfl

/-- Settles O10, in bounds by the reads of `writePair`, out of bounds because the state is the same. -/
theorem encode14WritesThePairOrNothing : Obligations.Encode14WritesThePairOrNothing := by
  refine fun s buf len offset value hwf => ⟨fun _ => rfl, ?_⟩
  rw [exec_encode14]
  by_cases inside : 0 ≤ offset ∧ offset + 1 < (len : Int)
  · rw [encode14_inside inside]
    exact ⟨_, .ok, rfl, fun _ => ⟨rfl, memRead_writePair_low hwf _ value, memRead_writePair_high hwf _ value,
      fun _ => memRead_writePair_other hwf _ value⟩, fun outside => absurd inside outside⟩
  · rw [encode14_outside inside]
    exact ⟨s.callerMem, .outOfBounds, rfl, fun inside' => absurd inside' inside, fun _ => ⟨rfl, rfl⟩⟩

/-- DECODE14 after ENCODE14 at an offset in bounds (R112). -/
theorem decode14_after_encode14 {s : State} (hwf : Memory.wf s.callerMem = true) {len : Nat} {offset : Int}
    (inside : 0 ≤ offset ∧ offset + 1 < (len : Int)) (buf : Nat) (value : Half) (r : Reply) :
    decode14 buf len offset ((encode14 buf len offset value s).2.answer r)
      = { result := .ok, value := some (value &&& 0x3FFF#16) } := by
  rw [encode14_inside inside, decode14_eq, if_pos inside, State.answer_callerMem, State.setCallerMem_callerMem,
    memRead_writePair_low hwf, memRead_writePair_high hwf, joinPair_low7_high7]

/-- Settles O11: one direction is `decode14_after_encode14`; in the other, by `split_joinPair`, the bytes written after
the read are those that were read. -/
theorem codecRoundTripsBothWays : Obligations.CodecRoundTripsBothWays := by
  refine fun s buf len offset hwf h0 h1 => ⟨fun value => ?_, fun hl hm => ?_⟩
  · refine ⟨_, exec_encode14 buf len offset value s, ?_, mask14_of_le⟩
    rw [exec_decode14, decode14_after_encode14 hwf ⟨h0, h1⟩]
  · obtain ⟨low, high⟩ := split_joinPair hl hm
    refine ⟨_, _, _, exec_decode14 buf len offset s, by rw [decode14_eq, if_pos ⟨h0, h1⟩],
      exec_encode14 buf len offset _ _, ?_⟩
    rw [encode14_inside ⟨h0, h1⟩]
    exact writePair_same hwf _ _ low high

end Sys2Proof.Machine
end

section
/-! SUPPORT. APPEND and FLUSH (43_output_buffer.md R120 to R122): what each does in each of its cases, and the
statements about the two operations. -/

namespace Sys2Proof.Machine

variable {s t u : State} {callee : Callback}

/-! ### The cases of the two operations, one equation each -/

/-- FLUSH without a sink, or with nothing pending, resets the cursor (R121, R122). -/
theorem flush_silent (h : s.ctx.handlers.output = none ∨ s.ctx.outputCursor = 0) :
    flush s = (.ok, s.setCtx (s.ctx.setOutputCursor 0)) := by
  obtain ⟨-, e⟩ | ⟨callee, sink, pending, -⟩ := flush_cases s
  · exact e
  · rcases h with none | empty
    · exact nomatch sink.symm.trans none
    · exact absurd empty pending

/-- APPEND with room (R120). -/
theorem append_of_room (b : Byte) (h : s.ctx.outputCursor ≠ s.params.outCap) :
    append b s = (.ok, storeOut b s) := if_neg h

/-- APPEND to a full buffer (R120). -/
theorem append_of_full (b : Byte) (h : s.ctx.outputCursor = s.params.outCap) :
    append b s = ((flush s).1, storeOut b (flush s).2) := if_pos h

/-- A full buffer holds something (D5). -/
theorem outputCursor_ne_zero_of_full (h : s.ctx.outputCursor = s.params.outCap) : s.ctx.outputCursor ≠ 0 :=
  h ▸ Nat.ne_of_gt s.params.outCap_ge

/-- APPEND to a full buffer with a sink hands the whole buffer over first (R120, R121). -/
theorem append_of_full_calls (b : Byte) (h : s.ctx.outputCursor = s.params.outCap)
    (sink : s.ctx.handlers.output = some callee) :
    append b s = (sinkAnswer s, storeOut b (((s.emit (.sink callee s.ctx.userData (pendingOut s))).countSink).setCtx
      (s.ctx.setOutputCursor 0))) := by
  rw [append_of_full b h, flush_calls sink (outputCursor_ne_zero_of_full h)]

/-- Every byte of the buffer after an APPEND (R120). -/
theorem append_read (h : OutputOk s) (b : Byte) (a : Nat) : memRead (append b s).2.ctx.outputBuf a
    = if a = nextCell s then b else memRead s.ctx.outputBuf a := by
  rw [(append_cell b s).1, Memory.read_write h.wf]

/-- Settles O12: the cell by `append_cell`, the event and the Result by the equation of each case. -/
theorem appendStoresOneByteAfterFlushingAFullBuffer : Obligations.AppendStoresOneByteAfterFlushingAFullBuffer := by
  intro s b hs
  have cursor := (append_cell b s).2
  have read := append_read hs.output b
  refine ⟨fun _ => rfl, _, exec_append hs.1 b, (append_frame b s).only _, fun room => ?_, fun full => ?_⟩
  · rw [show nextCell s = s.ctx.outputCursor from if_neg room] at cursor read
    refine ⟨cursor, read, ?_⟩
    rw [append_of_room b room]
    exact ⟨rfl, rfl, rfl⟩
  · rw [show nextCell s = 0 from if_pos full] at cursor read
    refine ⟨cursor, read, fun none => ?_, fun callee sink => ?_⟩
    · rw [append_of_full b full, flush_silent (.inl none)]
      exact ⟨rfl, rfl, rfl⟩
    · rw [append_of_full_calls b full sink, ← full]
      exact ⟨rfl, rfl, rfl⟩

/-- Settles O13: the two equations of FLUSH, under `exec`. -/
theorem flushDeliversExactlyThePendingBytes : Obligations.FlushDeliversExactlyThePendingBytes := by
  refine fun s hu => ⟨fun _ => rfl, fun silent => ?_, fun callee sink pending => ?_⟩
  · rw [exec_flush hu, flush_silent silent.symm]; rfl
  · rw [exec_flush hu, flush_calls sink pending]; rfl

end Sys2Proof.Machine
end

section
/-! SUPPORT. The stream and its chunks (43_output_buffer.md R124, R125): any run of APPENDs and FLUSHes hands on
what was appended, and a message leaves in full chunks but the last. -/

namespace Sys2Proof.Machine

variable {s t u : State}

/-! ### The stream -/

/-- From `s` to `t` exactly these bytes went into the outbound stream, and `t` can go on. -/
structure Streamed (bytes : List Byte) (s t : State) : Prop where
  inv : t.Inv
  sink : HasSink t
  stream : outbound t = outbound s ++ bytes

theorem HasSink.answer (h : HasSink s) (r : Reply) : HasSink (s.answer r) := h

/-- The buffer operation of R124's sequences: an APPEND of a byte, or a FLUSH. -/
def bufferOp (op : Option Byte) : Instr := op.elim (.flush .present) fun b => .append .present b

theorem exec_bufferOp (hs : s.Inv) (sink : HasSink s) (op : Option Byte) :
    ∃ t, exec (bufferOp op) s = .next t ∧ Streamed op.toList s t := by
  cases op with
  | none =>
    have run := exec_flush hs.1
    exact ⟨_, run, exec_inv hs run, (sink.of_frame (flush_frame s)).answer _,
      (flush_outbound sink).trans (List.append_nil _).symm⟩
  | some b =>
    have run := exec_append hs.1 b
    exact ⟨_, run, exec_inv hs run, (sink.of_frame (append_frame b s)).answer _, append_outbound hs.output sink⟩

theorem execAll_cons {i : Instr} {rest : List Instr} (h : exec i s = .next t) :
    execAll (i :: rest) s = execAll rest t := by rw [execAll, h]

theorem execAll_bufferOps : ∀ (ops : List (Option Byte)) {s : State}, s.Inv → HasSink s → ∀ last : List Instr,
    ∃ t, execAll (ops.map bufferOp ++ last) s = execAll last t ∧ Streamed (ops.filterMap id) s t
  | [], s, hs, sink, _ => ⟨s, rfl, hs, sink, (List.append_nil _).symm⟩
  | op :: ops, s, hs, sink, last => by
    obtain ⟨u, first, mid⟩ := exec_bufferOp hs sink op
    obtain ⟨t, rest, done⟩ := execAll_bufferOps ops mid.inv mid.sink last
    refine ⟨t, (execAll_cons first).trans rest, done.inv, done.sink, ?_⟩
    rw [done.stream, mid.stream, List.append_assoc]
    cases op <;> rfl

theorem outbound_of_empty (h : s.ctx.outputCursor = 0) : outbound s = delivered s := by
  rw [outbound, pendingOut, h, memSlice_zero, List.append_nil]

/-- Settles O14: by induction on the sequence every operation streams its byte, and the last FLUSH delivers it all. -/
theorem chunkingIsInvisibleInTheConcatenation : Obligations.ChunkingIsInvisibleInTheConcatenation := by
  intro s ops hs empty sink
  obtain ⟨u, run, streamed⟩ := execAll_bufferOps ops hs sink [.flush .present]
  refine ⟨_, run.trans (execAll_cons (exec_flush streamed.inv.1)), ?_⟩
  rw [delivered_answer, flush_delivered streamed.sink, streamed.stream, outbound_of_empty empty]

/-! ### The chunks -/

/-- From `s` to `t` the sink was given these chunks. -/
def Chunked (cs : List (List Byte)) (s t : State) : Prop := chunks t = chunks s ++ cs

theorem Chunked.trans {cs ds : List (List Byte)} (h : Chunked cs s t) (h' : Chunked ds t u) :
    Chunked (cs ++ ds) s u := by
  rw [Chunked, h', h, List.append_assoc]

theorem chunks_flush (sink : HasSink s) (pending : s.ctx.outputCursor ≠ 0) :
    Chunked [pendingOut s] s (flush s).2 := by
  obtain ⟨callee, sink⟩ := Option.isSome_iff_exists.1 sink
  rw [flush_calls sink pending]
  exact List.filterMap_append

/-- Before the FLUSH at the end of a message only full buffers leave (R120). -/
theorem appendAll_chunks : ∀ (bytes : List Byte) {s : State}, HasSink s →
    ∃ cs, Chunked cs s (appendAll bytes s).2 ∧ ∀ c ∈ cs, c.length = s.params.outCap
  | [], s, _ => ⟨[], (List.append_nil _).symm, nofun⟩
  | b :: rest, s, sink => by
    have frame := append_frame b s
    obtain ⟨cs, later, full⟩ := appendAll_chunks rest (sink.of_frame frame)
    rw [frame.params] at full
    obtain ⟨-, e⟩ | ⟨atCap, e⟩ := append_cases b s
    · rw [e] at later
      exact ⟨cs, by rw [appendAll, andThen, e]; exact later, full⟩
    · have first : Chunked [pendingOut s] s (append b s).2 := by
        rw [e]; exact chunks_flush sink (outputCursor_ne_zero_of_full atCap)
      refine ⟨pendingOut s :: cs, first.trans later, fun c hc => ?_⟩
      rcases List.mem_cons.1 hc with rfl | hc
      · rw [pendingOut, length_memSlice, atCap]
      · exact full c hc

theorem length_flatten_full {α : Type} {n : Nat} {cs : List (List α)} (h : ∀ c ∈ cs, c.length = n) :
    cs.flatten.length = cs.length * n := by
  rw [List.length_flatten, List.map_congr_left h, List.map_const', List.sum_replicate_nat]

/-- A message to an empty buffer leaves in full chunks and one that is not empty (R125). -/
theorem emitMessage_chunks {bytes : List Byte} (hs : OutputOk s) (empty : s.ctx.outputCursor = 0) (sink : HasSink s)
    (hne : bytes ≠ []) :
    ∃ cs last, Chunked (cs ++ [last]) s (emitMessage bytes s).2 ∧ (cs ++ [last]).flatten = bytes
      ∧ (∀ c ∈ cs, c.length = s.params.outCap) ∧ 1 ≤ last.length ∧ last.length ≤ s.params.outCap := by
  have frame := appendAll_frame bytes s
  have pending : (appendAll bytes s).2.ctx.outputCursor ≠ 0 := by
    rw [← List.dropLast_concat_getLast hne]; exact appendAll_pending _ _ s
  obtain ⟨cs, before, full⟩ := appendAll_chunks bytes sink
  have all := before.trans (chunks_flush (sink.of_frame frame) pending)
  have stream : delivered (emitMessage bytes s).2 = delivered s ++ bytes := by
    rw [emitMessage_delivered hs sink, outbound_of_empty empty]
  refine ⟨cs, _, all, ?_, full, ?_, ?_⟩
  · rw [delivered, show chunks (emitMessage bytes s).2 = _ from all, List.flatten_append] at stream
    exact List.append_cancel_left stream
  · rw [pendingOut, length_memSlice]; exact Nat.pos_of_ne_zero pending
  · rw [pendingOut, length_memSlice, ← frame.params]; exact (appendAll_ok hs).cursor

/-- Settles O15: the operations do what the message does, and the number of its chunks follows from their lengths. -/
theorem messageLeavesInFullChunksButTheLast : Obligations.MessageLeavesInFullChunksButTheLast := by
  intro s bytes hs empty sink hne
  obtain ⟨rs, run, -⟩ := execAll_messageOps bytes hs.1
  obtain ⟨cs, last, all, flat, full, one, cap⟩ := emitMessage_chunks hs.output empty sink hne
  have total : bytes.length = cs.length * s.params.outCap + last.length := by
    rw [← flat, List.flatten_append, List.length_append, length_flatten_full full, List.flatten_singleton]
  refine ⟨_, cs, last, run, Eq.trans all (List.append_assoc _ _ _).symm, flat, full, by omega, one, cap, ?_⟩
  refine (Nat.div_eq_of_lt_le ?_ ?_).symm
  · rw [Nat.succ_mul]; omega
  · rw [Nat.succ_mul, Nat.succ_mul]; omega

end Sys2Proof.Machine
end

section
/-! SUPPORT. `SINK_RESULT_PROPAGATES` (43_output_buffer.md R123, D16): it decides what an output operation returns and
nothing of what it does. -/

namespace Sys2Proof.Machine

variable {s t : State}

/-! ### Two engines that differ in the parameter alone -/

/-- The same engine but for `SINK_RESULT_PROPAGATES`. -/
def State.withPropagates (s : State) (propagates : Bool) : State :=
  { s with params := { s.params with sinkResultPropagates := propagates } }

/-- What the operation does to the state does not depend on `SINK_RESULT_PROPAGATES`. -/
def EffectIgnoresPropagation {α : Type} (f : State → α × State) : Prop :=
  ∀ (s : State) (propagates : Bool), (f (s.withPropagates propagates)).2 = (f s).2.withPropagates propagates

theorem flush_effect : EffectIgnoresPropagation flush := fun s p => by
  obtain ⟨silent, e⟩ | ⟨callee, sink, pending, e⟩ := flush_cases s <;> rw [e]
  · rw [flush_silent (s := s.withPropagates p) silent]; rfl
  · rw [flush_calls (s := s.withPropagates p) sink pending]; rfl

theorem append_effect (b : Byte) : EffectIgnoresPropagation (append b) := fun s p => by
  obtain ⟨room, e⟩ | ⟨full, e⟩ := append_cases b s <;> rw [e]
  · rw [append_of_room (s := s.withPropagates p) b room]; rfl
  · rw [append_of_full (s := s.withPropagates p) b full, flush_effect s p]; rfl

theorem appendAll_effect : ∀ bytes, EffectIgnoresPropagation (appendAll bytes)
  | [] => fun _ _ => rfl
  | b :: rest => fun s p => by simp only [appendAll, andThen, append_effect b s p, appendAll_effect rest _ p]

theorem emitMessage_effect (bytes : List Byte) : EffectIgnoresPropagation (emitMessage bytes) := fun s p => by
  simp only [emitMessage, andThen, appendAll_effect bytes s p, flush_effect _ p]

theorem failMid_effect (e : Result) : EffectIgnoresPropagation (failMid e) := fun s p => by
  unfold failMid
  rw [flush_effect s p, show (s.withPropagates p).params.encFailPolicy = s.params.encFailPolicy from rfl]
  cases s.params.encFailPolicy <;> rfl

/-- Whether a checked message fails is a matter of its pieces, not of the Results on the way (R138). -/
theorem composeChecked_effect (head : List Byte) (pieces : List (Option (List Byte))) (tail : List Byte) :
    EffectIgnoresPropagation (composeChecked head pieces tail) := fun s p => by
  obtain ⟨valid, e⟩ | ⟨invalid, e⟩ := composeChecked_cases head pieces tail s
  · rw [e, composeChecked_valid valid, emitMessage_effect _ s p]
  · obtain ⟨valid, -⟩ | ⟨-, e'⟩ := composeChecked_cases head pieces tail (s.withPropagates p)
    · exact nomatch valid.symm.trans invalid
    · rw [e, e', appendAll_effect _ s p, failMid_effect _ _ p]

theorem sendStatus_effect (base pin : Byte) (value : Half) : EffectIgnoresPropagation (sendStatus base pin value) :=
  fun s p => by
    unfold sendStatus
    split
    · exact emitMessage_effect _ s p
    · rfl

theorem sendString_effect (str : List Byte) : EffectIgnoresPropagation (sendString str) := fun s p => by
  unfold sendString
  split
  · rfl
  · exact emitMessage_effect (stringMessage s.params str) s p

theorem capPieces_withPropagates (s : State) (p : Bool) : ∀ (previous : Option Byte) (recs : List CapRecord),
    capPieces (s.withPropagates p).params previous recs = capPieces s.params previous recs
  | _, [] => rfl
  | _, r :: rest => by simp only [capPieces, capPieces_withPropagates s p _ rest]; rfl

theorem sendCapability_effect (recs : List CapRecord) : EffectIgnoresPropagation (sendCapability recs) := fun s p => by
  unfold sendCapability
  split
  · rfl
  · rw [capPieces_withPropagates]
    exact composeChecked_effect _ _ _ s p

theorem sendAnalogMapping_effect (map : List Byte) : EffectIgnoresPropagation (sendAnalogMapping map) := fun s p => by
  unfold sendAnalogMapping
  split
  · rfl
  · exact composeChecked_effect _ _ _ s p

/-! ### Under `exec` -/

/-- An operation on a reference leaves the same state in both engines, and one reply each. -/
theorem withContext_effect {ctx : Ref} {f : State → Result × State} (frame : OutputFrame s (f s).2)
    (ignores : EffectIgnoresPropagation f) (h : withContext ctx s f = .next t) (p : Bool) :
    (∃ r, Replies s t r) ∧ ∃ r', withContext ctx (s.withPropagates p) f
      = .next { t with params := (s.withPropagates p).params, replies := s.replies ++ [{ result := r' }] } := by
  cases ctx with
  | absent =>
    obtain rfl := Host.Outcome.next.inj h
    exact ⟨⟨.nullReference, rfl⟩, .nullReference, rfl⟩
  | present =>
    have hu := (usable_of_enter_next (k := fun s => finishWith (f s)) h).1
    rw [withContext_usable hu] at h
    obtain rfl := Host.Outcome.next.inj h
    refine ⟨⟨(f s).1, congrArg (· ++ _) frame.replies⟩, (f (s.withPropagates p)).1, ?_⟩
    rw [withContext_usable (s := s.withPropagates p) hu, ignores s p]
    simp only [State.answer, State.withPropagates, frame.replies, frame.params]

/-- Settles O17: each output operation has the output frame and an effect that ignores the parameter. -/
theorem theSinksResultNeverChangesTheState : Obligations.TheSinksResultNeverChangesTheState := by
  intro i s t p hi h
  cases i with
  | append ctx b => exact withContext_effect (append_frame b s) (append_effect b) h p
  | flush ctx => exact withContext_effect (flush_frame s) flush_effect h p
  | sendAnalog ctx pin value =>
    exact withContext_effect (sendStatus_frame _ pin value s) (sendStatus_effect _ pin value) h p
  | sendDigital ctx port value =>
    exact withContext_effect (sendStatus_frame _ port value s) (sendStatus_effect _ port value) h p
  | sendString ctx str => exact withContext_effect (sendString_frame str s) (sendString_effect str) h p
  | sendCapability ctx recs =>
    exact withContext_effect (sendCapability_frame recs s) (sendCapability_effect recs) h p
  | sendAnalogMapping ctx map =>
    exact withContext_effect (sendAnalogMapping_frame map s) (sendAnalogMapping_effect map) h p
  | versionReply =>
    exact withContext_effect (ctx := .present) (emitReply_frame versionMessage s)
      (emitMessage_effect versionMessage) h p
  | stringData chars =>
    exact withContext_effect (ctx := .present) (f := fun s => emitMessage (stringMessage s.params chars) s)
      (emitMessage_frame _ s) (fun s => emitMessage_effect (stringMessage s.params chars) s) h p
  | analogMessage _ _ | digitalMessage _ _ | capabilityResponse _ | analogMappingResponse _ =>
    exact withContext_effect (ctx := .present) (emitMessage_frame _ s) (emitMessage_effect _) h p
  | _ => exact absurd hi Bool.false_ne_true

end Sys2Proof.Machine
end

section
/-! SUPPORT. What the sink's Results come back as under `SINK_RESULT_PROPAGATES` (43_output_buffer.md R123,
41_dispatch.md R97): the calls between two states, the first error of a composed message, and the last FLUSH of a
reply. -/

namespace Sys2Proof.Machine

variable {s t u : State}

/-! ### The calls of the sink between two states -/

/-- Each chunk from `s` to `t` is one call of the sink (log 11). -/
structure SinkCounted (s t : State) : Prop where
  le : s.sinkCalls ≤ t.sinkCalls
  calls : (chunks t).length + s.sinkCalls = (chunks s).length + t.sinkCalls

theorem SinkCounted.refl (s : State) : SinkCounted s s := ⟨Nat.le_refl _, rfl⟩

theorem SinkCounted.trans (h : SinkCounted s t) (h' : SinkCounted t u) : SinkCounted s u := by
  obtain ⟨le, calls⟩ := h
  obtain ⟨le', calls'⟩ := h'
  exact ⟨by omega, by omega⟩

theorem sinkResults_of_sinkCalls_eq (h : t.sinkCalls = s.sinkCalls) : sinkResults s t = [] := by
  simp [sinkResults, h]

theorem sinkResults_of_sinkCalls_succ (h : t.sinkCalls = s.sinkCalls + 1) :
    sinkResults s t = [Config.sinkResult s.sinkCalls] := by simp [sinkResults, h]

theorem SinkCounted.sinkResults_of_trace (h : SinkCounted s t) (trace : t.trace = s.trace) : sinkResults s t = [] := by
  have calls := h.calls
  rw [chunks, chunks, trace] at calls
  exact sinkResults_of_sinkCalls_eq (Nat.add_left_cancel calls).symm

theorem sinkResults_trans (h : SinkCounted s t) (h' : SinkCounted t u) :
    sinkResults s u = sinkResults s t ++ sinkResults t u := by
  have le := h.le
  have le' := h'.le
  have parts := List.range'_append_1 (s := s.sinkCalls) (m := t.sinkCalls - s.sinkCalls)
    (n := u.sinkCalls - t.sinkCalls)
  rw [Nat.add_sub_cancel' le, Nat.add_comm, Nat.sub_add_sub_cancel le' le] at parts
  rw [sinkResults, ← parts, List.map_append]
  rfl

/-! ### The first error of a composed message -/

/-- The first of these Results that is not OK, or OK (R123). -/
def firstNotOk (rs : List Result) : Result := (rs.find? fun r => decide (r ≠ .ok)).getD .ok

theorem firstNotOk_singleton (r : Result) : firstNotOk [r] = r := by cases r <;> rfl

theorem firstNotOk_append : ∀ rs rs' : List Result,
    firstNotOk (rs ++ rs') = firstError (firstNotOk rs) (firstNotOk rs')
  | [], _ => rfl
  | .ok :: rs, rs' => firstNotOk_append rs rs'
  | .nullReference :: _, _ | .unsupportedCommand :: _, _ | .invalidFrame :: _, _ | .outOfBounds :: _, _
  | .bufferFull :: _, _ | .invalidArgument :: _, _ => rfl

/-- The operation that led from `s` to this Result and state reports the first error of its sink calls (R123). -/
structure ReportsFirst (s : State) (x : Result × State) : Prop where
  counted : SinkCounted s x.2
  result : x.1 = firstNotOk (sinkResults s x.2)

/-- An operation that called no sink and is OK. -/
theorem ReportsFirst.silent (trace : t.trace = s.trace) (calls : t.sinkCalls = s.sinkCalls) :
    ReportsFirst s (.ok, t) :=
  ⟨⟨Nat.le_of_eq calls.symm, by rw [chunks, chunks, trace, calls]⟩,
    by rw [sinkResults_of_sinkCalls_eq calls]; rfl⟩

theorem ReportsFirst.andThen {x : Result × State} {f : State → Result × State} (h : ReportsFirst s x)
    (h' : ReportsFirst x.2 (f x.2)) : ReportsFirst s (andThen x f) := by
  refine ⟨h.counted.trans h'.counted, ?_⟩
  show firstError x.1 (f x.2).1 = firstNotOk (sinkResults s (f x.2).2)
  rw [sinkResults_trans h.counted h'.counted, firstNotOk_append, h.result, h'.result]

theorem flush_reports (propagates : s.params.sinkResultPropagates = true) : ReportsFirst s (flush s) := by
  obtain ⟨-, e⟩ | ⟨callee, -, -, e⟩ := flush_cases s <;> rw [e]
  · exact .silent rfl rfl
  · refine ⟨⟨Nat.le_succ _, ?_⟩, ?_⟩
    · simp [chunks, sinkChunk]; omega
    · rw [sinkResults_of_sinkCalls_succ rfl, firstNotOk_singleton]
      exact if_pos propagates

theorem append_reports (b : Byte) (propagates : s.params.sinkResultPropagates = true) :
    ReportsFirst s (append b s) := by
  obtain ⟨-, e⟩ | ⟨-, e⟩ := append_cases b s <;> rw [e]
  · exact .silent rfl rfl
  · obtain ⟨counted, result⟩ := flush_reports propagates
    exact ⟨⟨counted.le, counted.calls⟩, result⟩

theorem appendAll_reports : ∀ (bytes : List Byte) {s : State}, s.params.sinkResultPropagates = true →
    ReportsFirst s (appendAll bytes s)
  | [], _, _ => .silent rfl rfl
  | b :: rest, s, propagates =>
    (append_reports b propagates).andThen (appendAll_reports rest ((append_frame b s).params ▸ propagates))

theorem emitMessage_reports (bytes : List Byte) (propagates : s.params.sinkResultPropagates = true) :
    ReportsFirst s (emitMessage bytes s) :=
  (appendAll_reports bytes propagates).andThen (flush_reports ((appendAll_frame bytes s).params ▸ propagates))

/-! ### The last FLUSH of a reply -/

/-- The last of these Results, or OK (R97). -/
def lastResult (rs : List Result) : Result := rs.getLast?.getD .ok

theorem flush_sinkResults {callee : Callback} (propagates : s.params.sinkResultPropagates = true)
    (sink : s.ctx.handlers.output = some callee) (pending : s.ctx.outputCursor ≠ 0) :
    sinkResults s (flush s).2 = [(flush s).1] := by
  rw [flush_calls sink pending, sinkResults_of_sinkCalls_succ rfl, sinkAnswer, if_pos propagates]

theorem emitReply_counted (bytes : List Byte) (propagates : s.params.sinkResultPropagates = true) :
    SinkCounted s (emitReply bytes s).2 := (emitMessage_reports bytes propagates).counted

theorem emitReply_reports (bytes : List Byte) (b : Byte) (propagates : s.params.sinkResultPropagates = true) :
    (emitReply (bytes ++ [b]) s).1 = lastResult (sinkResults s (emitReply (bytes ++ [b]) s).2) := by
  have frame := appendAll_frame (bytes ++ [b]) s
  cases sink : s.ctx.handlers.output with
  | none =>
    have trace : (emitReply (bytes ++ [b]) s).2.trace = s.trace :=
      (emitMessage_onlySinkCalls (bytes ++ [b]) s).trace_of_no_sink sink
    rw [(emitReply_counted _ propagates).sinkResults_of_trace trace]
    exact emitReply_ok (.inl sink)
  | some callee =>
    rw [← frame.handlers] at sink
    have before := (appendAll_reports (bytes ++ [b]) propagates).counted
    rw [← frame.params] at propagates
    rw [emitReply, sinkResults_trans before (flush_reports propagates).counted,
      flush_sinkResults propagates sink (appendAll_pending bytes b s), lastResult, List.getLast?_concat]
    rfl

/-- The version query's byte is the reply, between a store and the decoder's reset (R97, R76). -/
theorem feed_versionQuery (hs : s.Inv) (hc : s.ctx.state = .cmd) :
    feed 0xF9#8 s = ((emitReply versionMessage (frameReady 0xF9#8 .zero s)).1,
      resetDecoder (emitReply versionMessage (frameReady 0xF9#8 .zero s)).2) := by
  have read := (frameComplete_bare hs hc (c := 0xF9#8) rfl).stored.read (k := 0) rfl
  rw [feed_cmd_completes hs.1 hc rfl, completeByte_frameReady, dispatch_protocolVersion read]
  rfl

/-! ### The instructions -/

theorem mapPieces_valid {map : List Byte} (h : ∀ e ∈ map, e = 0x7F#8 ∨ e ≤ 0x0F#8) :
    (mapPieces map).all Option.isSome = true := by
  simp only [mapPieces, List.all_map, List.all_eq_true, Function.comp_apply]
  intro e he
  rw [if_pos (mappingEntryValid_iff.2 (h e he))]
  rfl

/-- Where the instruction leads from `s` to `t`, the sink was called once a chunk, and the reply is what its answers
come to. -/
def Returns (s t : State) (i : Instr) (report : List Result → Result) : Prop := exec i s = .next t →
  (chunks t).length + s.sinkCalls = (chunks s).length + t.sinkCalls ∧ Replies s t (report (sinkResults s t))

theorem returns_of_answer {i : Instr} {x : Result × State} {report : List Result → Result}
    (run : exec i s = .next (x.2.answer { result := x.1 })) (replies : x.2.replies = s.replies)
    (counted : SinkCounted s x.2) (result : x.1 = report (sinkResults s x.2)) : Returns s t i report := fun h => by
  obtain rfl := Host.Outcome.next.inj (run.symm.trans h)
  refine ⟨counted.calls, ?_⟩
  show x.2.replies ++ [{ result := x.1 }] = _
  rw [replies, result]
  rfl

/-- An instruction that composes a message (R123). -/
theorem returns_of_emitMessage (propagates : s.params.sinkResultPropagates = true) {i : Instr} {x : Result × State}
    {bytes : List Byte} (composed : x = emitMessage bytes s)
    (run : exec i s = .next (x.2.answer { result := x.1 })) : Returns s t i firstNotOk := by
  subst composed
  obtain ⟨counted, result⟩ := emitMessage_reports bytes propagates
  exact returns_of_answer run (emitMessage_frame bytes s).replies counted result

theorem versionMessage_reports (propagates : s.params.sinkResultPropagates = true) :
    (emitReply versionMessage s).1 = lastResult (sinkResults s (emitReply versionMessage s).2) :=
  emitReply_reports [0xF9#8, Config.versionMajor] Config.versionMinor propagates

theorem versionReply_returns (hu : s.Usable) (propagates : s.params.sinkResultPropagates = true) :
    Returns s t .versionReply lastResult :=
  returns_of_answer (exec_versionReply hu) (emitReply_frame versionMessage s).replies
    (emitReply_counted versionMessage propagates) (versionMessage_reports propagates)

theorem feed_versionQuery_returns (hs : s.Inv) (hc : s.ctx.state = .cmd)
    (propagates : s.params.sinkResultPropagates = true) : Returns s t (.feed .present 0xF9#8) lastResult := by
  have run := exec_feed hs.1 0xF9#8
  rw [feed_versionQuery hs hc] at run
  obtain ⟨le, calls⟩ := emitReply_counted (s := frameReady 0xF9#8 .zero s) versionMessage propagates
  exact returns_of_answer run (emitReply_frame versionMessage (frameReady 0xF9#8 .zero s)).replies ⟨le, calls⟩
    (versionMessage_reports (s := frameReady 0xF9#8 .zero s) propagates)

/-- The query run as a frame is the FEED of its byte (R51). -/
theorem exec_protocolVersion_eq_feed (hu : s.Usable) : exec .protocolVersion s = exec (.feed .present 0xF9#8) s :=
  (exec_protocolVersion hu).trans (exec_feed hu _).symm

/-- Settles O51: composed messages by `returns_of_emitMessage`, the replies by `emitReply_reports`. -/
theorem theSinksResultsComeBackAsTheRulesSay : Obligations.TheSinksResultsComeBackAsTheRulesSay := by
  intro s t hs propagates
  have message {i x bytes} := returns_of_emitMessage (t := t) propagates (i := i) (x := x) (bytes := bytes)
  refine ⟨fun pin value hp hv => ?_, fun port value hp hv => ?_, fun str hne => ?_, fun recs hne valid => ?_,
    fun map hne valid => ?_, fun pin value => ?_, fun port value => ?_, fun chars => ?_, fun groups => ?_,
    fun entries => ?_, versionReply_returns hs.1 propagates,
    fun hc => ⟨fun run => ?_, feed_versionQuery_returns hs hc propagates⟩⟩
  · exact message (if_pos (statusInRange_iff.2 ⟨hp, hv⟩)) (exec_sendAnalog hs.1 pin value)
  · exact message (if_pos (statusInRange_iff.2 ⟨hp, hv⟩)) (exec_sendDigital hs.1 port value)
  · exact message (if_neg hne) (exec_sendString hs.1 str)
  · exact message ((if_neg hne).trans (composeChecked_valid (capPieces_valid none valid) _ _ s))
      (exec_sendCapability hs.1 recs)
  · exact message ((if_neg hne).trans (composeChecked_valid (mapPieces_valid valid) _ _ s))
      (exec_sendAnalogMapping hs.1 map)
  · exact message rfl (exec_analogMessage hs.1 pin value)
  · exact message rfl (exec_digitalMessage hs.1 port value)
  · exact message rfl (exec_stringData hs.1 chars)
  · exact message rfl (exec_capabilityResponse hs.1 groups)
  · exact message rfl (exec_analogMappingResponse hs.1 entries)
  · exact feed_versionQuery_returns hs hc propagates ((exec_protocolVersion_eq_feed hs.1).symm.trans run)

end Sys2Proof.Machine
end

section
/-! SUPPORT. A composite encoder that fails in mid-message (44_output_encoders.md R137, R138): the pieces before the
invalid one, the APPENDs they are, and FAIL_MID by `ENC_FAIL_POLICY`. -/

namespace Sys2Proof.Machine

variable {s t : State}

/-! ### FAIL_MID, one equation for each policy -/

theorem failMid_result (e : Result) (s : State) : (failMid e s).1 = e := by
  unfold failMid
  split <;> rfl

theorem failMid_leave (h : s.params.encFailPolicy = .leave) (e : Result) : failMid e s = (e, s) := by
  rw [failMid, h]

theorem failMid_flush (h : s.params.encFailPolicy = .flush) (e : Result) : failMid e s = (e, (flush s).2) := by
  rw [failMid, h]

theorem failMid_discard (h : s.params.encFailPolicy = .discard) (e : Result) :
    failMid e s = (e, s.setCtx (s.ctx.setOutputCursor 0)) := by
  rw [failMid, h]

/-- Only `leave` keeps the bytes that are still buffered (R138). -/
theorem failMid_outputCursor (h : s.params.encFailPolicy ≠ .leave) (e : Result) :
    (failMid e s).2.ctx.outputCursor = 0 := by
  cases policy : s.params.encFailPolicy with
  | leave => exact absurd policy h
  | flush => rw [failMid_flush policy]; exact flush_outputCursor s
  | discard => rw [failMid_discard policy]; rfl

/-! ### The APPENDs before the failure, run one by one -/

/-- `IgnoresRest.answer` for any number of replies. -/
theorem IgnoresRest.answers {f : State → Result × State} (hf : IgnoresRest f) (frame : ∀ s, OutputFrame s (f s).2) :
    ∀ (rs : List Reply) (s : State), f (s.answers rs) = ((f s).1, (f s).2.answers rs)
  | [], s => by simp [State.answers]
  | r :: rs, s => by
    rw [← State.answer_answers, hf.answers frame rs, hf.answer frame, State.answer_answers]

/-- Run one by one, the APPENDs do what `appendAll` does, but for their replies. -/
theorem execAll_appends : ∀ (bytes : List Byte) {s : State}, s.Usable →
    ∃ rs, execAll (bytes.map fun b => .append .present b) s = .next ((appendAll bytes s).2.answers rs)
  | [], s, _ => ⟨[], by simp [execAll, appendAll, State.answers]⟩
  | b :: rest, s, hu => by
    have usable : ((append b s).2.answer { result := (append b s).1 }).Usable := append_usable b hu
    obtain ⟨rs, run⟩ := execAll_appends rest usable
    rw [(appendAll_ignores rest).answer (appendAll_frame rest), State.answer_answers] at run
    exact ⟨_, (execAll_cons (exec_append hu b)).trans run⟩

/-! ### The failure -/

/-- The reply after those of `s`, whatever replies `rs` it is written over. -/
theorem State.answer_eq_of_replies (h : t.replies = s.replies) (rs : List Reply) (r : Reply) :
    t.answer r = { t.answers rs with replies := s.replies ++ [r] } := by
  rw [← h]; rfl

/-- An instruction that appends `sent` and then takes FAIL_MID fails in mid-message (R137, R138). -/
theorem failsMidMessage_of_failMid {i : Instr} {sent : List Byte} {x : Result × State} (hs : s.Inv)
    (failed : x = failMid .invalidArgument (appendAll sent s).2)
    (run : exec i s = .next (x.2.answer { result := x.1 })) : FailsMidMessage i sent s := by
  have appended := appendAll_frame sent s
  have ending := failMid_ending .invalidArgument (appendAll sent s).2
  have ok : OutputOk (appendAll sent s).2 := appendAll_ok hs.output
  have usable : (appendAll sent s).2.Usable := (hs.of_output appended ok).1
  have frame := appended.trans ending.frame
  have sinks := (appendAll_onlySinkCalls sent s).trans appended ending.onlySinkCalls
  have reply {u : State} (h : OutputFrame s u) := State.answer_eq_of_replies h.replies
  obtain ⟨rs, appends⟩ := execAll_appends sent hs.1
  subst failed
  rw [failMid_result] at run
  unfold FailsMidMessage
  rw [← appended.params]
  refine ⟨_, run, frame.only _, congrArg (· ++ _) frame.replies, fun a ha => ?_,
    ⟨_, appends, fun leave => ?_, fun flushes => ?_, fun discard => ?_⟩,
    fun policy => failMid_outputCursor policy _, sinks.trace_of_no_sink,
    fun sink => ⟨fun leave => ?_, fun flushes => ?_, fun discard => ?_⟩⟩
  · rw [State.answer_ctx, ending.outputBuf]
    exact appendAll_cells hs.output a ha
  · rw [failMid_leave leave]
    exact reply appended rs _
  · refine ⟨_, exec_flush (s := (appendAll sent s).2.answers rs) usable, ?_⟩
    rw [failMid_flush flushes, flush_ignores.answers flush_frame]
    exact reply (appended.trans (flush_frame _)) rs _
  · rw [failMid_discard discard] at frame ⊢
    exact reply frame rs _
  · rw [failMid_leave leave]
    exact appendAll_outbound hs.output sink
  · rw [failMid_flush flushes, delivered_answer, flush_delivered (HasSink.of_frame appended sink)]
    exact appendAll_outbound hs.output sink
  · rw [failMid_discard discard]
    refine ⟨pendingOut (appendAll sent s).2, appendAll_outbound hs.output sink, ?_⟩
    rw [pendingOut, length_memSlice]
    exact ok.cursor

/-! ### The pieces before the first invalid one -/

theorem validBytes_append_none (later : List (Option (List Byte))) :
    ∀ pieces, validBytes (pieces ++ none :: later) = validBytes pieces
  | [] => rfl
  | none :: _ => rfl
  | some bytes :: rest => congrArg (bytes ++ ·) (validBytes_append_none later rest)

/-- A checked message with an invalid piece appends the head and the valid pieces before it, and takes FAIL_MID. -/
theorem composeChecked_invalid (head : List Byte) (pieces later : List (Option (List Byte))) (tail : List Byte)
    (s : State) : composeChecked head (pieces ++ none :: later) tail s
      = failMid .invalidArgument (appendAll (head ++ validBytes pieces) s).2 := by
  obtain ⟨valid, -⟩ | ⟨-, e⟩ := composeChecked_cases head (pieces ++ none :: later) tail s
  · simp at valid
  · rw [e, validBytes_append_none]

end Sys2Proof.Machine
end

section
/-! SUPPORT. The composite encoders (44_output_encoders.md R131 to R135): what each sends on arguments that pass its
validation, what it refuses, and where the two that validate on the way fail. -/

namespace Sys2Proof.Machine

variable {s : State} {i : Instr} {x : Result × State}

/-! ### From what an encoder composes to what the instruction does -/

/-- An encoder that composes a message sends it (R130). -/
theorem sendsMessage_of_composes {bytes : List Byte} (hs : s.Inv) (composed : x = emitMessage bytes s)
    (run : exec i s = .next (x.2.answer { result := x.1 })) : SendsMessage i bytes s := by
  subst composed
  exact sendsMessage_of_emit hs run emitMessage_result

/-- An encoder that refuses its arguments changes nothing (R131 to R135). -/
theorem exec_refused (refused : x = (.invalidArgument, s)) (run : exec i s = .next (x.2.answer { result := x.1 })) :
    exec i s = .next (s.answer { result := .invalidArgument }) := by
  subst refused
  exact run

/-! ### The status messages (R131, R132) -/

theorem sendStatus_accepted {base pin : Byte} {value : Half} (h : pin ≤ 0x0F#8 ∧ value ≤ 0x3FFF#16) :
    sendStatus base pin value s = emitMessage (statusBytes base pin value) s := if_pos (statusInRange_iff.2 h)

theorem sendStatus_refused {base pin : Byte} {value : Half} (h : ¬ (pin ≤ 0x0F#8 ∧ value ≤ 0x3FFF#16)) :
    sendStatus base pin value s = (.invalidArgument, s) := if_neg (h ∘ statusInRange_iff.1)

/-- The range test decides between the status message and the refusal (R131, R132). -/
theorem sendStatus_sends_or_refuses {base pin : Byte} {value : Half} (hs : s.Inv)
    (run : exec i s = .next ((sendStatus base pin value s).2.answer { result := (sendStatus base pin value s).1 })) :
    (pin ≤ 0x0F#8 ∧ value ≤ 0x3FFF#16 → SendsMessage i (statusBytes base pin value) s)
      ∧ (¬ (pin ≤ 0x0F#8 ∧ value ≤ 0x3FFF#16) → exec i s = .next (s.answer { result := .invalidArgument })) :=
  ⟨fun fits => sendsMessage_of_composes hs (sendStatus_accepted fits) run,
    fun outside => exec_refused (sendStatus_refused outside) run⟩

/-- Settles O18: SEND_ANALOG is the status message of 0xE0, sent or refused. -/
theorem sendAnalogSendsOneStatusMessage : Obligations.SendAnalogSendsOneStatusMessage :=
  fun _ pin value hs => ⟨fun _ => rfl, sendStatus_sends_or_refuses hs (exec_sendAnalog hs.1 pin value)⟩

/-- Settles O19: SEND_DIGITAL is the status message of 0x90, sent or refused. -/
theorem sendDigitalSendsOneStatusMessage : Obligations.SendDigitalSendsOneStatusMessage :=
  fun _ port value hs => ⟨fun _ => rfl, sendStatus_sends_or_refuses hs (exec_sendDigital hs.1 port value)⟩

/-! ### SEND_STRING (R133) -/

/-- Settles O20: a string with a character is the message of its pairs. -/
theorem sendStringSendsEachCharacterAsAPair : Obligations.SendStringSendsEachCharacterAsAPair := by
  intro s str hs
  have run := exec_sendString hs.1 str
  exact ⟨fun _ => rfl, fun hne => sendsMessage_of_composes hs (if_neg hne) run,
    fun empty => exec_refused (if_pos empty) run⟩

/-! ### SEND_CAPABILITY (R134) -/

theorem recordBytesAt_zero (r : CapRecord) (rest : List CapRecord) :
    recordBytesAt (r :: rest) 0 = [r.mode, r.resolution] := by
  simp [recordBytesAt]

theorem recordBytesAt_one (q r : CapRecord) (rest : List CapRecord) :
    recordBytesAt (q :: r :: rest) 1 = separatorBefore (some q.pin) r ++ [r.mode, r.resolution] := by
  by_cases same : r.pin = q.pin <;> simp [recordBytesAt, separatorBefore, Config.separator, same]

/-- Past the second record a turn of the loop does not see the first. -/
theorem recordBytesAt_add_two (q : CapRecord) (recs : List CapRecord) (k : Nat) :
    recordBytesAt (q :: recs) (k + 2) = recordBytesAt recs (k + 1) := by
  simp [recordBytesAt]

/-- The turns of R134's loop after the first are the pieces behind the first record. -/
theorem recordBytesAt_later {p : Params} : ∀ (q : CapRecord) (rest : List CapRecord),
    (∀ r ∈ rest, capRecordValid p r = true) →
    ((List.range rest.length).flatMap fun k => recordBytesAt (q :: rest) (k + 1))
      = validBytes (capPieces p (some q.pin) rest)
  | _, [], _ => rfl
  | q, r :: rest, valid => by
    have ih := recordBytesAt_later r rest fun x hx => valid x (List.mem_cons_of_mem _ hx)
    rw [List.length_cons, List.range_succ_eq_map, List.flatMap_cons, List.flatMap_map, recordBytesAt_one, capPieces,
      if_pos (valid r List.mem_cons_self), validBytes, ← ih]
    simp only [Nat.succ_eq_add_one, recordBytesAt_add_two]

/-- R134's loop over the indices of valid records appends the bytes of the pieces. -/
theorem recordBytes_eq {p : Params} {recs : List CapRecord} (valid : ∀ r ∈ recs, capRecordValid p r = true) :
    recordBytes recs = validBytes (capPieces p none recs) := by
  cases recs with
  | nil => rfl
  | cons r rest =>
    have later := recordBytesAt_later r rest fun x hx => valid x (List.mem_cons_of_mem _ hx)
    rw [recordBytes, List.length_cons, List.range_succ_eq_map, List.flatMap_cons, List.flatMap_map,
      recordBytesAt_zero, capPieces, if_pos (valid r List.mem_cons_self), validBytes, ← later]
    rfl

theorem capPieces_invalid {p : Params} {bad : CapRecord} (invalid : capRecordValid p bad = false)
    (after : List CapRecord) : ∀ (before : List CapRecord) (previous : Option Byte),
    ∃ later, capPieces p previous (before ++ bad :: after) = capPieces p previous before ++ none :: later
  | [], previous => ⟨capPieces p (some bad.pin) after, by simp [capPieces, invalid]⟩
  | r :: before, previous => by
    obtain ⟨later, e⟩ := capPieces_invalid invalid after before (some r.pin)
    exact ⟨later, by rw [List.cons_append, capPieces, e, capPieces, List.cons_append]⟩

theorem sendCapability_accepted {recs : List CapRecord} (hne : recs ≠ [])
    (valid : ∀ r ∈ recs, capRecordValid s.params r = true) :
    sendCapability recs s = emitMessage ([0xF0#8, 0x6C#8] ++ recordBytes recs ++ [0x7F#8, 0xF7#8]) s := by
  rw [sendCapability, if_neg hne, composeChecked_valid (capPieces_valid none valid), recordBytes_eq valid]
  rfl

theorem sendCapability_fails {before : List CapRecord} {bad : CapRecord} (after : List CapRecord)
    (valid : ∀ r ∈ before, capRecordValid s.params r = true) (invalid : capRecordValid s.params bad = false) :
    sendCapability (before ++ bad :: after) s
      = failMid .invalidArgument (appendAll ([0xF0#8, 0x6C#8] ++ recordBytes before) s).2 := by
  obtain ⟨later, pieces⟩ := capPieces_invalid invalid after before none
  rw [sendCapability, if_neg (by simp), pieces, composeChecked_invalid, recordBytes_eq valid]
  rfl

/-- Settles O21: valid records by `sendCapability_accepted`, the first invalid one by `sendCapability_fails`. -/
theorem sendCapabilitySeparatesRunsOfOnePin : Obligations.SendCapabilitySeparatesRunsOfOnePin := by
  intro s recs hs
  have run := exec_sendCapability hs.1 recs
  refine ⟨fun _ => rfl, fun hne valid => sendsMessage_of_composes hs (sendCapability_accepted hne valid) run,
    fun empty => exec_refused (if_pos empty) run, fun before bad after split valid invalid => ?_,
    fun rule _ => capRecordValid_dataBytes rule⟩
  subst split
  exact failsMidMessage_of_failMid hs (sendCapability_fails after valid invalid) run

/-! ### SEND_ANALOG_MAPPING (R135) -/

theorem validBytes_mapPieces {map : List Byte} (valid : ∀ e ∈ map, e = 0x7F#8 ∨ e ≤ 0x0F#8) :
    validBytes (mapPieces map) = map := by
  have pieces : mapPieces map = map.map fun e => some [e] :=
    List.map_congr_left fun e he => if_pos (mappingEntryValid_iff.2 (valid e he))
  rw [pieces, validBytes_singletons]

theorem mapPieces_invalid {bad : Byte} (invalid : ¬ (bad = 0x7F#8 ∨ bad ≤ 0x0F#8)) (before after : List Byte) :
    mapPieces (before ++ bad :: after) = mapPieces before ++ none :: mapPieces after := by
  rw [mapPieces, List.map_append, List.map_cons, if_neg (invalid ∘ mappingEntryValid_iff.1)]
  rfl

theorem sendAnalogMapping_accepted {map : List Byte} (hne : map ≠ []) (valid : ∀ e ∈ map, e = 0x7F#8 ∨ e ≤ 0x0F#8) :
    sendAnalogMapping map s = emitMessage ([0xF0#8, 0x6A#8] ++ map ++ [0xF7#8]) s := by
  rw [sendAnalogMapping, if_neg hne, composeChecked_valid (mapPieces_valid valid), validBytes_mapPieces valid]
  rfl

theorem sendAnalogMapping_fails {before : List Byte} {bad : Byte} (after : List Byte)
    (valid : ∀ e ∈ before, e = 0x7F#8 ∨ e ≤ 0x0F#8) (invalid : ¬ (bad = 0x7F#8 ∨ bad ≤ 0x0F#8)) :
    sendAnalogMapping (before ++ bad :: after) s
      = failMid .invalidArgument (appendAll ([0xF0#8, 0x6A#8] ++ before) s).2 := by
  rw [sendAnalogMapping, if_neg (by simp), mapPieces_invalid invalid, composeChecked_invalid,
    validBytes_mapPieces valid]
  rfl

/-- Settles O22: accepted entries by `sendAnalogMapping_accepted`, the first other one by `sendAnalogMapping_fails`. -/
theorem sendAnalogMappingSendsTheMap : Obligations.SendAnalogMappingSendsTheMap := by
  intro s map hs
  have run := exec_sendAnalogMapping hs.1 map
  refine ⟨fun _ => rfl, fun hne valid => sendsMessage_of_composes hs (sendAnalogMapping_accepted hne valid) run,
    fun empty => exec_refused (if_pos empty) run, fun before bad after split valid invalid => ?_⟩
  subst split
  exact failsMidMessage_of_failMid hs (sendAnalogMapping_fails after valid invalid) run

end Sys2Proof.Machine
end

section
/-! SUPPORT. INIT and ATTACH (45_context_lifecycle.md R145, R146): what each answers to an absent reference, and the
statements about the two. -/

namespace Sys2Proof.Machine

/-! ### An absent reference (R145, R146) -/

theorem exec_init_absent (s : State) : exec (.init .absent) s = .next (s.answer { result := .nullReference }) := rfl

theorem exec_attach_noTable (ctx : Ref) (s : State) :
    exec (.attach ctx none) s = .next (s.answer { result := .nullReference }) := rfl

theorem exec_attach_absent (table : Option HandlerTable) (s : State) :
    exec (.attach .absent table) s = .next (s.answer { result := .nullReference }) := by
  cases table with
  | none => exact exec_attach_noTable .absent s
  | some _ => rfl

/-! ### INIT (R145) -/

/-- What R145 asks of every field: the zero Context has no handler and each byte of both buffers reads as 0x00. -/
theorem Context.zero_fields :
    Context.zero.state = .cmd ∧ Context.zero.remainingCount = .zero ∧ Context.zero.inputCursor = 0
      ∧ Context.zero.outputCursor = 0 ∧ (∀ i, memRead Context.zero.inputBuf i = 0x00#8)
      ∧ (∀ i, memRead Context.zero.outputBuf i = 0x00#8)
      ∧ Context.zero.handlers = ⟨none, none, none, none, none, none, none, none, none⟩ ∧ Context.zero.userData = 0 :=
  ⟨rfl, rfl, rfl, rfl, memRead_nil, memRead_nil, rfl, rfl⟩

/-- Settles O5: a present Context becomes the zero one (`exec_init`), whose fields are `Context.zero_fields`. -/
theorem initZeroesTheContextSilently : Obligations.InitZeroesTheContextSilently := by
  intro s
  refine ⟨fun _ => rfl, ⟨_, exec_init s, ?_⟩, exec_init_absent s⟩
  obtain ⟨state, count, inCursor, outCursor, inBuf, outBuf, handlers, userData⟩ := Context.zero_fields
  exact ⟨state, count, inCursor, outCursor, inBuf, outBuf, handlers, userData, rfl, rfl⟩

/-! ### ATTACH (R146) -/

/-- Settles O6: a usable Context takes the new table (`exec_attach`); either reference absent is refused. -/
theorem attachReplacesTheWholeTable : Obligations.AttachReplacesTheWholeTable :=
  fun s => ⟨fun _ => rfl, fun usable table => exec_attach usable table, fun ctx => exec_attach_noTable ctx s,
    fun table => exec_attach_absent (some table) s⟩

end Sys2Proof.Machine
end

section
/-! SUPPORT. What an operation answers to an absent reference (60_exceptions.md R161), and that every instruction
completes on a usable Context with the replies it owes (R160). -/

namespace Sys2Proof.Machine

variable {s t : State}

/-! ### An absent reference (R161) -/

theorem withContext_absent (f : State → Result × State) (s : State) :
    withContext .absent s f = .next (s.answer { result := .nullReference }) := rfl

/-- Settles O7: INIT and ATTACH by their own lemmas, every other operation by `withContext_absent`. -/
theorem absentReferenceIsNullReference : Obligations.AbsentReferenceIsNullReference :=
  ⟨rfl, fun s => ⟨exec_init_absent s, fun table => exec_attach_absent table s, fun ctx => exec_attach_noTable ctx s,
    fun b => withContext_absent (feed b) s, fun bytes => withContext_absent (feedAll bytes) s,
    fun b => withContext_absent (append b) s, withContext_absent flush s,
    fun pin value => withContext_absent (sendAnalog pin value) s,
    fun port value => withContext_absent (sendDigital port value) s, fun str => withContext_absent (sendString str) s,
    fun recs => withContext_absent (sendCapability recs) s, fun map => withContext_absent (sendAnalogMapping map) s⟩⟩

/-! ### Completion, and the replies to the caller (R160) -/

/-- One reply for each byte delivered (R174). -/
theorem feedEach_replies_length : ∀ (bytes : List Byte) (s : State),
    (feedEach bytes s).replies.length = s.replies.length + bytes.length
  | [], _ => rfl
  | b :: rest, s => by
    rw [feedEach, feedEach_replies_length rest, State.answer_replies, (feed_frame_any b s).replies]
    simp only [List.length_append, List.length_cons, List.length_nil]
    omega

/-- The outcome is a next state with exactly one reply more than `s`. -/
def AnswersOnce (s : State) (outcome : Host.Outcome State Fault Refusal) : Prop :=
  ∃ t, outcome = .next t ∧ ∃ reply, t.replies = s.replies ++ [reply]

theorem finish_answersOnce (r : Reply) (h : t.replies = s.replies) : AnswersOnce s (finish r t) :=
  ⟨_, rfl, r, congrArg (· ++ [r]) h⟩

theorem withContext_answersOnce (hu : s.Usable) (ctx : Ref) {f : State → Result × State}
    (h : (f s).2.replies = s.replies) : AnswersOnce s (withContext ctx s f) := by
  cases ctx with
  | absent => exact finish_answersOnce _ rfl
  | present => exact ⟨_, withContext_usable hu f, _, congrArg (· ++ [_]) h⟩

/-- What completing means for a word: the bytes of a frame are fed, anything else answers once. -/
def CompletesAs (s : State) (outcome : Host.Outcome State Fault Refusal) : InstrWord → Prop
  | .wire bytes => outcome = .next (feedEach bytes s)
  | .op _ _ | .message _ => AnswersOnce s outcome

/-- Every instruction completes on a usable Context, as its own word says. -/
theorem exec_completes (hu : s.Usable) (i : Instr) : CompletesAs s (exec i s) (encode s.params i) := by
  cases i with
  | analogIo _ _ | digitalIo _ _ | reportAnalog _ _ | reportDigital _ _ | setPinMode _ _ | setPinValue _ _
  | protocolVersion | systemReset | sysex _ | analogMappingQuery | capabilityQuery => exact deliver_usable hu _
  | analogMessage _ _ | digitalMessage _ _ | capabilityResponse _ | analogMappingResponse _ =>
    exact withContext_answersOnce hu .present (emitMessage_frame _ s).replies
  | stringData chars =>
    exact withContext_answersOnce hu .present (f := fun s => emitMessage (stringMessage s.params chars) s)
      (emitMessage_frame _ s).replies
  | versionReply => exact withContext_answersOnce hu .present (emitReply_frame _ s).replies
  | init ctx => cases ctx <;> exact finish_answersOnce _ rfl
  | attach ctx table =>
    cases table with
    | none => exact finish_answersOnce _ rfl
    | some table => exact withContext_answersOnce hu ctx (f := fun s => (.ok, attachTable table s)) rfl
  | feed ctx b => exact withContext_answersOnce hu ctx (feed_frame_any b s).replies
  | feedBulk ctx bytes => exact withContext_answersOnce hu ctx (feedAll_frame bytes s).replies
  | decode14 _ _ _ => exact finish_answersOnce _ rfl
  | encode14 buf len offset value => exact finish_answersOnce _ (encode14_frame buf len offset value s).replies
  | append ctx b => exact withContext_answersOnce hu ctx (append_frame b s).replies
  | flush ctx => exact withContext_answersOnce hu ctx (flush_frame s).replies
  | sendAnalog ctx pin value => exact withContext_answersOnce hu ctx (sendStatus_frame 0xE0#8 pin value s).replies
  | sendDigital ctx port value => exact withContext_answersOnce hu ctx (sendStatus_frame 0x90#8 port value s).replies
  | sendString ctx str => exact withContext_answersOnce hu ctx (sendString_frame str s).replies
  | sendCapability ctx recs => exact withContext_answersOnce hu ctx (sendCapability_frame recs s).replies
  | sendAnalogMapping ctx map => exact withContext_answersOnce hu ctx (sendAnalogMapping_frame map s).replies

/-- Settles O42: by `exec_completes`; a frame's replies are counted by `feedEach_replies_length`. -/
theorem everyInstructionCompletesOnAUsableContext : Obligations.EveryInstructionCompletesOnAUsableContext := by
  intro s i hu
  have completes := exec_completes hu i
  cases word : encode s.params i with
  | wire bytes =>
    rw [word] at completes
    refine ⟨_, completes, fun bytes' same => ?_, fun notFrame => absurd rfl (notFrame bytes)⟩
    rw [← InstrWord.wire.inj same]
    exact feedEach_replies_length bytes s
  | op _ _ | message _ =>
    rw [word] at completes
    obtain ⟨t, run, once⟩ := completes
    exact ⟨t, run, nofun, fun _ => once⟩

end Sys2Proof.Machine
end

section
/-! SUPPORT. Which Results each interface operation can return where the sink's do not propagate (60_exceptions.md R161
to R167). -/

namespace Sys2Proof.Machine

variable {s t : State}

/-! ### The Result of each operation (R162 to R166) -/

theorem decode14_result (buf len : Nat) (offset : Int) (s : State) :
    (decode14 buf len offset s).result = .ok ∨ (decode14 buf len offset s).result = .outOfBounds := by
  unfold decode14
  split
  · exact .inl rfl
  · exact .inr rfl

theorem encode14_result (buf len : Nat) (offset : Int) (value : Half) (s : State) :
    (encode14 buf len offset value s).1 = .ok ∨ (encode14 buf len offset value s).1 = .outOfBounds := by
  obtain ⟨-, e⟩ | ⟨-, e⟩ := encode14_cases buf len offset value s <;> rw [e]
  · exact .inl rfl
  · exact .inr rfl

theorem feedAll_result : ∀ (bytes : List Byte) {s : State}, s.Inv → s.params.sinkResultPropagates = false →
    (feedAll bytes s).1 = .ok ∨ (feedAll bytes s).1 = .unsupportedCommand ∨ (feedAll bytes s).1 = .bufferFull
      ∨ (feedAll bytes s).1 = .invalidFrame
  | [], _, _, _ => .inl rfl
  | b :: rest, s, hs, quiet => by
    unfold feedAll
    split
    · exact feedAll_result rest (feed_inv hs b) (by rw [(feed_frame_any b s).params]; exact quiet)
    · exact feed_result hs quiet b

section
variable (quiet : s.params.sinkResultPropagates = false)
include quiet

theorem composeChecked_ok_or_invalid (head : List Byte) (pieces : List (Option (List Byte))) (tail : List Byte) :
    (composeChecked head pieces tail s).1 = .ok ∨ (composeChecked head pieces tail s).1 = .invalidArgument := by
  obtain ⟨valid, -⟩ | ⟨-, e⟩ := composeChecked_cases head pieces tail s
  · exact .inl (composeChecked_result quiet valid)
  · rw [e]; exact .inr (failMid_result _ _)

theorem sendStatus_result (base pin : Byte) (value : Half) :
    (sendStatus base pin value s).1 = .ok ∨ (sendStatus base pin value s).1 = .invalidArgument := by
  unfold sendStatus
  split
  · exact .inl (emitMessage_result quiet)
  · exact .inr rfl

theorem sendString_result (str : List Byte) :
    (sendString str s).1 = .ok ∨ (sendString str s).1 = .invalidArgument := by
  unfold sendString
  split
  · exact .inr rfl
  · exact .inl (emitMessage_result quiet)

theorem sendCapability_result (recs : List CapRecord) :
    (sendCapability recs s).1 = .ok ∨ (sendCapability recs s).1 = .invalidArgument := by
  unfold sendCapability
  split
  · exact .inr rfl
  · exact composeChecked_ok_or_invalid quiet _ _ _

theorem sendAnalogMapping_result (map : List Byte) :
    (sendAnalogMapping map s).1 = .ok ∨ (sendAnalogMapping map s).1 = .invalidArgument := by
  unfold sendAnalogMapping
  split
  · exact .inr rfl
  · exact composeChecked_ok_or_invalid quiet _ _ _

end

/-! ### From the Result of an operation to the reply it leaves -/

section
variable {reply : Reply} {results : List Result}

theorem reply_result_mem {u : State} {r : Reply} (kept : u.replies = s.replies) (own : r.result ∈ results)
    (run : finish r u = .next t) (once : t.replies = s.replies ++ [reply]) : reply.result ∈ results := by
  obtain rfl := Host.Outcome.next.inj run
  rw [State.answer_replies, kept] at once
  obtain rfl : r = reply := by simpa using once
  exact own

theorem withContext_result_mem {ctx : Ref} {f : State → Result × State} (kept : (f s).2.replies = s.replies)
    (null : .nullReference ∈ results) (own : (f s).1 ∈ results) (run : withContext ctx s f = .next t)
    (once : t.replies = s.replies ++ [reply]) : reply.result ∈ results := by
  obtain ⟨-, rfl⟩ | ⟨-, rfl⟩ := withContext_next run
  · exact reply_result_mem (u := s) rfl null rfl once
  · exact reply_result_mem kept own rfl once

end

theorem mem_feedResults : ∀ {r : Result}, r = .ok ∨ r = .unsupportedCommand ∨ r = .bufferFull ∨ r = .invalidFrame →
    r ∈ [.ok, .nullReference, .unsupportedCommand, .invalidFrame, .bufferFull] := by
  rintro _ (rfl | rfl | rfl | rfl) <;> decide

theorem mem_codecResults : ∀ {r : Result}, r = .ok ∨ r = .outOfBounds → r ∈ [.ok, .outOfBounds] := by
  rintro _ (rfl | rfl) <;> decide

theorem mem_sendResults : ∀ {r : Result}, r = .ok ∨ r = .invalidArgument →
    r ∈ [.ok, .nullReference, .invalidArgument] := by
  rintro _ (rfl | rfl) <;> decide

/-- Settles O43: the reply is NullReference or the operation's own Result (`withContext_result_mem`), and each
operation's Results are those of its row. -/
theorem eachOperationReturnsOnlyItsOwnErrors : Obligations.EachOperationReturnsOnlyItsOwnErrors := by
  intro s t reply quiet hs
  refine ⟨fun ctx => ?_, fun ctx table => ?_, fun ctx b => ?_, fun ctx bytes => ?_, fun buf len offset => ?_,
    fun buf len offset value => ?_, fun ctx b => ?_, fun ctx => ?_, fun ctx pin value => ?_, fun ctx port value => ?_,
    fun ctx str => ?_, fun ctx recs => ?_, fun ctx map => ?_⟩
  · cases ctx with
    | absent => exact reply_result_mem rfl (by decide)
    | present => exact reply_result_mem (u := initContext s) rfl (by decide)
  · cases table with
    | none => exact reply_result_mem rfl (by decide)
    | some table =>
      exact withContext_result_mem (f := fun s => (.ok, attachTable table s)) rfl (by decide) List.mem_cons_self
  · exact withContext_result_mem (feed_frame_any b s).replies (by decide) (mem_feedResults (feed_result hs quiet b))
  · exact withContext_result_mem (feedAll_frame bytes s).replies (by decide)
      (mem_feedResults (feedAll_result bytes hs quiet))
  · exact reply_result_mem rfl (mem_codecResults (decode14_result buf len offset s))
  · exact reply_result_mem (encode14_frame buf len offset value s).replies
      (mem_codecResults (encode14_result buf len offset value s))
  · exact withContext_result_mem (append_frame b s).replies (by decide)
      (append_result quiet ▸ List.mem_cons_self)
  · exact withContext_result_mem (flush_frame s).replies (by decide)
      (flush_result quiet ▸ List.mem_cons_self)
  · exact withContext_result_mem (sendStatus_frame 0xE0#8 pin value s).replies (by decide)
      (mem_sendResults (sendStatus_result quiet _ pin value))
  · exact withContext_result_mem (sendStatus_frame 0x90#8 port value s).replies (by decide)
      (mem_sendResults (sendStatus_result quiet _ port value))
  · exact withContext_result_mem (sendString_frame str s).replies (by decide)
      (mem_sendResults (sendString_result quiet str))
  · exact withContext_result_mem (sendCapability_frame recs s).replies (by decide)
      (mem_sendResults (sendCapability_result quiet recs))
  · exact withContext_result_mem (sendAnalogMapping_frame map s).replies (by decide)
      (mem_sendResults (sendAnalogMapping_result quiet map))

end Sys2Proof.Machine
end

section
/-! SUPPORT. The command bytes that belong to no frame, and 0xFF (70_reset_and_hazards.md R184): from any state FEED
rejects them and resets the decoder, without a store or with the one store of the system-reset byte. -/

namespace Sys2Proof.Machine

variable {s : State} {b : Byte}

/-- The bytes of R184. -/
def ForcesCmd (b : Byte) : Prop := (b.msb = true ∧ b ≠ 0xF7#8 ∧ bodyLen b = none) ∨ b = 0xFF#8

theorem ForcesCmd.isCommand (h : ForcesCmd b) : isCommand b = true := by
  obtain ⟨command, -, -⟩ | rfl := h
  · exact command
  · rfl

theorem ForcesCmd.ne_sysexEnd (h : ForcesCmd b) : b ≠ Config.sysexEnd := by
  obtain ⟨-, ne, -⟩ | rfl := h
  · exact ne
  · decide

/-- The system-reset byte in CMD: it is a whole frame, stored in `in[0]` and dispatched to the last line (R90, R98). -/
theorem feed_systemReset (hu : s.Usable) (hc : s.ctx.state = .cmd) :
    feed 0xFF#8 s = (.unsupportedCommand, resetDecoder (frameReady 0xFF#8 .zero s)) := by
  have stored : frameByte (frameReady 0xFF#8 .zero s) 0 = 0xFF#8 := by
    show memRead (memWrite s.ctx.inputBuf s.ctx.inputCursor 0xFF#8) 0 = 0xFF#8
    rw [(usable_cmd hu hc).2.1]
    exact memRead_memWrite_same_of_ne (by decide) 0 _
  rw [feed_cmd_completes hu hc rfl, completeByte_frameReady, dispatch_systemReset stored]

/-- FEED of such a byte, whatever the decoder was doing: UnsupportedCommand, and the reset over some input buffer. -/
theorem feed_forcesCmd (hu : s.Usable) (h : ForcesCmd b) :
    ∃ buf, feed b s = (.unsupportedCommand, resetDecoder (s.setCtx { s.ctx with inputBuf := buf })) := by
  cases hc : s.ctx.state with
  | cmd =>
    obtain ⟨-, -, unmapped⟩ | rfl := h
    · exact ⟨_, feed_cmd_rejects hc unmapped⟩
    · exact ⟨_, feed_systemReset hu hc⟩
  | cmdData => exact ⟨_, feed_data_rejects hc h.isCommand fun terminator => h.ne_sysexEnd terminator.2⟩
  | ready => exact absurd hc (usable_not_ready hu)

/-- Settles O28: the state `feed_forcesCmd` says, and the one reply. -/
theorem unmappedCommandBytesForceTheDecoderToCmd : Obligations.UnmappedCommandBytesForceTheDecoderToCmd := by
  intro s b hs h
  obtain ⟨buf, fed⟩ := feed_forcesCmd hs.1 h
  refine ⟨_, exec_feed hs.1 b, ?_⟩
  rw [fed]
  exact ⟨rfl, ⟨rfl, rfl, rfl⟩, rfl⟩

end Sys2Proof.Machine
end

section
/-! SUPPORT. A handler's operations inside a FEED (70_reset_and_hazards.md R187, 60_exceptions.md R171): what a script
does as one operation on the state, that the reset and the reply which end the FEED commute with it, and how two FEEDs
run beside each other whose next scripts differ. -/

namespace Sys2Proof.Machine

variable {s t : State} {ops : List HandlerOp} {rest : List (List HandlerOp)}

/-! ### A script as one operation -/

/-- What operations do one after the other, and what each hands back, whoever is handed it. -/
def runOps : List HandlerOp → State → List Reply × State
  | [], s => ([], s)
  | op :: rest, s =>
    ((handlerOp op s).1 :: (runOps rest (handlerOp op s).2).1, (runOps rest (handlerOp op s).2).2)

/-- Replies to a handler at the end of those handlers have had. -/
def State.answersHandler (s : State) (rs : List Reply) : State := { s with handlerReplies := s.handlerReplies ++ rs }

theorem State.answerHandler_answersHandler (s : State) (r : Reply) (rs : List Reply) :
    (s.answerHandler r).answersHandler rs = s.answersHandler (r :: rs) := by
  simp [State.answersHandler, State.answerHandler]

theorem runOps_ignores : ∀ ops, IgnoresRest (runOps ops)
  | [] => fun _ _ => rfl
  | op :: rest => fun s r => by simp only [runOps, handlerOp_ignores op s r, runOps_ignores rest _ r]

theorem length_runOps : ∀ (ops : List HandlerOp) (s : State), (runOps ops s).1.length = ops.length
  | [], _ => rfl
  | _ :: rest, _ => congrArg (· + 1) (length_runOps rest _)

/-- The update reads and writes no more than what `withRest` replaces. -/
def UpdatesRest (g : State → State) : Prop := ∀ u s : State, g (u.withRest s) = u.withRest (g s)

/-- An operation that ignores the rest leaves it as it was. -/
theorem IgnoresRest.withRest_self {α : Type} {f : State → α × State} (hf : IgnoresRest f) (s : State) :
    (f s).2.withRest s = (f s).2 :=
  (congrArg Prod.snd (hf s s)).symm

/-- Such an operation commutes with every update of the rest. -/
theorem IgnoresRest.comm {α : Type} {f : State → α × State} {g : State → State} (hf : IgnoresRest f)
    (hg : UpdatesRest g) (s : State) : f (g s) = ((f s).1, g (f s).2) := by
  calc f (g s) = f (s.withRest (g s)) := congrArg f (hg s s)
    _ = ((f s).1, (f s).2.withRest (g s)) := hf s (g s)
    _ = ((f s).1, g (f s).2) := by rw [← hg, hf.withRest_self]

/-- A script is its operations with the replies handed to the handler (R171). -/
theorem runScript_eq : ∀ (ops : List HandlerOp) (s : State),
    runScript ops s = (runOps ops s).2.answersHandler (runOps ops s).1
  | [], s => by simp [runScript, runOps, State.answersHandler]
  | op :: rest, s => by
    rw [runScript, runScript_eq rest, runHandlerOp,
      (runOps_ignores rest).comm (g := (State.answerHandler · _)) fun _ _ => rfl]
    exact State.answerHandler_answersHandler _ _ _

/-- The interface operations of those names are the same operations with the replies handed to the caller. -/
theorem execAll_handlerOps : ∀ (ops : List HandlerOp) {s : State}, s.Inv →
    execAll (ops.map HandlerOp.instr) s = .next ((runOps ops s).2.answers (runOps ops s).1)
  | [], s, _ => by simp [execAll, runOps, State.answers]
  | op :: rest, s, hs => by
    have run := exec_handlerOp hs.1 op
    rw [List.map_cons, execAll_cons run, execAll_handlerOps rest (exec_inv hs run),
      (runOps_ignores rest).comm (g := (State.answer · _)) fun _ _ => rfl, State.answer_answers]
    rfl

/-- Replies handed to a handler, as the same replies handed to the caller and then moved. -/
theorem answersHandler_eq (replies : t.replies = s.replies) (handlerReplies : t.handlerReplies = s.handlerReplies)
    (rs : List Reply) : t.answersHandler rs
      = { t.answers rs with replies := s.replies, handlerReplies := s.handlerReplies ++ rs } := by
  rw [← replies, ← handlerReplies]; rfl

/-- What a script does beside what the caller's operations of the same names do. -/
theorem execAll_runScript (hs : s.Inv) (ops : List HandlerOp) :
    ∃ u replies, execAll (ops.map HandlerOp.instr) s = .next u ∧ u.replies = s.replies ++ replies
      ∧ replies.length = ops.length
      ∧ runScript ops s = { u with replies := s.replies, handlerReplies := s.handlerReplies ++ replies } := by
  have kept := (runOps_ignores ops).withRest_self s
  have replies : (runOps ops s).2.replies = s.replies := (congrArg State.replies kept).symm
  have handlerReplies : (runOps ops s).2.handlerReplies = s.handlerReplies :=
    (congrArg State.handlerReplies kept).symm
  exact ⟨_, _, execAll_handlerOps ops hs, congrArg (· ++ _) replies, length_runOps ops s,
    (runScript_eq ops s).trans (answersHandler_eq replies handlerReplies _)⟩

/-! ### What ends a FEED, and a script -/

/-- An update that a script does not see and that leaves the handlers' side alone. -/
structure BesideScripts (g : State → State) : Prop where
  updatesRest : UpdatesRest g
  scripts : ∀ s, (g s).scripts = s.scripts
  setScripts : ∀ s l, g (s.setScripts l) = (g s).setScripts l
  answersHandler : ∀ s rs, g (s.answersHandler rs) = (g s).answersHandler rs

theorem resetDecoder_besideScripts : BesideScripts resetDecoder :=
  ⟨fun _ _ => rfl, fun _ => rfl, fun _ _ => rfl, fun _ _ => rfl⟩

theorem answer_besideScripts (r : Reply) : BesideScripts (State.answer · r) :=
  ⟨fun _ _ => rfl, fun _ => rfl, fun _ _ => rfl, fun _ _ => rfl⟩

/-- Before the script or after it: the same. -/
theorem BesideScripts.runScript {g : State → State} (hg : BesideScripts g) (ops : List HandlerOp) (s : State) :
    runScript ops (g s) = g (runScript ops s) := by
  rw [runScript_eq, runScript_eq, (runOps_ignores ops).comm hg.updatesRest, hg.answersHandler]

/-! ### Two runs whose next scripts differ -/

/-- How a run whose next script is empty (`x`) and the run whose next script is `ops` (`y`) end: with one Result, and
either both invoked a handler, and `y` is `x` with the operations issued at its end, or neither did. -/
inductive Nested (ops : List HandlerOp) (rest : List (List HandlerOp)) (x y : Result × State) : Prop where
  | invoked (scripts : x.2.scripts = rest) (result : y.1 = x.1) (state : y.2 = runScript ops x.2)
  | silent (scripts : x.2.scripts = [] :: rest) (result : y.1 = x.1) (state : y.2 = x.2.setScripts (ops :: rest))

/-- The operation, with an empty and with any other next script. -/
def Nests (f : State → Result × State) : Prop :=
  ∀ (s : State) (ops : List HandlerOp) (rest : List (List HandlerOp)),
    Nested ops rest (f (s.setScripts ([] :: rest))) (f (s.setScripts (ops :: rest)))

theorem Nested.ite {c : Prop} [Decidable c] {x y x' y' : Result × State} (h : Nested ops rest x y)
    (h' : Nested ops rest x' y') : Nested ops rest (if c then x else x') (if c then y else y') := by
  split
  · exact h
  · exact h'

theorem Nested.update {g : State → State} {x y : Result × State} (hg : BesideScripts g) (h : Nested ops rest x y) :
    Nested ops rest (x.1, g x.2) (y.1, g y.2) := by
  cases h with
  | invoked scripts result state =>
    exact .invoked ((hg.scripts _).trans scripts) result ((congrArg g state).trans (hg.runScript ops _).symm)
  | silent scripts result state =>
    exact .silent ((hg.scripts _).trans scripts) result ((congrArg g state).trans (hg.setScripts _ _))

/-- An operation that ignores the queues invokes no handler. -/
theorem IgnoresRest.nests {f : State → Result × State} (hf : IgnoresRest f) : Nests f := fun s ops rest => by
  have comm := fun l => hf.comm (g := (State.setScripts · l)) (fun _ _ => rfl) s
  rw [comm, comm]
  exact .silent rfl rfl rfl

theorem result_nests (e : Result) : Nests fun s => (e, s) := IgnoresRest.nests fun _ _ => rfl

theorem callCommand_nests (slot : CommandSlot) (cmd a : Byte) (b : Half) :
    Nests fun s => (.ok, callCommand slot cmd a b s) := fun s ops rest => by
  simp only [callCommand, State.setScripts_ctx]
  cases commandCallback s.ctx.handlers slot with
  | none => exact .silent rfl rfl rfl
  | some callee => exact .invoked rfl rfl rfl

theorem callQuery_nests (slot : QuerySlot) (cmd id : Byte) :
    Nests fun s => (.ok, callQuery slot cmd id s) := fun s ops rest => by
  simp only [callQuery, State.setScripts_ctx]
  cases queryCallback s.ctx.handlers slot with
  | none => exact .silent rfl rfl rfl
  | some callee => exact .invoked rfl rfl rfl

theorem doValueIo_nests (slot : CommandSlot) : Nests (doValueIo slot) := fun s ops rest => by
  simp only [doValueIo, State.setScripts_ctx]
  cases decodePair s.ctx.inputBuf 0 s.ctx.inputCursor 1 with
  | none => exact result_nests .outOfBounds s ops rest
  | some v => exact callCommand_nests slot _ _ v s ops rest

/-- The SysEx sub-dispatcher: each query where its length is right, and the two errors (R99, R101, R102). -/
theorem doSysex_nests : Nests doSysex := fun s ops rest =>
  have query : ∀ slot id, Nests fun s =>
      if s.ctx.inputCursor = 3 then (.ok, callQuery slot Config.sysexStart id s) else (.invalidFrame, s) :=
    fun slot id s ops rest => .ite (callQuery_nests slot _ id s ops rest) (result_nests .invalidFrame s ops rest)
  .ite (query .analogMappingQuery _ s ops rest)
    (.ite (query .capabilityQuery _ s ops rest) (result_nests .unsupportedCommand s ops rest))

/-- DISPATCH: each arm (R90). -/
theorem dispatch_nests : Nests dispatch := fun s ops rest =>
  .ite (doValueIo_nests .analogIO s ops rest)
    (.ite (doValueIo_nests .digitalIO s ops rest)
    (.ite (callCommand_nests .reportAnalog _ _ _ s ops rest)
    (.ite (callCommand_nests .reportDigital _ _ _ s ops rest)
    (.ite (callCommand_nests .setPinMode _ _ _ s ops rest)
    (.ite (callCommand_nests .setPinValue _ _ _ s ops rest)
    (.ite ((emitReply_ignores versionMessage).nests s ops rest)
    (.ite (doSysex_nests s ops rest)
    (result_nests .unsupportedCommand s ops rest))))))))

/-! ### FEED -/

theorem inAppend_setScripts (b : Byte) (s : State) (l : List (List HandlerOp)) :
    inAppend b (s.setScripts l) = (inAppend b s).map (State.setScripts · l) := by
  obtain ⟨full, eq⟩ | ⟨room, eq⟩ := inAppend_cases b s <;> rw [eq]
  · exact if_pos full
  · exact if_neg room

theorem feedCmd_setScripts (b : Byte) (s : State) (l : List (List HandlerOp)) :
    feedCmd b (s.setScripts l) = (feedCmd b s).map (State.setScripts · l) := by
  simp only [feedCmd, inAppend_setScripts]
  split
  · rfl
  · cases bodyLen b with
    | none => rfl
    | some n => cases inAppend b s <;> rfl

theorem countBodyByte_setScripts (s : State) (l : List (List HandlerOp)) :
    countBodyByte (s.setScripts l) = (countBodyByte s).setScripts l := by
  simp only [countBodyByte, State.setScripts_ctx]
  cases s.ctx.remainingCount <;> rfl

theorem feedData_setScripts (b : Byte) (s : State) (l : List (List HandlerOp)) :
    feedData b (s.setScripts l) = (feedData b s).map (State.setScripts · l) := by
  simp only [feedData, inAppend_setScripts, show frameByte (s.setScripts l) 0 = frameByte s 0 from rfl]
  split
  · cases inAppend b s <;> rfl
  split
  · rfl
  · cases inAppend b s with
    | error e => rfl
    | ok t => exact congrArg Except.ok (countBodyByte_setScripts t l)

/-- Taking a byte does not look at the scripts (R70). -/
theorem takeByte_setScripts (b : Byte) (s : State) (l : List (List HandlerOp)) :
    takeByte b (s.setScripts l) = (takeByte b s).map (State.setScripts · l) := by
  simp only [takeByte, State.setScripts_ctx]
  cases s.ctx.state with
  | cmd => exact feedCmd_setScripts b s l
  | cmdData => exact feedData_setScripts b s l
  | ready => rfl

theorem completeByte_nests : Nests completeByte := fun s ops rest =>
  .ite ((dispatch_nests s ops rest).update resetDecoder_besideScripts) (result_nests .ok s ops rest)

theorem feed_nests (b : Byte) : Nests (feed b) := fun s ops rest => by
  simp only [feed, takeByte_setScripts]
  cases takeByte b s with
  | error e => exact (result_nests e s ops rest).update resetDecoder_besideScripts
  | ok t => exact completeByte_nests t ops rest

/-- Settles O41: one operation by `exec_handlerOp`; two FEEDs by `feed_nests`, with the reply moved before the script,
and the script then run by the caller (`execAll_runScript`). -/
theorem nestedOutputIsAsGoodAsLaterOutput : Obligations.NestedOutputIsAsGoodAsLaterOutput := by
  refine ⟨fun s op hu => ?_, fun s t₀ b ops rest hs run => ?_⟩
  · obtain ⟨replies, handlerReplies⟩ := handlerOp_replies op s
    exact ⟨_, _, exec_handlerOp hu op, congrArg (· ++ _) replies, answersHandler_eq replies handlerReplies [_]⟩
  · have after : t₀.Inv := exec_inv (s := s.setScripts ([] :: rest)) hs run
    have silent := (exec_feed (s := s.setScripts ([] :: rest)) hs.1 b).symm.trans run
    have scripted := exec_feed (s := s.setScripts (ops :: rest)) hs.1 b
    obtain rfl := Host.Outcome.next.inj silent
    have beside := answer_besideScripts { result := (feed b (s.setScripts ([] :: rest))).1 }
    cases feed_nests b s ops rest with
    | invoked scripts result state =>
      rw [result, state, ← beside.runScript] at scripted
      obtain ⟨u, replies, ran, handed, count, eq⟩ := execAll_runScript after ops
      exact ⟨fun _ => ⟨u, replies, ran, handed, count, scripted.trans (congrArg _ eq)⟩,
        fun unused => absurd (scripts.symm.trans unused) (List.cons_ne_self _ _).symm, .inl scripts⟩
    | silent scripts result state =>
      rw [result, state] at scripted
      exact ⟨fun used => absurd (scripts.symm.trans used) (List.cons_ne_self _ _), fun _ => scripted, .inr scripts⟩

end Sys2Proof.Machine
end
